-- ==== Sys2Proof/Word.lean ====
section
/-! DEFINITION. The word types of the CHIP-8 core and their plainest arithmetic (spec 00_scope.md section 5, 10_state.md). -/

namespace Sys2Proof

/-- `u8`: an 8-bit unsigned value (00_scope.md section 5). -/
abbrev Byte := BitVec 8

/-- `u16`: a 16-bit unsigned value; an instruction word, `I`, `PC`, a stack entry. -/
abbrev Word := BitVec 16

/-- The field `NNN`, 12 bits (30_encoding.md R91). -/
abbrev Addr := BitVec 12

/-- A register number `X` or `Y`, 0 to 15 (30_encoding.md R91). -/
abbrev Reg := Fin 16

/-- The field `N`, 0 to 15: a row count, or the low nibble of an unassigned word (30_encoding.md R91). -/
abbrev Nibble := Fin 16

/-- The number of a key, 0 to 15 (10_state.md R32). -/
abbrev Key := Fin 16

/-- `trunc8(v) = v mod 256` (00_scope.md section 5). -/
def trunc8 (v : Nat) : Byte := BitVec.ofNat 8 v

/-- `trunc16(v) = v mod 65536` (00_scope.md section 5). -/
def trunc16 (v : Nat) : Word := BitVec.ofNat 16 v

end Sys2Proof
end

