-- ==== Sys2Proof/Syntax.lean ====
section
/-! DEFINITION. The instructions: one constructor per row of spec/opcode_table.json (30_encoding.md R93, R95). -/

namespace Sys2Proof

/-- The 34 instructions and the six spaces of unassigned words. -/
inductive Instr where
  /-- 00E0, clear the display (R120). -/
  | cls
  /-- 00EE, return (R121). -/
  | ret
  /-- 1NNN, jump (R125). -/
  | jp (nnn : Addr)
  /-- 2NNN, call (R126). -/
  | call (nnn : Addr)
  /-- 3XNN, skip if `V[X] = NN` (R130). -/
  | seImm (x : Reg) (nn : Byte)
  /-- 4XNN, skip if `V[X] != NN` (R131). -/
  | sneImm (x : Reg) (nn : Byte)
  /-- 5XY0, skip if `V[X] = V[Y]` (R132). -/
  | seReg (x y : Reg)
  /-- 6XNN, load immediate (R135). -/
  | ldImm (x : Reg) (nn : Byte)
  /-- 7XNN, add immediate, no flag (R136). -/
  | addImm (x : Reg) (nn : Byte)
  /-- 8XY0, copy (R140). -/
  | ldReg (x y : Reg)
  /-- 8XY1, OR (R141). -/
  | orReg (x y : Reg)
  /-- 8XY2, AND (R142). -/
  | andReg (x y : Reg)
  /-- 8XY3, exclusive OR (R143). -/
  | xorReg (x y : Reg)
  /-- 8XY4, add with carry out (R144). -/
  | addReg (x y : Reg)
  /-- 8XY5, subtract (R145). -/
  | subReg (x y : Reg)
  /-- 8XY6, shift right by one (R146). -/
  | shrReg (x y : Reg)
  /-- 8XY7, reverse subtract (R147). -/
  | subnReg (x y : Reg)
  /-- 8XYE, shift left by one (R148). -/
  | shlReg (x y : Reg)
  /-- 9XY0, skip if `V[X] != V[Y]` (R150). -/
  | sneReg (x y : Reg)
  /-- ANNN, load `I` (R151). -/
  | ldI (nnn : Addr)
  /-- BNNN, jump with offset (R152). -/
  | jpOff (nnn : Addr)
  /-- CXNN, random byte AND `NN` (R153). -/
  | rnd (x : Reg) (nn : Byte)
  /-- DXYN, draw a sprite (R160). -/
  | drw (x y : Reg) (n : Nibble)
  /-- EX9E, skip if the key `V[X]` is down (R170). -/
  | skp (x : Reg)
  /-- EXA1, skip if the key `V[X]` is up (R171). -/
  | sknp (x : Reg)
  /-- FX07, read the delay timer (R180). -/
  | ldVxDt (x : Reg)
  /-- FX0A, wait for a key (R181). -/
  | waitKey (x : Reg)
  /-- FX15, set the delay timer (R182). -/
  | ldDt (x : Reg)
  /-- FX18, set the sound timer (R183). -/
  | ldSt (x : Reg)
  /-- FX1E, add to `I` (R184). -/
  | addI (x : Reg)
  /-- FX29, point `I` at a glyph (R185). -/
  | ldFont (x : Reg)
  /-- FX33, decimal digits (R186). -/
  | bcd (x : Reg)
  /-- FX55, store `V[0]` to `V[X]` (R187). -/
  | storeRegs (x : Reg)
  /-- FX65, load `V[0]` to `V[X]` (R188). -/
  | loadRegs (x : Reg)
  /-- UNASSIGNED_0: family 0 but 0x00E0 and 0x00EE (R95). -/
  | unassigned0 (nnn : Addr)
  /-- UNASSIGNED_5: 5XYn with `n != 0` (R95). -/
  | unassigned5 (x y : Reg) (n : Nibble)
  /-- UNASSIGNED_8: 8XYn with `n` in 8 to D or F (R95). -/
  | unassigned8 (x y : Reg) (n : Nibble)
  /-- UNASSIGNED_9: 9XYn with `n != 0` (R95). -/
  | unassigned9 (x y : Reg) (n : Nibble)
  /-- UNASSIGNED_E: EXnn with `nn` neither 9E nor A1 (R95). -/
  | unassignedE (x : Reg) (nn : Byte)
  /-- UNASSIGNED_F: FXnn with `nn` none of the nine assigned low bytes (R95). -/
  | unassignedF (x : Reg) (nn : Byte)
  deriving DecidableEq, Repr

/-- The row of spec/opcode_table.json an instruction belongs to, by its mnemonic (30_encoding.md R99: the pattern is the name). -/
def Instr.mnemonic : Instr → String
  | .cls => "00E0"
  | .ret => "00EE"
  | .jp _ => "1NNN"
  | .call _ => "2NNN"
  | .seImm _ _ => "3XNN"
  | .sneImm _ _ => "4XNN"
  | .seReg _ _ => "5XY0"
  | .ldImm _ _ => "6XNN"
  | .addImm _ _ => "7XNN"
  | .ldReg _ _ => "8XY0"
  | .orReg _ _ => "8XY1"
  | .andReg _ _ => "8XY2"
  | .xorReg _ _ => "8XY3"
  | .addReg _ _ => "8XY4"
  | .subReg _ _ => "8XY5"
  | .shrReg _ _ => "8XY6"
  | .subnReg _ _ => "8XY7"
  | .shlReg _ _ => "8XYE"
  | .sneReg _ _ => "9XY0"
  | .ldI _ => "ANNN"
  | .jpOff _ => "BNNN"
  | .rnd _ _ => "CXNN"
  | .drw _ _ _ => "DXYN"
  | .skp _ => "EX9E"
  | .sknp _ => "EXA1"
  | .ldVxDt _ => "FX07"
  | .waitKey _ => "FX0A"
  | .ldDt _ => "FX15"
  | .ldSt _ => "FX18"
  | .addI _ => "FX1E"
  | .ldFont _ => "FX29"
  | .bcd _ => "FX33"
  | .storeRegs _ => "FX55"
  | .loadRegs _ => "FX65"
  | .unassigned0 _ => "UNASSIGNED_0"
  | .unassigned5 _ _ _ => "UNASSIGNED_5"
  | .unassigned8 _ _ _ => "UNASSIGNED_8"
  | .unassigned9 _ _ _ => "UNASSIGNED_9"
  | .unassignedE _ _ => "UNASSIGNED_E"
  | .unassignedF _ _ => "UNASSIGNED_F"

end Sys2Proof
end

