-- ==== Sys2Proof/WellFormed.lean ====
section
/-! DEFINITION. Which instructions as syntax the encoding admits (30_encoding.md R93, R95). The field widths are in the types;
what is left to check is that an unassigned word is not one of the 34 assigned ones. -/

namespace Sys2Proof

/-- The low bytes the table assigns in family E (R93). -/
def assignedE : List Byte := [0x9E, 0xA1]

/-- The low bytes the table assigns in family F (R93). -/
def assignedF : List Byte := [0x07, 0x0A, 0x15, 0x18, 0x1E, 0x29, 0x33, 0x55, 0x65]

/-- The conditions of the table of R95; every assigned instruction is well formed. -/
def Instr.wellFormed : Instr → Bool
  | .unassigned0 nnn => nnn != 0x0E0 && nnn != 0x0EE
  | .unassigned5 _ _ n => n != 0
  | .unassigned8 _ _ n => decide (8 ≤ n.val) && n != 14
  | .unassigned9 _ _ n => n != 0
  | .unassignedE _ nn => !assignedE.contains nn
  | .unassignedF _ nn => !assignedF.contains nn
  | .cls | .ret | .jp _ | .call _ | .seImm _ _ | .sneImm _ _ | .seReg _ _ | .ldImm _ _ | .addImm _ _ => true
  | .ldReg _ _ | .orReg _ _ | .andReg _ _ | .xorReg _ _ | .addReg _ _ | .subReg _ _ | .shrReg _ _ => true
  | .subnReg _ _ | .shlReg _ _ | .sneReg _ _ | .ldI _ | .jpOff _ | .rnd _ _ | .drw _ _ _ | .skp _ | .sknp _ => true
  | .ldVxDt _ | .waitKey _ | .ldDt _ | .ldSt _ | .addI _ | .ldFont _ | .bcd _ | .storeRegs _ | .loadRegs _ => true

end Sys2Proof
end

