-- ==== Sys2Proof/Decode.lean ====
section
/-! DEFINITION. The decoder, total on any bytes, and after it the encoder (30_encoding.md R90 to R95, R101). -/

namespace Sys2Proof

/-! ## Fields (R91) -/

/-- The family, `opcode >> 12`. -/
def familyOf (w : Word) : Nat := w.toNat / 4096

/-- `X`, `(opcode >> 8) & 0xF`. -/
def fieldX (w : Word) : Reg := ⟨w.toNat / 256 % 16, Nat.mod_lt _ (by decide)⟩

/-- `Y`, `(opcode >> 4) & 0xF`. -/
def fieldY (w : Word) : Reg := ⟨w.toNat / 16 % 16, Nat.mod_lt _ (by decide)⟩

/-- `N`, `opcode & 0x000F`. -/
def fieldN (w : Word) : Nibble := ⟨w.toNat % 16, Nat.mod_lt _ (by decide)⟩

/-- `NN`, `opcode & 0x00FF`. -/
def fieldNN (w : Word) : Byte := BitVec.ofNat 8 w.toNat

/-- `NNN`, `opcode & 0x0FFF`. -/
def fieldNNN (w : Word) : Addr := BitVec.ofNat 12 w.toNat

/-! ## The opcode map (R93) -/

/-- Family 0: 00E0 and 00EE match on all 16 bits. -/
def decodeFamily0 (w : Word) : Instr :=
  if w = 0x00E0 then .cls
  else if w = 0x00EE then .ret
  else .unassigned0 (fieldNNN w)

/-- Family 5: 5XY0 alone. -/
def decodeFamily5 (w : Word) : Instr :=
  if fieldN w = 0 then .seReg (fieldX w) (fieldY w)
  else .unassigned5 (fieldX w) (fieldY w) (fieldN w)

/-- Family 8: the low nibble is the sub-opcode. -/
def decodeFamily8 (w : Word) : Instr :=
  match (fieldN w).val with
  | 0x0 => .ldReg (fieldX w) (fieldY w)
  | 0x1 => .orReg (fieldX w) (fieldY w)
  | 0x2 => .andReg (fieldX w) (fieldY w)
  | 0x3 => .xorReg (fieldX w) (fieldY w)
  | 0x4 => .addReg (fieldX w) (fieldY w)
  | 0x5 => .subReg (fieldX w) (fieldY w)
  | 0x6 => .shrReg (fieldX w) (fieldY w)
  | 0x7 => .subnReg (fieldX w) (fieldY w)
  | 0xE => .shlReg (fieldX w) (fieldY w)
  | _ => .unassigned8 (fieldX w) (fieldY w) (fieldN w)

/-- Family 9: 9XY0 alone. -/
def decodeFamily9 (w : Word) : Instr :=
  if fieldN w = 0 then .sneReg (fieldX w) (fieldY w)
  else .unassigned9 (fieldX w) (fieldY w) (fieldN w)

/-- Family E: the low byte is the sub-opcode. -/
def decodeFamilyE (w : Word) : Instr :=
  if fieldNN w = 0x9E then .skp (fieldX w)
  else if fieldNN w = 0xA1 then .sknp (fieldX w)
  else .unassignedE (fieldX w) (fieldNN w)

/-- Family F: the low byte is the sub-opcode. -/
def decodeFamilyF (w : Word) : Instr :=
  if fieldNN w = 0x07 then .ldVxDt (fieldX w)
  else if fieldNN w = 0x0A then .waitKey (fieldX w)
  else if fieldNN w = 0x15 then .ldDt (fieldX w)
  else if fieldNN w = 0x18 then .ldSt (fieldX w)
  else if fieldNN w = 0x1E then .addI (fieldX w)
  else if fieldNN w = 0x29 then .ldFont (fieldX w)
  else if fieldNN w = 0x33 then .bcd (fieldX w)
  else if fieldNN w = 0x55 then .storeRegs (fieldX w)
  else if fieldNN w = 0x65 then .loadRegs (fieldX w)
  else .unassignedF (fieldX w) (fieldNN w)

/-- "Dispatch on the high nibble, then on NN or the low nibble as needed" (R93). Every word is some row (R95, R101); the
compatibility mode plays no part (R102). The last arm is family F: a family is below 16. -/
def decodeWord (w : Word) : Instr :=
  match familyOf w with
  | 0x0 => decodeFamily0 w
  | 0x1 => .jp (fieldNNN w)
  | 0x2 => .call (fieldNNN w)
  | 0x3 => .seImm (fieldX w) (fieldNN w)
  | 0x4 => .sneImm (fieldX w) (fieldNN w)
  | 0x5 => decodeFamily5 w
  | 0x6 => .ldImm (fieldX w) (fieldNN w)
  | 0x7 => .addImm (fieldX w) (fieldNN w)
  | 0x8 => decodeFamily8 w
  | 0x9 => decodeFamily9 w
  | 0xA => .ldI (fieldNNN w)
  | 0xB => .jpOff (fieldNNN w)
  | 0xC => .rnd (fieldX w) (fieldNN w)
  | 0xD => .drw (fieldX w) (fieldY w) (fieldN w)
  | 0xE => decodeFamilyE w
  | _ => decodeFamilyF w

/-! ## Bytes and words -/

/-- The word two consecutive bytes hold, big-endian: `hi * 256 + lo` (R90, R96; 20_memory.md R65). -/
def wordOfBytes (hi lo : Byte) : Word := BitVec.ofNat 16 (hi.toNat * 256 + lo.toNat)

/-- The byte of a word at the lower address (R90). -/
def highByte (w : Word) : Byte := BitVec.ofNat 8 (w.toNat / 256)

/-- The byte of a word at the higher address (R90). -/
def lowByte (w : Word) : Byte := BitVec.ofNat 8 w.toNat

/-- Why a sequence of bytes holds no instruction. -/
inductive DecodeError where
  /-- Fewer than two bytes: every instruction is exactly 16 bits long (R90). -/
  | truncated
  deriving DecidableEq, Repr

/-- The first instruction of a byte sequence, and the bytes after it. -/
def decodeBytes : List Byte → Except DecodeError (Instr × List Byte)
  | hi :: lo :: rest => .ok (decodeWord (wordOfBytes hi lo), rest)
  | _ => .error .truncated

/-- The word of the opcode table's numbering: bit 0 is the least significant bit of the one 16-bit word; bits at `nbits` and
above are 0. -/
def tableWord (nbits w : Nat) : Word := BitVec.ofNat 16 (w % 2 ^ nbits)

/-- The instruction the decoder reads from a word of the opcode table: its two bytes are laid out as memory holds them, the
high byte first. An instruction has at most 16 bits (R90), so a longer word is none (log 24). -/
def decodeTableWord (nbits w : Nat) : Option Instr :=
  if nbits ≤ 16 then
    match decodeBytes [highByte (tableWord nbits w), lowByte (tableWord nbits w)] with
    | .ok (i, _) => some i
    | .error _ => none
  else none

/-! ## The encoder (formats of R92) -/

/-- Format NNN. -/
def wordNNN (family : Nat) (nnn : Addr) : Word := BitVec.ofNat 16 (family * 4096 + nnn.toNat)

/-- Format XNN; format X when the low byte is a fixed sub-opcode. -/
def wordXNN (family : Nat) (x : Reg) (nn : Byte) : Word :=
  BitVec.ofNat 16 (family * 4096 + x.val * 256 + nn.toNat)

/-- Format XYN; format XY when the low nibble is a fixed sub-opcode. -/
def wordXYN (family : Nat) (x y : Reg) (n : Nibble) : Word :=
  BitVec.ofNat 16 (family * 4096 + x.val * 256 + y.val * 16 + n.val)

/-- The word of an instruction (the table of R93). -/
def encode : Instr → Word
  | .cls => 0x00E0
  | .ret => 0x00EE
  | .jp nnn => wordNNN 0x1 nnn
  | .call nnn => wordNNN 0x2 nnn
  | .seImm x nn => wordXNN 0x3 x nn
  | .sneImm x nn => wordXNN 0x4 x nn
  | .seReg x y => wordXYN 0x5 x y 0x0
  | .ldImm x nn => wordXNN 0x6 x nn
  | .addImm x nn => wordXNN 0x7 x nn
  | .ldReg x y => wordXYN 0x8 x y 0x0
  | .orReg x y => wordXYN 0x8 x y 0x1
  | .andReg x y => wordXYN 0x8 x y 0x2
  | .xorReg x y => wordXYN 0x8 x y 0x3
  | .addReg x y => wordXYN 0x8 x y 0x4
  | .subReg x y => wordXYN 0x8 x y 0x5
  | .shrReg x y => wordXYN 0x8 x y 0x6
  | .subnReg x y => wordXYN 0x8 x y 0x7
  | .shlReg x y => wordXYN 0x8 x y 0xE
  | .sneReg x y => wordXYN 0x9 x y 0x0
  | .ldI nnn => wordNNN 0xA nnn
  | .jpOff nnn => wordNNN 0xB nnn
  | .rnd x nn => wordXNN 0xC x nn
  | .drw x y n => wordXYN 0xD x y n
  | .skp x => wordXNN 0xE x 0x9E
  | .sknp x => wordXNN 0xE x 0xA1
  | .ldVxDt x => wordXNN 0xF x 0x07
  | .waitKey x => wordXNN 0xF x 0x0A
  | .ldDt x => wordXNN 0xF x 0x15
  | .ldSt x => wordXNN 0xF x 0x18
  | .addI x => wordXNN 0xF x 0x1E
  | .ldFont x => wordXNN 0xF x 0x29
  | .bcd x => wordXNN 0xF x 0x33
  | .storeRegs x => wordXNN 0xF x 0x55
  | .loadRegs x => wordXNN 0xF x 0x65
  | .unassigned0 nnn => wordNNN 0x0 nnn
  | .unassigned5 x y n => wordXYN 0x5 x y n
  | .unassigned8 x y n => wordXYN 0x8 x y n
  | .unassigned9 x y n => wordXYN 0x9 x y n
  | .unassignedE x nn => wordXNN 0xE x nn
  | .unassignedF x nn => wordXNN 0xF x nn

/-! ## The opcode table as data (R93) -/

/-- A row of the table of R93: the instruction is selected by the words `op` with `op AND mask = bits`. -/
structure OpcodeRow where
  mnemonic : String
  mask : Word
  bits : Word
  deriving DecidableEq, Repr

/-- Families 0 to 7 of R93. -/
def opcodeRowsLow : List OpcodeRow :=
  [⟨"00E0", 0xFFFF, 0x00E0⟩, ⟨"00EE", 0xFFFF, 0x00EE⟩, ⟨"1NNN", 0xF000, 0x1000⟩, ⟨"2NNN", 0xF000, 0x2000⟩,
   ⟨"3XNN", 0xF000, 0x3000⟩, ⟨"4XNN", 0xF000, 0x4000⟩, ⟨"5XY0", 0xF00F, 0x5000⟩, ⟨"6XNN", 0xF000, 0x6000⟩,
   ⟨"7XNN", 0xF000, 0x7000⟩]

/-- Family 8 of R93. -/
def opcodeRowsAlu : List OpcodeRow :=
  [⟨"8XY0", 0xF00F, 0x8000⟩, ⟨"8XY1", 0xF00F, 0x8001⟩, ⟨"8XY2", 0xF00F, 0x8002⟩, ⟨"8XY3", 0xF00F, 0x8003⟩,
   ⟨"8XY4", 0xF00F, 0x8004⟩, ⟨"8XY5", 0xF00F, 0x8005⟩, ⟨"8XY6", 0xF00F, 0x8006⟩, ⟨"8XY7", 0xF00F, 0x8007⟩,
   ⟨"8XYE", 0xF00F, 0x800E⟩]

/-- Families 9 to F of R93. -/
def opcodeRowsHigh : List OpcodeRow :=
  [⟨"9XY0", 0xF00F, 0x9000⟩, ⟨"ANNN", 0xF000, 0xA000⟩, ⟨"BNNN", 0xF000, 0xB000⟩, ⟨"CXNN", 0xF000, 0xC000⟩,
   ⟨"DXYN", 0xF000, 0xD000⟩, ⟨"EX9E", 0xF0FF, 0xE09E⟩, ⟨"EXA1", 0xF0FF, 0xE0A1⟩, ⟨"FX07", 0xF0FF, 0xF007⟩,
   ⟨"FX0A", 0xF0FF, 0xF00A⟩, ⟨"FX15", 0xF0FF, 0xF015⟩, ⟨"FX18", 0xF0FF, 0xF018⟩, ⟨"FX1E", 0xF0FF, 0xF01E⟩,
   ⟨"FX29", 0xF0FF, 0xF029⟩, ⟨"FX33", 0xF0FF, 0xF033⟩, ⟨"FX55", 0xF0FF, 0xF055⟩, ⟨"FX65", 0xF0FF, 0xF065⟩]

/-- The 34 rows of R93. -/
def opcodeTable : List OpcodeRow := opcodeRowsLow ++ opcodeRowsAlu ++ opcodeRowsHigh

end Sys2Proof
end

