-- ==== Sys2Proof/Config.lean ====
section
/-! DEFINITION. What a run's configuration fixes, and the one free value (spec 00_scope.md R6 to R12, 92_eei_decisions.md
"Parameters at a glance"). Every parameter the spec asks a model to take is a field of `Config`; a `Config` stands in
State (log 4), so a statement about every state holds for every value of every parameter. -/

namespace Sys2Proof

/-- `COMPAT_MODE` (00_scope.md R2, R7): read by 8XY6, 8XYE, BNNN, FX1E, FX55 and FX65 alone. -/
inductive CompatMode where
  | legacyShift
  | modernShift
  deriving DecidableEq, Repr

/-- `VF_OPERAND_ORDER` (00_scope.md R12; 93_implementation_defined.md U9): when the flag and the result of 8XY4, 8XY5, 8XY6,
8XY7 and 8XYE are computed and written. -/
inductive VfOperandOrder where
  /-- The spec's default: flag first, then the result, re-reading the registers. -/
  | sequential
  /-- Operands read once; the flag is written first, the result second. -/
  | snapshotFlagFirst
  /-- Operands read once; the result is written first, the flag last. -/
  | snapshotFlagLast
  deriving DecidableEq, Repr

/-- The configuration of a run. It is not state: no step changes it; `load` sets `compatMode`, `rom` and `memFill`. -/
structure Config where
  /-- `COMPAT_MODE` (R7). -/
  compatMode : CompatMode
  /-- `STACK_CAPACITY`, at least 16 (R6). -/
  stackCapacity : Nat
  /-- `FONT`, glyph `d` at `5*d` to `5*d+4` (R8). -/
  font : Vector Byte 80
  /-- `ROM`, at most 3584 bytes (R9): the retained load image that `reset()` needs (10_state.md R36). -/
  rom : List Byte
  /-- `MEM_FILL` (R9): the bytes that are not 0, by address; an address with no entry is filled with 0. -/
  memFill : List Host.Cell
  /-- `VF_OPERAND_ORDER` (R12, U9). -/
  vfOrder : VfOperandOrder
  /-- `RESET_KEEPS_MEM` (70_reset_and_hazards.md R242, D17). -/
  resetKeepsMem : Bool
  deriving DecidableEq, Repr

/-- `ROM_MAX`: 3584 bytes = 4096 - 0x200 (00_scope.md R5). -/
def romMax : Nat := 3584

/-- The constraints the spec puts on the parameters: `STACK_CAPACITY >= 16` (R6) and `ROM_LEN <= 3584` (R9). -/
abbrev Config.WellFormed (c : Config) : Prop := 16 ≤ c.stackCapacity ∧ c.rom.length ≤ romMax

/-- The free value of CXNN (00_scope.md R11; 45_nibble9_A_B_C.md R153): the `n`-th random byte drawn, under no law. It has no body, so
nothing can be proved of its value (log 9). -/
opaque Config.randomByte : Nat → Byte

end Sys2Proof
end

