-- ==== Sys2Proof/Machine/State.lean ====
section
/-! DEFINITION. The state of the core (10_state.md R20 to R37), the reasons a step could stop, and the state after reset. -/

namespace Sys2Proof.Machine

/-- `lifecycle` (10_state.md R34; 60_exceptions.md R218): written by host operations alone. -/
inductive Lifecycle where
  | uninitialized
  | running
  | paused
  | halted
  deriving DecidableEq, Repr

/-- The cause of a run-time fault (60_exceptions.md R206). -/
inductive FaultCause where
  /-- 2NNN with a full stack (R201). -/
  | stackOverflow
  /-- 00EE with an empty stack (R202). -/
  | stackUnderflow
  /-- A fetch with `PC > 4094` (R203). -/
  | fetchOutOfRange
  /-- A data access above 4095 by DXYN, FX33, FX55 or FX65 (R204). -/
  | memoryOutOfRange
  /-- EX9E or EXA1 with `V[X] > 15` (R205). -/
  | keyIndexOutOfRange
  deriving DecidableEq, Repr

/-- The fault record (10_state.md R35): `(cause, pc, opcode, info)`. -/
structure FaultRecord where
  cause : FaultCause
  /-- The address of the faulting instruction. -/
  pc : Word
  /-- Its instruction word; absent for `fetchOutOfRange`. -/
  opcode : Option Word
  /-- The cause-specific integer. -/
  info : Nat
  deriving DecidableEq, Repr

/-- Memory as the bytes that differ from the load image, by address, addresses strictly rising (log 7). -/
abbrev Memory := List Host.Cell

/-- The display: 32 rows of 64 one-bit cells (10_state.md R29). Bit `x` of row `y` is the cell `y * 64 + x`, column `x` from the left;
a row is a bit vector because sprite bits are XORed into it (log 16). -/
abbrev DisplayBuffer := Vector (BitVec 64) 32

/-- The whole state of the core, its configuration, and the model's own counter of random draws. -/
structure State where
  /-- `V[0]` to `V[15]` (R20). -/
  v : Vector Byte 16
  /-- `I` (R23). -/
  i : Word
  /-- `PC` (R24). -/
  pc : Word
  /-- The call stack, top first; `SP` is its length and `Stack[k]` its entry `SP - 1 - k` (R25; log 12). -/
  stack : List Word
  /-- `Mem` (R28). -/
  mem : Memory
  /-- `Display` (R29). -/
  display : DisplayBuffer
  /-- `draw_pending` (R30). -/
  drawPending : Bool
  /-- `DT` (R31). -/
  dt : Byte
  /-- `ST` (R31). -/
  st : Byte
  /-- `Keys[0]` to `Keys[15]`, true is down (R32). -/
  keys : Vector Bool 16
  /-- `lifecycle` (R34). -/
  lifecycle : Lifecycle
  /-- `fault` (R35). -/
  fault : Option FaultRecord
  /-- The configuration: no step changes it (R33; log 4). -/
  cfg : Config
  /-- The MODEL's own field: how many random bytes CXNN has drawn (log 9). -/
  draws : Nat
  deriving DecidableEq, Repr

/-- Reasons for a step to stop with no next state. There is none: every run-time fault of this core is taken as a next state in
which the fault record is set (60_exceptions.md R207), and every word is an instruction or a no-op (30_encoding.md R95). -/
inductive Fault where
  deriving DecidableEq, Repr

/-- Reasons for having no meaning for an instruction. -/
inductive Refusal where
  /-- Raised by `exec`'s arm of an instruction that has no meaning yet, by its mnemonic; safe. No arm raises it. -/
  | notModelled (mnemonic : String)
  deriving DecidableEq, Repr

/-- What a step answers. -/
abbrev Result := Host.Outcome State Fault Refusal

/-- The configuration of `State.reset`: the spec's values for this hardware (R6, R62, R12, R242) and, where it gives none, the values
of log 4 (`compatMode`), 7 (`memFill`) and 8 (`rom`). -/
def resetConfig : Config where
  compatMode := .legacyShift
  stackCapacity := 48
  font := defaultFont
  rom := []
  memFill := []
  vfOrder := .sequential
  resetKeepsMem := false

/-- The state after a successful `load` or `reset` of the configuration `c` (the table of 10_state.md R37), with `n` random bytes drawn
so far. -/
def State.loaded (c : Config) (n : Nat) : State where
  v := Vector.replicate 16 0
  i := 0
  pc := 0x200
  stack := []
  mem := []
  display := Vector.replicate 32 0
  drawPending := false
  dt := 0
  st := 0
  keys := Vector.replicate 16 false
  lifecycle := .running
  fault := none
  cfg := c
  draws := n

/-- The machine right after reset (10_state.md R37). -/
def State.reset : State := State.loaded resetConfig 0

end Sys2Proof.Machine
end

