-- ==== Sys2Proof/Machine/Memory.lean ====
section
/-! DEFINITION. Memory as data: what an unlisted address reads as, and reading and writing one byte in canonical form
(10_state.md R28, R37; 20_memory.md R60, R61). -/

namespace Sys2Proof.Machine

/-- `PROG_BASE` (00_scope.md R5). -/
def progBase : Nat := 0x200

/-- `MEM_SIZE` (00_scope.md R5). -/
def memSize : Nat := 4096

/-- The byte a list of cells gives an address: its first entry, else `unlisted`. -/
def lookupCell (unlisted : Byte) : List Host.Cell → Nat → Byte
  | [], _ => unlisted
  | (k, b) :: m, a => if a = k then b else lookupCell unlisted m a

/-- The load image (10_state.md R37; 70_reset_and_hazards.md R240): `FONT` from 0x000, `ROM` from 0x200, `MEM_FILL` elsewhere. It is what an
address that memory does not list reads as (log 7). -/
def loadImage (c : Config) (a : Nat) : Byte :=
  if h : a < 80 then c.font[a]
  else if h : progBase ≤ a ∧ a - progBase < c.rom.length then c.rom[a - progBase]
  else lookupCell 0 c.memFill a

/-- The byte memory holds at an address, over the image `base`. -/
def Memory.read (base : Nat → Byte) (m : Memory) (a : Nat) : Byte := lookupCell (base a) m a

/-- List `b` at `a`, keeping addresses rising. -/
def Memory.insert : Memory → Nat → Byte → Memory
  | [], a, b => [(a, b)]
  | (k, c) :: m, a, b =>
    if a < k then (a, b) :: (k, c) :: m
    else if a = k then (a, b) :: m
    else (k, c) :: Memory.insert m a b

/-- Drop every entry of `a`. -/
def Memory.erase : Memory → Nat → Memory
  | [], _ => []
  | (k, c) :: m, a => if a = k then Memory.erase m a else (k, c) :: Memory.erase m a

/-- Write a byte, in canonical form: writing what the image holds removes the entry. -/
def Memory.write (base : Nat → Byte) (m : Memory) (a : Nat) (b : Byte) : Memory :=
  if b = base a then Memory.erase m a else Memory.insert m a b

/-- Every address of the list is at least `lo`, rising strictly, inside memory, and differs from the image. -/
def Memory.wfFrom (base : Nat → Byte) : Nat → Memory → Bool
  | _, [] => true
  | lo, (k, b) :: m => decide (lo ≤ k) && decide (k < memSize) && b != base k && Memory.wfFrom base (k + 1) m

/-- The canonical form of memory over the image `base`. -/
def Memory.wf (base : Nat → Byte) (m : Memory) : Bool := Memory.wfFrom base 0 m

end Sys2Proof.Machine
end

