-- ==== Sys2Proof/Machine/Ops.lean ====
section
/-! DEFINITION. The named operations over registers, stack and memory, and taking a fault
(00_scope.md section 5, 10_state.md R20 to R32, 20_memory.md R64, 60_exceptions.md R207). -/

namespace Sys2Proof.Machine

/-! ## One field at a time -/

/-- `V[r]` (10_state.md R20). -/
def State.getV (s : State) (r : Reg) : Byte := s.v[r]

/-- `V[r] <- b`. -/
def State.setV (s : State) (r : Reg) (b : Byte) : State := { s with v := s.v.set r b }

/-- `I <- w`. -/
def State.setI (s : State) (w : Word) : State := { s with i := w }

/-- `PC <- w`. -/
def State.setPc (s : State) (w : Word) : State := { s with pc := w }

/-- The call stack becomes `l`, top first. -/
def State.setStack (s : State) (l : List Word) : State := { s with stack := l }

/-- Memory becomes `m`. -/
def State.setMem (s : State) (m : Memory) : State := { s with mem := m }

/-- The display becomes `d`. -/
def State.setDisplay (s : State) (d : DisplayBuffer) : State := { s with display := d }

/-- `draw_pending <- b`. -/
def State.setDrawPending (s : State) (b : Bool) : State := { s with drawPending := b }

/-- `DT <- b`. -/
def State.setDt (s : State) (b : Byte) : State := { s with dt := b }

/-- `ST <- b`. -/
def State.setSt (s : State) (b : Byte) : State := { s with st := b }

/-- The keys become `k`. -/
def State.setKeys (s : State) (k : Vector Bool 16) : State := { s with keys := k }

/-- `lifecycle <- l`. -/
def State.setLifecycle (s : State) (l : Lifecycle) : State := { s with lifecycle := l }

/-- `fault <- f`. -/
def State.setFault (s : State) (f : Option FaultRecord) : State := { s with fault := f }

/-- The model's counter of random draws becomes `n` (log 9). -/
def State.setDraws (s : State) (n : Nat) : State := { s with draws := n }

/-! ## Registers of a role -/

/-- The number of VF, `V[15]` (10_state.md R20, R22). -/
def regF : Reg := 15

/-- `SP` (10_state.md R25). -/
def State.sp (s : State) : Nat := s.stack.length

/-- `Stack[k]` for `k < SP`, counted from the bottom (10_state.md R25). -/
def State.stackEntry (s : State) (k : Nat) : Option Word := s.stack.reverse[k]?

/-! ## The display (10_state.md R29) -/

/-- The cell at column `x`, row `y`; off outside the 64 by 32 grid. -/
def pixelOn (d : DisplayBuffer) (x y : Nat) : Bool := if h : y < 32 then d[y].getLsbD x else false

/-- `Display[k]`, the cell `k = y * 64 + x`. -/
def displayCell (d : DisplayBuffer) (k : Nat) : Bool := pixelOn d (k % 64) (k / 64)

/-- `Display[y * 64 + x] <- Display[y * 64 + x] XOR 1`; nothing outside the grid. -/
def togglePixel (d : DisplayBuffer) (x y : Nat) : DisplayBuffer :=
  if h : y < 32 then d.set y (d[y] ^^^ BitVec.twoPow 64 x) else d

/-! ## The program counter (30_encoding.md R96, R98) -/

/-- The fetch's advance, `PC <- trunc16(PC + 2)`. -/
def advancePc (s : State) : State := s.setPc (s.pc + 2)

/-- `skip`: `PC <- trunc16(PC + 2)` on top of the fetch's advance. -/
def skipNext (s : State) : State := s.setPc (s.pc + 2)

/-- `if c then skip`. -/
def skipIf (c : Bool) (s : State) : State := if c then skipNext s else s

/-- The rewind of FX0A, `PC <- trunc16(PC - 2)` (48_nibbleF_misc.md R181). -/
def rewindPc (s : State) : State := s.setPc (s.pc - 2)

/-! ## The call stack (10_state.md R25) -/

/-- `push(w)`: none when the stack is full. -/
def pushWord (w : Word) (s : State) : Option State :=
  if s.stack.length < s.cfg.stackCapacity then some (s.setStack (w :: s.stack)) else none

/-- `pop()`: none when the stack is empty. -/
def popWord (s : State) : Option (Word × State) :=
  match s.stack with
  | [] => none
  | w :: rest => some (w, s.setStack rest)

/-! ## Memory (20_memory.md R64) -/

/-- The byte memory holds at an address. -/
def State.readByte (s : State) (a : Nat) : Byte := Memory.read (loadImage s.cfg) s.mem a

/-- `MemRead(a, 1)`: the byte, or the offending address. -/
def memRead (a : Nat) (s : State) : Except Nat Byte :=
  if a < memSize then .ok (s.readByte a) else .error a

/-- `MemWrite(a, 1, b)`: the state after the write, or the offending address. -/
def memWrite (a : Nat) (b : Byte) (s : State) : Except Nat State :=
  if a < memSize then .ok (s.setMem (Memory.write (loadImage s.cfg) s.mem a b)) else .error a

/-- `n` bytes from `a`, in ascending order; the first offending address is the lowest one above 4095. -/
def readBytes (a : Nat) : Nat → State → Except Nat (List Byte)
  | 0, _ => .ok []
  | n + 1, s =>
    match memRead a s with
    | .error e => .error e
    | .ok b =>
      match readBytes (a + 1) n s with
      | .error e => .error e
      | .ok bs => .ok (b :: bs)

/-- Write bytes from `a`, in ascending order. -/
def writeBytes (a : Nat) : List Byte → State → Except Nat State
  | [], s => .ok s
  | b :: bs, s =>
    match memWrite a b s with
    | .error e => .error e
    | .ok t => writeBytes (a + 1) bs t

/-! ## Several registers (48_nibbleF_misc.md R187, R188) -/

/-- `V[0]` to `V[x]`, ascending. -/
def regsUpTo (x : Reg) (s : State) : List Byte := s.v.toList.take (x.val + 1)

/-- `V[k] <- b` for the bytes of a list, from `V[k]` upwards. -/
def setRegsFrom (k : Nat) : List Byte → State → State
  | [], s => s
  | b :: bs, s => setRegsFrom (k + 1) bs (if h : k < 16 then s.setV ⟨k, h⟩ b else s)

/-! ## Taking a fault (60_exceptions.md R207) -/

/-- Fault entry: no state changes but the fault record, and `PC` is (again) the address `addr` of the faulting instruction. -/
def takeFault (cause : FaultCause) (addr : Word) (opcode : Option Word) (info : Nat) (s : State) : State :=
  (s.setPc addr).setFault (some { cause := cause, pc := addr, opcode := opcode, info := info })

/-- `raise` in the execute phase of the instruction `i`: the fetch's advance of `PC` is undone (30_encoding.md R97), so the state is
that before the step, with the record of the cause, the address, the instruction word and the information. -/
def raiseFault (cause : FaultCause) (i : Instr) (info : Nat) (s : State) : State :=
  takeFault cause (s.pc - 2) (some (encode i)) info s

/-! There is no return from a fault: a recorded fault disables the step until `load` or `reset` (R208; Machine/Step.lean,
Machine/HostOps.lean). -/

end Sys2Proof.Machine
end

