-- ==== Sys2Proof/Machine/Operands.lean ====
section
/-! DEFINITION. The operand forms (30_encoding.md R91, R94; 48_nibbleF_misc.md R189). All are unsigned; nothing is sign-extended. -/

namespace Sys2Proof.Machine

/-- `zext_16(NNN)`: the absolute address of 1NNN, 2NNN and ANNN (R94). -/
def addrWord (nnn : Addr) : Word := nnn.setWidth 16

/-- The field `X` of a word of format NNN, `NNN[11:8]` (R91; 45_nibble9_A_B_C.md R152). -/
def addrX (nnn : Addr) : Reg := ⟨nnn.toNat / 256, by have := nnn.isLt; omega⟩

/-- The register BNNN adds: `V[0]` in LegacyShift, `V[X]` in ModernShift (R152). -/
def offsetReg (mode : CompatMode) (nnn : Addr) : Reg :=
  match mode with
  | .legacyShift => 0
  | .modernShift => addrX nnn

/-- The register a shift reads: `V[Y]` in LegacyShift, `V[X]` in ModernShift (44_nibble8_alu.md R146, R148). -/
def shiftSource (mode : CompatMode) (x y : Reg) : Reg :=
  match mode with
  | .legacyShift => y
  | .modernShift => x

/-- What FX55 and FX65 leave in `I`: `trunc16(I + X + 1)` in LegacyShift, `I` in ModernShift (48_nibbleF_misc.md R187, R188). -/
def indexAfterTransfer (mode : CompatMode) (x : Reg) (i : Word) : Word :=
  match mode with
  | .legacyShift => trunc16 (i.toNat + x.val + 1)
  | .modernShift => i

/-- The effective address of the `k`-th byte, `I + k`, an unbounded integer (R189). -/
def effectiveAddr (s : State) (k : Nat) : Nat := s.i.toNat + k

/-- The key number an EX9E or EXA1 names: the value `V[X]`, when it is a key (47_nibbleE_keys.md R172). -/
def keyOperand (b : Byte) : Option Key := if h : b.toNat < 16 then some ⟨b.toNat, h⟩ else none

/-- `Keys[k]` (10_state.md R32). -/
def State.keyDown (s : State) (k : Key) : Bool := s.keys[k]

/-- The lowest key that is down (48_nibbleF_misc.md R181). -/
def lowestKeyDown (s : State) : Option Key := (List.finRange 16).find? fun k => s.keyDown k

end Sys2Proof.Machine
end

