-- ==== Sys2Proof/Machine/Flags.lean ====
section
/-! DEFINITION. The values written to VF (the table of 10_state.md R22) and the order in which flag and result are written
(00_scope.md R12; 93_implementation_defined.md U9). -/

namespace Sys2Proof.Machine

/-- 1 for true, 0 for false. -/
def boolByte (b : Bool) : Byte := if b then 1 else 0

/-- 8XY4: 1 if the sum exceeds 255 (44_nibble8_alu.md R144). -/
def carryFlag (a b : Byte) : Byte := boolByte (decide (255 < a.toNat + b.toNat))

/-- 8XY5 and 8XY7: 1 if `a - b` needs no borrow, that is `a >= b` (R145, R147). -/
def noBorrowFlag (a b : Byte) : Byte := boolByte (decide (b.toNat ≤ a.toNat))

/-- 8XY6: the bit shifted out, bit 0 (R146). -/
def shiftRightFlag (a : Byte) : Byte := boolByte (a.getLsbD 0)

/-- 8XYE: the bit shifted out, bit 7 (R148). -/
def shiftLeftFlag (a : Byte) : Byte := boolByte (a.getLsbD 7)

/-- FX1E in ModernShift: 1 if the new, stored `I` exceeds 0xFFF (48_nibbleF_misc.md R184). -/
def indexFlag (i : Word) : Byte := boolByte (decide (0xFFF < i.toNat))

/-- DXYN: 1 if a pixel that was on was turned off (46_nibbleD_draw.md R160). -/
def collisionFlag (hit : Bool) : Byte := boolByte hit

/-- Write VF and `V[x]`. `result u` is the result as computed from the registers of the state `u`. Sequential (00_scope.md R12): the flag is
written first and the result is computed after it. The two snapshot orders (U9): the result is computed before either write. -/
def writeFlagAndResult (x : Reg) (flag : Byte) (result : State → Byte) (s : State) : State :=
  match s.cfg.vfOrder with
  | .sequential => (s.setV regF flag).setV x (result (s.setV regF flag))
  | .snapshotFlagFirst => (s.setV regF flag).setV x (result s)
  | .snapshotFlagLast => (s.setV x (result s)).setV regF flag

end Sys2Proof.Machine
end

