-- ==== Sys2Proof/Machine/Alu.lean ====
section
/-! DEFINITION. Family 8: move, logic, arithmetic and shifts (44_nibble8_alu.md). -/

namespace Sys2Proof.Machine

/-- 8XY0 (R140). -/
def execLdReg (x y : Reg) (s : State) : Result := .next (s.setV x (s.getV y))

/-- 8XY1 (R141): VF is not written. -/
def execOrReg (x y : Reg) (s : State) : Result := .next (s.setV x (s.getV x ||| s.getV y))

/-- 8XY2 (R142): VF is not written. -/
def execAndReg (x y : Reg) (s : State) : Result := .next (s.setV x (s.getV x &&& s.getV y))

/-- 8XY3 (R143): VF is not written. -/
def execXorReg (x y : Reg) (s : State) : Result := .next (s.setV x (s.getV x ^^^ s.getV y))

/-- 8XY4 (R144): the sum is taken from the values before any write. -/
def execAddReg (x y : Reg) (s : State) : Result :=
  .next (writeFlagAndResult x (carryFlag (s.getV x) (s.getV y))
    (fun _ => trunc8 ((s.getV x).toNat + (s.getV y).toNat)) s)

/-- 8XY5 (R145): the second statement reads the registers again. -/
def execSubReg (x y : Reg) (s : State) : Result :=
  .next (writeFlagAndResult x (noBorrowFlag (s.getV x) (s.getV y)) (fun u => u.getV x - u.getV y) s)

/-- 8XY6 (R146): a logical shift of `V[Y]` in LegacyShift, of `V[X]` in ModernShift. -/
def execShrReg (x y : Reg) (s : State) : Result :=
  .next (writeFlagAndResult x (shiftRightFlag (s.getV (shiftSource s.cfg.compatMode x y)))
    (fun u => u.getV (shiftSource s.cfg.compatMode x y) >>> 1) s)

/-- 8XY7 (R147): the reverse subtraction. -/
def execSubnReg (x y : Reg) (s : State) : Result :=
  .next (writeFlagAndResult x (noBorrowFlag (s.getV y) (s.getV x)) (fun u => u.getV y - u.getV x) s)

/-- 8XYE (R148): the mirror of 8XY6, with bit 7. -/
def execShlReg (x y : Reg) (s : State) : Result :=
  .next (writeFlagAndResult x (shiftLeftFlag (s.getV (shiftSource s.cfg.compatMode x y)))
    (fun u => u.getV (shiftSource s.cfg.compatMode x y) <<< 1) s)

end Sys2Proof.Machine
end

