-- ==== Sys2Proof/Machine/ClearReturn.lean ====
section
/-! DEFINITION. Family 0: clear the display and return (40_nibble0_cls_ret.md). Every meaning is the execute phase of a step: `PC` is
already the address of the instruction plus 2 (30_encoding.md R97). -/

namespace Sys2Proof.Machine

/-- Every cell off. -/
def clearedDisplay : DisplayBuffer := Vector.replicate 32 0

/-- 00E0 (R120): `draw_pending` is not changed. -/
def execCls (s : State) : Result := .next (s.setDisplay clearedDisplay)

/-- 00EE (R121): `PC <- pop()`; an empty stack raises StackUnderflow with `info = SP = 0` (60_exceptions.md R202). -/
def execRet (s : State) : Result :=
  match popWord s with
  | none => .next (raiseFault .stackUnderflow .ret s.sp s)
  | some (w, t) => .next (t.setPc w)

end Sys2Proof.Machine
end

