-- ==== Sys2Proof/Machine/Draw.lean ====
section
/-! DEFINITION. Family D: draw a sprite with collision (46_nibbleD_draw.md R160 to R164). -/

namespace Sys2Proof.Machine

/-- The display in the middle of a draw, and whether a pixel that was on has been turned off so far. -/
structure Canvas where
  cells : DisplayBuffer
  hit : Bool
  deriving DecidableEq, Repr

/-- The anchor's column, `V[X] mod 64` (R160, R162). -/
def anchorColumn (vx : Byte) : Nat := vx.toNat % 64

/-- The anchor's row, `V[Y] mod 32` (R160, R162). -/
def anchorRow (vy : Byte) : Nat := vy.toNat % 32

/-- How many rows are read and drawn, `R = min(N, 32 - y0)` (R161). -/
def rowsDrawn (n : Nibble) (y0 : Nat) : Nat := min n.val (32 - y0)

/-- How many columns of a row are drawn, `min(8, 64 - x0)` (R162). -/
def columnsDrawn (x0 : Nat) : Nat := min 8 (64 - x0)

/-- One pixel of row `y`: bit 7 of the byte is the leftmost. A bit of 0 leaves its cell alone; a bit of 1 toggles its cell, and
a cell that was on is a collision (R160, R163). -/
def drawPixel (b : Byte) (x0 y : Nat) (c : Canvas) (col : Nat) : Canvas :=
  if b.getLsbD (7 - col) then
    { cells := togglePixel c.cells (x0 + col) y, hit := c.hit || pixelOn c.cells (x0 + col) y }
  else c

/-- One row of the sprite, clipped at the right edge (R160, R162). -/
def drawRow (b : Byte) (x0 y : Nat) (c : Canvas) : Canvas :=
  (List.range (columnsDrawn x0)).foldl (drawPixel b x0 y) c

/-- The rows of the sprite, from row `y` down (R160). -/
def drawRows (x0 : Nat) : Nat → List Byte → Canvas → Canvas
  | _, [], c => c
  | y, b :: bs, c => drawRows x0 (y + 1) bs (drawRow b x0 y c)

/-- DXYN (R160): the anchor is read before VF is written; only the rows drawn are read from memory, and an address above 4095
among them raises MemoryOutOfRange (R161); `draw_pending` is set on every execution. -/
def execDrw (x y : Reg) (n : Nibble) (s : State) : Result :=
  let x0 := anchorColumn (s.getV x)
  let y0 := anchorRow (s.getV y)
  match readBytes (effectiveAddr s 0) (rowsDrawn n y0) s with
  | .error a => .next (raiseFault .memoryOutOfRange (.drw x y n) a s)
  | .ok rows =>
    let c := drawRows x0 y0 rows { cells := s.display, hit := false }
    .next (((s.setDisplay c.cells).setV regF (collisionFlag c.hit)).setDrawPending true)

end Sys2Proof.Machine
end

