-- ==== Sys2Proof/Machine/Immediate.lean ====
section
/-! DEFINITION. Families 6 and 7: load and add an immediate (43_nibble6_7_immediate.md). -/

namespace Sys2Proof.Machine

/-- 6XNN (R135). -/
def execLdImm (x : Reg) (nn : Byte) (s : State) : Result := .next (s.setV x nn)

/-- 7XNN (R136): modulo 256, no flag. -/
def execAddImm (x : Reg) (nn : Byte) (s : State) : Result :=
  .next (s.setV x (trunc8 ((s.getV x).toNat + nn.toNat)))

end Sys2Proof.Machine
end

