-- ==== Sys2Proof/Machine/IndexJumpRandom.lean ====
section
/-! DEFINITION. Families A, B and C: load `I`, jump with offset, random (45_nibble9_A_B_C.md R151 to R153). -/

namespace Sys2Proof.Machine

/-- ANNN (R151). -/
def execLdI (nnn : Addr) (s : State) : Result := .next (s.setI (addrWord nnn))

/-- BNNN (R152): `NNN + V[0]` in LegacyShift, `NNN + V[X]` in ModernShift; VF is not written. -/
def execJpOff (nnn : Addr) (s : State) : Result :=
  .next (s.setPc (trunc16 (nnn.toNat + (s.getV (offsetReg s.cfg.compatMode nnn)).toNat)))

/-- The next random byte, a free value (00_scope.md R11; log 9). -/
def drawByte (s : State) : Byte := Config.randomByte s.draws

/-- CXNN (R153): `V[X] <- r AND NN`; the counter moves on, so that the next draw is another free value. -/
def execRnd (x : Reg) (nn : Byte) (s : State) : Result :=
  .next ((s.setV x (drawByte s &&& nn)).setDraws (s.draws + 1))

end Sys2Proof.Machine
end

