-- ==== Sys2Proof/Machine/JumpCall.lean ====
section
/-! DEFINITION. Families 1 and 2: jump and call (41_nibble1_2_jump_call.md). -/

namespace Sys2Proof.Machine

/-- 1NNN (R125): the target is not checked. -/
def execJp (nnn : Addr) (s : State) : Result := .next (s.setPc (addrWord nnn))

/-- 2NNN (R126): push the address of the instruction after the call; a full stack raises StackOverflow with `info = SP`
(60_exceptions.md R201). -/
def execCall (nnn : Addr) (s : State) : Result :=
  match pushWord s.pc s with
  | none => .next (raiseFault .stackOverflow (.call nnn) s.sp s)
  | some t => .next (t.setPc (addrWord nnn))

end Sys2Proof.Machine
end

