-- ==== Sys2Proof/Machine/KeySkips.lean ====
section
/-! DEFINITION. Family E: skip on the level of a key (47_nibbleE_keys.md). -/

namespace Sys2Proof.Machine

/-- EX9E (R170): `V[X] > 15` raises KeyIndexOutOfRange with `info = V[X]` (R172; 60_exceptions.md R205). -/
def execSkp (x : Reg) (s : State) : Result :=
  match keyOperand (s.getV x) with
  | none => .next (raiseFault .keyIndexOutOfRange (.skp x) (s.getV x).toNat s)
  | some k => .next (skipIf (s.keyDown k) s)

/-- EXA1 (R171). -/
def execSknp (x : Reg) (s : State) : Result :=
  match keyOperand (s.getV x) with
  | none => .next (raiseFault .keyIndexOutOfRange (.sknp x) (s.getV x).toNat s)
  | some k => .next (skipIf (!s.keyDown k) s)

end Sys2Proof.Machine
end

