-- ==== Sys2Proof/Machine/Misc.lean ====
section
/-! DEFINITION. Family F: timers, key wait, index arithmetic, font, decimal digits, register store and load
(48_nibbleF_misc.md). -/

namespace Sys2Proof.Machine

/-- FX07 (R180). -/
def execLdVxDt (x : Reg) (s : State) : Result := .next (s.setV x s.dt)

/-- FX0A (R181): with no key down, back to this instruction; else the number of the lowest key down. -/
def execWaitKey (x : Reg) (s : State) : Result :=
  match lowestKeyDown s with
  | none => .next (rewindPc s)
  | some k => .next (s.setV x (trunc8 k.val))

/-- FX15 (R182). -/
def execLdDt (x : Reg) (s : State) : Result := .next (s.setDt (s.getV x))

/-- FX18 (R183). -/
def execLdSt (x : Reg) (s : State) : Result := .next (s.setSt (s.getV x))

/-- FX1E (R184): modulo 65536, `V[X]` read before VF is written; the flag tests the stored `I`, in ModernShift only. -/
def execAddI (x : Reg) (s : State) : Result :=
  let t := s.setI (trunc16 (s.i.toNat + (s.getV x).toNat))
  match s.cfg.compatMode with
  | .legacyShift => .next t
  | .modernShift => .next (t.setV regF (indexFlag t.i))

/-- FX29 (R185): `V[X]` is not reduced to a nibble. -/
def execLdFont (x : Reg) (s : State) : Result := .next (s.setI (trunc16 ((s.getV x).toNat * 5)))

/-- The decimal digits of a byte: hundreds, tens, ones (R186). -/
def decimalDigits (v : Byte) : List Byte :=
  [trunc8 (v.toNat / 100), trunc8 (v.toNat / 10 % 10), trunc8 (v.toNat % 10)]

/-- FX33 (R186): `I` is not changed. -/
def execBcd (x : Reg) (s : State) : Result :=
  match writeBytes (effectiveAddr s 0) (decimalDigits (s.getV x)) s with
  | .error a => .next (raiseFault .memoryOutOfRange (.bcd x) a s)
  | .ok t => .next t

/-- FX55 (R187): in LegacyShift `I` moves past the last byte written. -/
def execStoreRegs (x : Reg) (s : State) : Result :=
  match writeBytes (effectiveAddr s 0) (regsUpTo x s) s with
  | .error a => .next (raiseFault .memoryOutOfRange (.storeRegs x) a s)
  | .ok t => .next (t.setI (indexAfterTransfer s.cfg.compatMode x s.i))

/-- FX65 (R188): the inverse transfer, with the same rule for `I`. -/
def execLoadRegs (x : Reg) (s : State) : Result :=
  match readBytes (effectiveAddr s 0) (x.val + 1) s with
  | .error a => .next (raiseFault .memoryOutOfRange (.loadRegs x) a s)
  | .ok bytes => .next ((setRegsFrom 0 bytes s).setI (indexAfterTransfer s.cfg.compatMode x s.i))

end Sys2Proof.Machine
end

