-- ==== Sys2Proof/Machine/Skips.lean ====
section
/-! DEFINITION. The skips on registers: families 3, 4, 5 and 9 (42_nibble3_4_5_skips.md; 45_nibble9_A_B_C.md R150). -/

namespace Sys2Proof.Machine

/-- 3XNN (R130). -/
def execSeImm (x : Reg) (nn : Byte) (s : State) : Result := .next (skipIf (s.getV x == nn) s)

/-- 4XNN (R131). -/
def execSneImm (x : Reg) (nn : Byte) (s : State) : Result := .next (skipIf (s.getV x != nn) s)

/-- 5XY0 (R132). -/
def execSeReg (x y : Reg) (s : State) : Result := .next (skipIf (s.getV x == s.getV y) s)

/-- 9XY0 (R150). -/
def execSneReg (x y : Reg) (s : State) : Result := .next (skipIf (s.getV x != s.getV y) s)

end Sys2Proof.Machine
end

