-- ==== Sys2Proof/Machine/Unassigned.lean ====
section
/-! DEFINITION. The unassigned words: no-ops whose whole effect is the fetch's advance of `PC` (30_encoding.md R95). -/

namespace Sys2Proof.Machine

/-- The execute phase of a no-op: nothing more. -/
def noOperation (s : State) : Result := .next s

/-- UNASSIGNED_0 (R95); `0NNN` calls nothing. -/
def execUnassigned0 (s : State) : Result := noOperation s

/-- UNASSIGNED_5 (R95). -/
def execUnassigned5 (s : State) : Result := noOperation s

/-- UNASSIGNED_8 (R95). -/
def execUnassigned8 (s : State) : Result := noOperation s

/-- UNASSIGNED_9 (R95). -/
def execUnassigned9 (s : State) : Result := noOperation s

/-- UNASSIGNED_E (R95). -/
def execUnassignedE (s : State) : Result := noOperation s

/-- UNASSIGNED_F (R95). -/
def execUnassignedF (s : State) : Result := noOperation s

end Sys2Proof.Machine
end

