-- ==== Sys2Proof/Machine/Fetch.lean ====
section
/-! DEFINITION. Fetching an instruction, and when a step is enabled (30_encoding.md R96, R97; 20_memory.md R65, R72). -/

namespace Sys2Proof.Machine

/-- A step is enabled only if `lifecycle = Running` and `fault = None` (30_encoding.md R97; 10_state.md R34). -/
def stepEnabled (s : State) : Bool := decide (s.lifecycle = .running) && s.fault.isNone

/-- The fetch is inside memory: `PC <= 4094` (R96). -/
def fetchInRange (s : State) : Bool := decide (s.pc.toNat ≤ 4094)

/-- The word at `[PC, PC+1]`, big-endian, whatever the parity of `PC` (R96; 20_memory.md R65, R66). -/
def fetchWord (s : State) : Word := wordOfBytes (s.readByte s.pc.toNat) (s.readByte (s.pc.toNat + 1))

/-- FetchOutOfRange (60_exceptions.md R203): `info = PC`, no instruction word, `PC` unchanged. -/
def fetchFault (s : State) : State := takeFault .fetchOutOfRange s.pc none s.pc.toNat s

/-- The two bytes of a word stored where the next step fetches, over the load image; a `PC` above 4094 has no such place. -/
def placeWordAtPc (s : State) (w : Word) : State :=
  if fetchInRange s then
    let m := Memory.write (loadImage s.cfg) s.mem s.pc.toNat (highByte w)
    s.setMem (Memory.write (loadImage s.cfg) m (s.pc.toNat + 1) (lowByte w))
  else s

end Sys2Proof.Machine
end

