-- ==== Sys2Proof/Machine/Step.lean ====
section
/-! DEFINITION. One call of `step()` (30_encoding.md R97). -/

namespace Sys2Proof.Machine

/-- Fetch, advance `PC`, decode, execute. A step that is not enabled changes nothing (R97; log 2). -/
def step (s : State) : Host.Outcome State Fault Refusal :=
  if stepEnabled s then
    if fetchInRange s then exec (decodeWord (fetchWord s)) (advancePc s)
    else .next (fetchFault s)
  else .next s

/-- The state with a word of the opcode table stored where the next step fetches (log 8, log 22). -/
def State.withFetchWord (s : State) (nbits w : Nat) : State := placeWordAtPc s (tableWord nbits w)

end Sys2Proof.Machine
end

