-- ==== Sys2Proof/Machine/HostOps.lean ====
section
/-! DEFINITION. The operations of the environment, each landing as a whole between two steps
(20_memory.md R70; 60_exceptions.md R211 to R221; 70_reset_and_hazards.md R240 to R242). -/

namespace Sys2Proof.Machine

/-! ## Load and reset -/

/-- What the Loader is given: bytes, or a source that cannot be read (the environment's choice, R241). -/
inductive RomSource where
  | bytes (rom : List Byte)
  | unreadable
  deriving DecidableEq, Repr

/-- The result of `load` (60_exceptions.md R221). -/
inductive LoadResult where
  | ok
  | romTooLarge
  | romUnreadable
  deriving DecidableEq, Repr

/-- `load(ROM, COMPAT_MODE)` with `MEM_FILL`: on success the state of R240 (accepted in every lifecycle, R218), on failure nothing
changes (R241). The counter of random draws goes on (log 9). -/
def load (src : RomSource) (mode : CompatMode) (fill : List Host.Cell) (s : State) : LoadResult × State :=
  match src with
  | .unreadable => (.romUnreadable, s)
  | .bytes rom =>
    if rom.length ≤ romMax then
      (.ok, State.loaded { s.cfg with compatMode := mode, rom := rom, memFill := fill } s.draws)
    else (.romTooLarge, s)

/-- `reset()` (R242): the state of the last successful `load`, from Running or Paused only; with `RESET_KEEPS_MEM`, memory stays as
the run made it (log 11). -/
def hostReset (s : State) : State :=
  if s.lifecycle = .running ∨ s.lifecycle = .paused then
    (State.loaded s.cfg s.draws).setMem (if s.cfg.resetKeepsMem then s.mem else [])
  else s

/-! ## Timers -/

/-- One tick of one timer: down by one, floored at zero (60_exceptions.md R213). -/
def tickTimer (t : Byte) : Byte := if t = 0 then 0 else t - 1

/-- `tick_timers()` (R213): effective only while Running, a recorded fault or not. -/
def tickTimers (s : State) : State :=
  if s.lifecycle = .running then (s.setDt (tickTimer s.dt)).setSt (tickTimer s.st) else s

/-- `sound_active()` (R214). -/
def soundActive (s : State) : Bool := s.st != 0

/-! ## Keys and display -/

/-- `set_key(k, is_down)` (R215; log 13). -/
def setKey (k : Key) (down : Bool) (s : State) : State := s.setKeys (s.keys.set k down)

/-- `read_display()` (R216): the 2048 cells. -/
def readDisplay (s : State) : Vector Bool 2048 := Vector.ofFn fun k => displayCell s.display k.val

/-- `draw_pending`, readable by the Renderer (R216). -/
def readDrawPending (s : State) : Bool := s.drawPending

/-- `clear_draw_pending()` (R217; log 13). -/
def clearDrawPending (s : State) : State := s.setDrawPending false

/-! ## Lifecycle (R218 to R220): a pair the table does not list leaves the state unchanged -/

/-- `pause`: Running to Paused. -/
def pauseRun (s : State) : State := if s.lifecycle = .running then s.setLifecycle .paused else s

/-- `resume`: Paused to Running. -/
def resumeRun (s : State) : State := if s.lifecycle = .paused then s.setLifecycle .running else s

/-- `quit`: Running to Halted. -/
def quitRun (s : State) : State := if s.lifecycle = .running then s.setLifecycle .halted else s

/-! ## The operations as data -/

/-- An operation of the environment that may change the state. -/
inductive HostOp where
  | load (src : RomSource) (mode : CompatMode) (fill : List Host.Cell)
  | reset
  | tickTimers
  | setKey (k : Key) (down : Bool)
  | clearDrawPending
  | pause
  | resume
  | quit
  deriving DecidableEq, Repr

/-- The state after an operation of the environment. -/
def applyHostOp (op : HostOp) (s : State) : State :=
  match op with
  | .load src mode fill => (load src mode fill s).2
  | .reset => hostReset s
  | .tickTimers => tickTimers s
  | .setKey k down => setKey k down s
  | .clearDrawPending => clearDrawPending s
  | .pause => pauseRun s
  | .resume => resumeRun s
  | .quit => quitRun s

/-- The state after `n` ticks. -/
def tickTimes : Nat → State → State
  | 0, s => s
  | n + 1, s => tickTimes n (tickTimers s)

/-- The numeric cause codes of the fault record (60_exceptions.md R206). -/
def FaultCause.code : FaultCause → Nat
  | .stackOverflow => 1
  | .stackUnderflow => 2
  | .fetchOutOfRange => 3
  | .memoryOutOfRange => 4
  | .keyIndexOutOfRange => 5

end Sys2Proof.Machine
end

