-- ==== Sys2Proof/Safety.lean ====
section
/-! DEFINITION. The terms claims use: what an instruction may change, the machine's invariant, parked states. -/

namespace Sys2Proof.Machine

/-! ## Frames -/

/-- What an instruction may change besides `PC`. `Keys`, `lifecycle` and the configuration are never among it (10_state.md R38). -/
structure MayChange where
  /-- The general registers it may write. -/
  regs : Reg → Prop := fun _ => False
  /-- The bytes of memory it may write. -/
  mem : Nat → Prop := fun _ => False
  i : Bool := false
  stack : Bool := false
  display : Bool := false
  drawPending : Bool := false
  dt : Bool := false
  st : Bool := false
  fault : Bool := false
  /-- The model's counter of random draws. -/
  draws : Bool := false

/-- `t` differs from `s` in `PC` and in what `m` names, in nothing else. -/
structure Frame (m : MayChange) (s t : State) : Prop where
  regs : ∀ r, ¬ m.regs r → t.getV r = s.getV r
  mem : ∀ a, ¬ m.mem a → t.readByte a = s.readByte a
  i : m.i = false → t.i = s.i
  stack : m.stack = false → t.stack = s.stack
  display : m.display = false → t.display = s.display
  drawPending : m.drawPending = false → t.drawPending = s.drawPending
  dt : m.dt = false → t.dt = s.dt
  st : m.st = false → t.st = s.st
  fault : m.fault = false → t.fault = s.fault
  draws : m.draws = false → t.draws = s.draws
  keys : t.keys = s.keys
  lifecycle : t.lifecycle = s.lifecycle
  cfg : t.cfg = s.cfg

/-- Nothing but `PC` may change. -/
def MayChange.nothing : MayChange := {}

/-- The one register `x` may change. -/
def MayChange.reg (x : Reg) : MayChange := { regs := fun r => r = x }

/-- The register `x` and VF may change. -/
def MayChange.regAndFlag (x : Reg) : MayChange := { regs := fun r => r = x ∨ r = regF }

/-- `w` is the instruction word of `i`: `i` is encoded as `w`, and `w` decodes to `i`. -/
def Encodes (w : Nat) (i : Instr) : Prop := (encode i).toNat = w ∧ decodeWord (BitVec.ofNat 16 w) = i

/-- The state in the mode `m` (the configuration's `COMPAT_MODE` replaced). -/
def State.withMode (s : State) (m : CompatMode) : State := { s with cfg := { s.cfg with compatMode := m } }

/-- The sprite bit of DXYN that falls on the cell at column `x`, row `y`, for an anchor `(x0, y0)` and `n` rows read from `I`
(46_nibbleD_draw.md R160, R162): bit 7 of a byte is the leftmost pixel, and nothing wraps. -/
def spritePixel (s : State) (x0 y0 n x y : Nat) : Bool :=
  decide (x0 ≤ x ∧ x < x0 + 8 ∧ y0 ≤ y ∧ y < y0 + n) &&
    (s.readByte (s.i.toNat + (y - y0))).getLsbD (7 - (x - x0))

/-- The six instructions whose meaning reads `COMPAT_MODE` (00_scope.md R2), by mnemonic. -/
def modeDependent : List String := ["8XY6", "8XYE", "BNNN", "FX1E", "FX55", "FX65"]

/-- `PC` after the execute phase of an instruction that raises no fault, for `s.pc = A + 2` (the table of 10_state.md R27). -/
def pcAfter (i : Instr) (s : State) : Word :=
  match i with
  | .ret => s.stack.headD 0
  | .jp nnn | .call nnn => BitVec.ofNat 16 nnn.toNat
  | .jpOff nnn =>
    match s.cfg.compatMode with
    | .legacyShift => BitVec.ofNat 16 (nnn.toNat + (s.getV 0).toNat)
    | .modernShift => BitVec.ofNat 16 (nnn.toNat + (s.getV (Fin.ofNat 16 (nnn.toNat / 256))).toNat)
  | .seImm x nn => if s.getV x = nn then s.pc + 2 else s.pc
  | .sneImm x nn => if s.getV x = nn then s.pc else s.pc + 2
  | .seReg x y => if s.getV x = s.getV y then s.pc + 2 else s.pc
  | .sneReg x y => if s.getV x = s.getV y then s.pc else s.pc + 2
  | .skp x => if s.keys[Fin.ofNat 16 (s.getV x).toNat] then s.pc + 2 else s.pc
  | .sknp x => if s.keys[Fin.ofNat 16 (s.getV x).toNat] then s.pc else s.pc + 2
  | .waitKey _ => if ∀ k : Key, s.keys[k] = false then s.pc - 2 else s.pc
  | _ => s.pc

/-- The flag of 8XY4 to 8XY7 and 8XYE from the registers before any write (44_nibble8_alu.md R144 to R148). -/
def snapshotFlag (i : Instr) (s : State) : Nat :=
  match i with
  | .addReg x y => if 255 < (s.getV x).toNat + (s.getV y).toNat then 1 else 0
  | .subReg x y => if (s.getV y).toNat ≤ (s.getV x).toNat then 1 else 0
  | .subnReg x y => if (s.getV x).toNat ≤ (s.getV y).toNat then 1 else 0
  | .shrReg x y => (s.getV (shiftSource s.cfg.compatMode x y)).toNat % 2
  | .shlReg x y => (s.getV (shiftSource s.cfg.compatMode x y)).toNat / 128
  | _ => 0

/-- The result of 8XY4 to 8XY7 and 8XYE from the registers before any write. -/
def snapshotResult (i : Instr) (s : State) : Nat :=
  match i with
  | .addReg x y => ((s.getV x).toNat + (s.getV y).toNat) % 256
  | .subReg x y => (256 + (s.getV x).toNat - (s.getV y).toNat) % 256
  | .subnReg x y => (256 + (s.getV y).toNat - (s.getV x).toNat) % 256
  | .shrReg x y => (s.getV (shiftSource s.cfg.compatMode x y)).toNat / 2
  | .shlReg x y => 2 * (s.getV (shiftSource s.cfg.compatMode x y)).toNat % 256
  | _ => 0

/-- The instructions that write both VF and `V[x]`, with destination `x` and second operand `y`. -/
def flagAndResultInstrs (x y : Reg) : List Instr :=
  [.addReg x y, .subReg x y, .shrReg x y, .subnReg x y, .shlReg x y]

/-- The state in which a fault raised in the execute phase of `s` leaves the machine: `PC` is back at `A = s.pc - 2`, the record is
set, nothing else has changed (60_exceptions.md R207). -/
def faulted (s : State) (cause : FaultCause) (opcode : Nat) (info : Nat) : State :=
  (s.setPc (s.pc - 2)).setFault
    (some { cause := cause, pc := s.pc - 2, opcode := some (BitVec.ofNat 16 opcode), info := info })

/-! ## Safe and parked states -/

/-- A state of a safe run: no fault is recorded (60_exceptions.md R208: a faulted state is never a final state of a run). -/
abbrev Safe (s : State) : Prop := s.fault = none

/-- A parked state (70_reset_and_hazards.md R252): the word at `PC` is a jump to itself. -/
def Parked (s : State) : Prop :=
  s.fault = none ∧ s.lifecycle = .running ∧ s.pc.toNat ≤ 4094 ∧ (fetchWord s).toNat = 0x1000 + s.pc.toNat

/-! ## The invariant -/

/-- A recorded fault tells what the state still shows (60_exceptions.md R201 to R207): `PC` is the faulting address, the instruction word
is absent for a fetch fault alone, and `info` is the cause's integer. -/
def FaultRecord.Describes (r : FaultRecord) (s : State) : Prop :=
  r.pc = s.pc ∧
  match r.cause with
  | .stackOverflow => r.opcode.isSome ∧ r.info = s.cfg.stackCapacity ∧ s.stack.length = s.cfg.stackCapacity
  | .stackUnderflow => r.opcode.isSome ∧ r.info = 0 ∧ s.stack = []
  | .fetchOutOfRange => r.opcode = none ∧ r.info = s.pc.toNat ∧ 4094 < s.pc.toNat
  | .memoryOutOfRange => r.opcode.isSome ∧ 4095 < r.info ∧ s.i.toNat ≤ r.info
  | .keyIndexOutOfRange => r.opcode.isSome ∧ 15 < r.info ∧ r.info < 256

/-- The invariant of the machine: the parameters meet the spec's constraints (00_scope.md R6, R9), memory is in canonical form, the
stack holds at most `STACK_CAPACITY` return addresses (10_state.md R25), each at most 0x1000 (41_nibble1_2_jump_call.md R126), `PC` is at most
0x10FE (10_state.md R26), and a recorded fault describes the state. -/
structure State.Inv (s : State) : Prop where
  config : s.cfg.WellFormed
  memory : Memory.wf (loadImage s.cfg) s.mem = true
  stackBound : s.stack.length ≤ s.cfg.stackCapacity
  returnAddresses : ∀ w ∈ s.stack, w.toNat ≤ 0x1000
  pcBound : s.pc.toNat ≤ 0x10FE
  faultRecord : ∀ r, s.fault = some r → r.Describes s

end Sys2Proof.Machine
end

