-- ==== Sys2Proof/Certificates/Slice0/Obligations.lean ====
section
/-! DEFINITION. The statements for the provers. Each docstring names the rule of spec/ it formalises. `exec` runs after the fetch
has advanced `PC` (30_encoding.md R97), so in a statement about `exec i s` the word `s.pc` is `A + 2`, `A` being the address of the
instruction: `t.pc = s.pc` says `PC = A + 2`, `s.pc + 2` is `A + 4` and `s.pc - 2` is `A` (log 1). -/

open Sys2Proof Sys2Proof.Machine

/-! ## Encoding -/

/-- No bit of an encoding is dropped (30_encoding.md sections 1 and 3): every well-formed instruction is decoded from its word, and from
that word's two bytes with the high byte first. -/
def Obligations.DecodeOfEncodeIsTheInstruction : Prop :=
  ∀ i : Instr, i.wellFormed = true →
    decodeWord (encode i) = i ∧ decodeBytes [highByte (encode i), lowByte (encode i)] = .ok (i, [])

/-- Every word has one meaning (30_encoding.md section 3): it decodes to a well-formed instruction that is encoded as that word. -/
def Obligations.EncodeOfDecodeIsTheWord : Prop :=
  ∀ w : Word, (decodeWord w).wellFormed = true ∧ encode (decodeWord w) = w

/-- The masks and matches of the table of 30_encoding.md section 3: a word satisfies a row's condition exactly when it decodes to that
row's instruction. The exact literal digits are the spec's decision D2. -/
def Obligations.DecodeFollowsMaskAndMatch : Prop :=
  opcodeTable.length = 34 ∧
  ∀ (w : Word) (row : OpcodeRow), row ∈ opcodeTable →
    (w &&& row.mask = row.bits ↔ (decodeWord w).mnemonic = row.mnemonic)

/-- The unassigned spaces of 30_encoding.md section 3, by their conditions. -/
def Obligations.UnassignedSpacesByFamily : Prop :=
  ∀ w : Word,
    ((decodeWord w).mnemonic = "UNASSIGNED_0" ↔ w.toNat / 4096 = 0 ∧ w.toNat ≠ 0x00E0 ∧ w.toNat ≠ 0x00EE) ∧
    ((decodeWord w).mnemonic = "UNASSIGNED_5" ↔ w.toNat / 4096 = 5 ∧ w.toNat % 16 ≠ 0) ∧
    ((decodeWord w).mnemonic = "UNASSIGNED_8" ↔
      w.toNat / 4096 = 8 ∧ w.toNat % 16 ∈ [0x8, 0x9, 0xA, 0xB, 0xC, 0xD, 0xF]) ∧
    ((decodeWord w).mnemonic = "UNASSIGNED_9" ↔ w.toNat / 4096 = 9 ∧ w.toNat % 16 ≠ 0) ∧
    ((decodeWord w).mnemonic = "UNASSIGNED_E" ↔ w.toNat / 4096 = 0xE ∧ w.toNat % 256 ∉ [0x9E, 0xA1]) ∧
    ((decodeWord w).mnemonic = "UNASSIGNED_F" ↔
      w.toNat / 4096 = 0xF ∧ w.toNat % 256 ∉ [0x07, 0x0A, 0x15, 0x18, 0x1E, 0x29, 0x33, 0x55, 0x65])

/-- Words written out from the encodings of the spec decode to the instructions they stand for (a sanity statement). -/
def Obligations.WrittenOutWordsDecode : Prop :=
  decodeBytes [0x00, 0xE0] = .ok (.cls, []) ∧
  decodeBytes [0x12, 0x04] = .ok (.jp 0x204, []) ∧
  decodeBytes [0x6A, 0x05] = .ok (.ldImm 0xA 0x05, []) ∧
  decodeBytes [0x80, 0x1E] = .ok (.shlReg 0 1, []) ∧
  decodeBytes [0xB2, 0x12] = .ok (.jpOff 0x212, []) ∧
  decodeBytes [0xD0, 0x13] = .ok (.drw 0 1 3, []) ∧
  decodeBytes [0xE3, 0xA1] = .ok (.sknp 3, []) ∧
  decodeBytes [0xF2, 0x65] = .ok (.loadRegs 2, []) ∧
  decodeBytes [0x01, 0xE0] = .ok (.unassigned0 0x1E0, [])

/-! ## The step -/

/-- The step cycle (30_encoding.md section 4): when the two bytes at `PC`, big-endian, decode to `i`, an enabled step is `exec` of `i` after
`PC` has been advanced by 2. -/
def Obligations.StepRunsTheDecodedInstruction : Prop :=
  ∀ (s : State) (i : Instr), s.lifecycle = .running → s.fault = none → s.pc.toNat ≤ 4094 →
    decodeWord (BitVec.ofNat 16
      ((s.readByte s.pc.toNat).toNat * 256 + (s.readByte (s.pc.toNat + 1)).toNat)) = i →
    step s = exec i (s.setPc (BitVec.ofNat 16 (s.pc.toNat + 2)))

/-- The two steps that run no instruction: a step that is not enabled changes nothing (the spec's decision D6; log 2), and a fetch with `PC > 4094` raises
FetchOutOfRange and changes nothing but the record (the spec's decision D8). -/
def Obligations.StepsThatRunNoInstruction : Prop :=
  ∀ s : State,
    (s.lifecycle ≠ .running ∨ s.fault ≠ none → step s = .next s) ∧
    (s.lifecycle = .running → s.fault = none → 4094 < s.pc.toNat →
      step s = .next (s.setFault
        (some { cause := .fetchOutOfRange, pc := s.pc, opcode := none, info := s.pc.toNat })))

/-- Nothing stops the model: every instruction, assigned or not, and every step answers a next state (30_encoding.md section 3: the table is
closed and every other word is a no-op; a fault is a next state, log 2). -/
def Obligations.EveryStepAnswersANextState : Prop :=
  (∀ (i : Instr) (s : State), ∃ t, exec i s = .next t) ∧ ∀ s : State, ∃ t, step s = .next t

/-- Faults are precise (60_exceptions.md section 1; the spec's decision D5): a step that records a fault changes nothing but the record, whose
address is `PC` and whose instruction word is the fetched word, absent for a fetch that is out of range (D8). -/
def Obligations.FaultingStepChangesOnlyTheRecord : Prop :=
  ∀ s t : State, s.fault = none → step s = .next t → t.fault ≠ none →
    ∃ (cause : FaultCause) (info : Nat), t = s.setFault (some {
      cause := cause
      pc := s.pc
      opcode := if 4094 < s.pc.toNat then none else some (fetchWord s)
      info := info })

/-- Which instruction raises which fault, when, and with which code and information (60_exceptions.md section 1, the table of causes). That the stack
faults are raised is the spec's decision D4, MemoryOutOfRange D7 and D20, KeyIndexOutOfRange D11, the codes D22; that a fault is a next state is log 2. -/
def Obligations.FaultCausesByInstruction : Prop :=
  ∀ (i : Instr) (s t : State) (r : FaultRecord), s.fault = none → exec i s = .next t → t.fault = some r →
    (r.cause.code = 1 ∧ (∃ nnn, i = .call nnn) ∧ s.cfg.stackCapacity ≤ s.stack.length ∧ r.info = s.stack.length) ∨
    (r.cause.code = 2 ∧ i = .ret ∧ s.stack = [] ∧ r.info = 0) ∨
    (r.cause.code = 4 ∧
      ((∃ x y n, i = .drw x y n ∧ 0 < min n.val (32 - (s.getV y).toNat % 32) ∧
          4096 < s.i.toNat + min n.val (32 - (s.getV y).toNat % 32)) ∨
        (∃ x, i = .bcd x ∧ 4095 < s.i.toNat + 2) ∨
        ∃ x : Reg, (i = .storeRegs x ∨ i = .loadRegs x) ∧ 4095 < s.i.toNat + x.val) ∧
      r.info = max s.i.toNat 4096) ∨
    (r.cause.code = 5 ∧ ∃ x, (i = .skp x ∨ i = .sknp x) ∧ 15 < (s.getV x).toNat ∧ r.info = (s.getV x).toNat)

/-- A recorded fault stays until `load` or `reset` (60_exceptions.md section 1; the spec's decision D6): no step and no other operation of the
environment changes it. -/
def Obligations.FaultStaysUntilLoadOrReset : Prop :=
  ∀ (s : State) (r : FaultRecord), s.fault = some r →
    step s = .next s ∧
    ∀ op : HostOp, (∀ src mode fill, op ≠ .load src mode fill) → op ≠ .reset → (applyHostOp op s).fault = some r

/-- A word that matches no row of the table is a no-op (30_encoding.md section 3): its step advances `PC` by 2 and does nothing else; and each of
the six kinds of unassigned instruction executes as nothing. -/
def Obligations.UnassignedWordIsANoOp : Prop :=
  (∀ s : State, s.lifecycle = .running → s.fault = none → s.pc.toNat ≤ 4094 →
    (∀ row ∈ opcodeTable, fetchWord s &&& row.mask ≠ row.bits) →
    step s = .next (s.setPc (BitVec.ofNat 16 (s.pc.toNat + 2)))) ∧
  ∀ (s : State) (nnn : Addr) (x y : Reg) (n : Nibble) (nn : Byte),
    exec (.unassigned0 nnn) s = .next s ∧ exec (.unassigned5 x y n) s = .next s ∧
    exec (.unassigned8 x y n) s = .next s ∧ exec (.unassigned9 x y n) s = .next s ∧
    exec (.unassignedE x nn) s = .next s ∧ exec (.unassignedF x nn) s = .next s

/-! ## The invariant -/

/-- The invariant holds at reset. `State.reset` rests on the values of log 4 to 8. -/
def Obligations.InvariantHoldsAtReset : Prop := State.reset.Inv

/-- Every step keeps the invariant: the parameters are within the spec's constraints (00_scope.md section 4), memory stays in canonical form (the model's
own form of memory, log 7), the stack within its capacity with return addresses at most 0x1000 (10_state.md section 4, 41_nibble1_2_jump_call.md), `PC` at
most 0x10FE (10_state.md section 4; the spec's decision D9), and a recorded fault still describes the state in its address, word and information
(60_exceptions.md section 1; the spec's decisions D5 and D6, log 2). -/
def Obligations.EveryStepKeepsTheInvariant : Prop :=
  ∀ s t : State, s.Inv → step s = .next t → t.Inv

/-- Every operation of the environment keeps the invariant (60_exceptions.md sections 4 to 6, 70_reset_and_hazards.md section 1). The canonical form of memory
is the model's own (log 7); what `reset` restores and which pairs of operation and lifecycle act are the spec's decisions D17, D18 and D25, and that `set_key` and
`clear_draw_pending` act in every lifecycle is log 13. -/
def Obligations.HostOperationsKeepTheInvariant : Prop :=
  ∀ (op : HostOp) (s : State), s.Inv → (applyHostOp op s).Inv

/-! ## Rules over all instructions -/

/-- Who writes what, for each field of the state (10_state.md sections 1 to 6 and 9, 20_memory.md section 1 and the families' files): no instruction
changes the keys, the lifecycle or the configuration, and each other field is changed by the instructions listed alone. `PC` is listed for an instruction that leaves no
fault recorded; with one it is the address of the instruction. Which instructions record a fault rests on the spec's decisions D4, D5, D7 and D11 (log 2). The
last clause is about `draws`, the model's own counter of random draws, which the spec does not have (log 9). -/
def Obligations.EachStateIsWrittenByItsInstructions : Prop :=
  ∀ (i : Instr) (s t : State), exec i s = .next t →
    t.keys = s.keys ∧ t.lifecycle = s.lifecycle ∧ t.cfg = s.cfg ∧
    (∀ r, t.getV r ≠ s.getV r →
      (∃ nn, i = .ldImm r nn ∨ i = .addImm r nn ∨ i = .rnd r nn) ∨
      (∃ y, i = .ldReg r y ∨ i = .orReg r y ∨ i = .andReg r y ∨ i = .xorReg r y ∨ i ∈ flagAndResultInstrs r y) ∨
      i = .ldVxDt r ∨ i = .waitKey r ∨ (∃ x, r ≤ x ∧ i = .loadRegs x) ∨
      r = regF ∧ ((∃ x y, i ∈ flagAndResultInstrs x y) ∨ (∃ x y n, i = .drw x y n) ∨ ∃ x, i = .addI x)) ∧
    (t.pc ≠ s.pc → t.fault = none →
      i = .ret ∨ (∃ nnn, i = .jp nnn ∨ i = .call nnn ∨ i = .jpOff nnn) ∨
      (∃ x nn, i = .seImm x nn ∨ i = .sneImm x nn) ∨ (∃ x y, i = .seReg x y ∨ i = .sneReg x y) ∨
      ∃ x, i = .skp x ∨ i = .sknp x ∨ i = .waitKey x) ∧
    (t.fault ≠ s.fault →
      i = .ret ∨ (∃ nnn, i = .call nnn) ∨ (∃ x y n, i = .drw x y n) ∨
      ∃ x, i = .bcd x ∨ i = .storeRegs x ∨ i = .loadRegs x ∨ i = .skp x ∨ i = .sknp x) ∧
    (t.display ≠ s.display → i = .cls ∨ ∃ x y n, i = .drw x y n) ∧
    (t.drawPending ≠ s.drawPending → ∃ x y n, i = .drw x y n) ∧
    (t.dt ≠ s.dt → ∃ x, i = .ldDt x) ∧
    (t.st ≠ s.st → ∃ x, i = .ldSt x) ∧
    (t.stack ≠ s.stack → i = .ret ∨ ∃ nnn, i = .call nnn) ∧
    (t.i ≠ s.i → (∃ nnn, i = .ldI nnn) ∨ ∃ x, i = .addI x ∨ i = .ldFont x ∨ i = .storeRegs x ∨ i = .loadRegs x) ∧
    (∀ a, t.readByte a ≠ s.readByte a → ∃ x, i = .bcd x ∨ i = .storeRegs x) ∧
    (t.draws ≠ s.draws → ∃ x nn, i = .rnd x nn)

/-- The writers of VF (10_state.md section 2): VF changes only by a flag-writing instruction, by FX1E in ModernShift, or as the named destination
`X = F`. -/
def Obligations.FlagIsWrittenByItsInstructions : Prop :=
  ∀ (i : Instr) (s t : State), exec i s = .next t → t.getV regF ≠ s.getV regF →
    (∃ x y, i ∈ flagAndResultInstrs x y) ∨ (∃ x y n, i = .drw x y n) ∨
    (s.cfg.compatMode = .modernShift ∧ ∃ x, i = .addI x) ∨
    (∃ nn, i = .ldImm regF nn ∨ i = .addImm regF nn ∨ i = .rnd regF nn) ∨
    (∃ y, i = .ldReg regF y ∨ i = .orReg regF y ∨ i = .andReg regF y ∨ i = .xorReg regF y) ∨
    i = .ldVxDt regF ∨ i = .waitKey regF ∨ i = .loadRegs regF

/-- How each instruction leaves `PC` (the table of 10_state.md section 4), for every instruction: `pcAfter` without a fault, the address of the
instruction with one. That `PC` is `A` after a fault is the spec's decision D5 (log 2); that `PC` is 16 bits and not masked, for BNNN above all, is D9. -/
def Obligations.PcAfterEveryInstruction : Prop :=
  ∀ (i : Instr) (s t : State), s.fault = none → exec i s = .next t →
    (t.fault = none → t.pc = pcAfter i s) ∧ (t.fault ≠ none → t.pc = s.pc - 2)

/-- The compatibility mode never changes decoding, and only six instructions read it: in another mode the same word is fetched and decoded,
and any other instruction does the same (30_encoding.md R102). -/
def Obligations.OnlySixInstructionsReadTheMode : Prop :=
  ∀ (s : State) (m : CompatMode),
    decodeWord (fetchWord (s.withMode m)) = decodeWord (fetchWord s) ∧
    ∀ (i : Instr) (t : State), i.mnemonic ∉ modeDependent → exec i s = .next t →
      exec i (s.withMode m) = .next (t.withMode m)

/-- Mode-neutral uses of the six (70_reset_and_hazards.md section 3): a shift with `X = Y`, and a jump with offset with `NNN[11:8] = 0`, do the
same in both modes. -/
def Obligations.ModeNeutralUses : Prop :=
  ∀ (s : State) (m : CompatMode),
    (∀ x : Reg, ∃ t u, exec (.shrReg x x) s = .next t ∧ exec (.shrReg x x) (s.withMode m) = .next (t.withMode m) ∧
      exec (.shlReg x x) s = .next u ∧ exec (.shlReg x x) (s.withMode m) = .next (u.withMode m)) ∧
    ∀ nnn : Addr, nnn.toNat < 0x100 →
      ∃ t, exec (.jpOff nnn) s = .next t ∧ exec (.jpOff nnn) (s.withMode m) = .next (t.withMode m)

/-- A step from a parked state leaves the whole state unchanged (70_reset_and_hazards.md section 5; the convention is the spec's decision D24). -/
def Obligations.ParkedStateIsAFixedPoint : Prop := ∀ s : State, Parked s → step s = .next s

/-! ## Families 0, 1 and 2 -/

/-- 00E0 (40_nibble0_cls_ret.md): all 2048 cells off; `draw_pending` is not changed, which is the spec's decision D15. -/
def Obligations.ClearTurnsEveryCellOff : Prop :=
  Encodes 0x00E0 .cls ∧
  ∀ s : State, ∃ t, exec .cls s = .next t ∧ (∀ k < 2048, displayCell t.display k = false) ∧ t.pc = s.pc ∧
    Frame { display := true } s t

/-- 00EE (40_nibble0_cls_ret.md): pops the return address; an empty stack raises StackUnderflow and changes nothing else (the spec's decisions D4, D5). -/
def Obligations.ReturnPopsTheStack : Prop :=
  Encodes 0x00EE .ret ∧
  ∀ s : State,
    (∀ (w : Word) (rest : List Word), s.stack = w :: rest →
      ∃ t, exec .ret s = .next t ∧ t.pc = w ∧ t.stack = rest ∧ Frame { stack := true } s t) ∧
    (s.stack = [] → exec .ret s = .next (faulted s .stackUnderflow 0x00EE 0))

/-- 1NNN (41_nibble1_2_jump_call.md): `PC` becomes `NNN`, nothing else changes, whatever `NNN` is; a jump to its own address leaves the state before the step. -/
def Obligations.JumpSetsPc : Prop :=
  ∀ nnn : Addr, Encodes (0x1000 + nnn.toNat) (.jp nnn) ∧
    ∀ s : State, exec (.jp nnn) s = .next (s.setPc (BitVec.ofNat 16 nnn.toNat)) ∧
      (s.pc.toNat = nnn.toNat → exec (.jp nnn) (s.setPc (s.pc + 2)) = .next s)

/-- 2NNN (41_nibble1_2_jump_call.md): pushes `A + 2` and jumps; a full stack raises StackOverflow and changes nothing else (the spec's decisions D4,
D5). -/
def Obligations.CallPushesTheReturnAddress : Prop :=
  ∀ nnn : Addr, Encodes (0x2000 + nnn.toNat) (.call nnn) ∧
    ∀ s : State,
      (s.stack.length < s.cfg.stackCapacity →
        ∃ t, exec (.call nnn) s = .next t ∧ t.pc.toNat = nnn.toNat ∧ t.stack = s.pc :: s.stack ∧
          Frame { stack := true } s t) ∧
      (s.cfg.stackCapacity ≤ s.stack.length →
        exec (.call nnn) s = .next (faulted s .stackOverflow (0x2000 + nnn.toNat) s.stack.length))

/-! ## Skips -/

/-- 3XNN and 4XNN (R130, R131): skip if `V[X]` equals, differs from `NN`; nothing but `PC` is written. -/
def Obligations.SkipsOnAnImmediate : Prop :=
  ∀ (x : Reg) (nn : Byte),
    Encodes (0x3000 + 0x100 * x.val + nn.toNat) (.seImm x nn) ∧
    Encodes (0x4000 + 0x100 * x.val + nn.toNat) (.sneImm x nn) ∧
    ∀ s : State,
      exec (.seImm x nn) s = .next (if s.getV x = nn then s.setPc (s.pc + 2) else s) ∧
      exec (.sneImm x nn) s = .next (if s.getV x = nn then s else s.setPc (s.pc + 2))

/-- 5XY0 and 9XY0 (R132, R150): skip if `V[X]` equals, differs from `V[Y]`; `X = Y` always skips, never skips; nothing but `PC` is written; a low nibble other
than 0 is not these instructions: those words are no-ops that never skip. -/
def Obligations.SkipsOnTwoRegisters : Prop :=
  ∀ x y : Reg,
    Encodes (0x5000 + 0x100 * x.val + 0x10 * y.val) (.seReg x y) ∧
    Encodes (0x9000 + 0x100 * x.val + 0x10 * y.val) (.sneReg x y) ∧
    (∀ n : Nibble, n ≠ 0 →
      Encodes (0x5000 + 0x100 * x.val + 0x10 * y.val + n.val) (.unassigned5 x y n) ∧
      Encodes (0x9000 + 0x100 * x.val + 0x10 * y.val + n.val) (.unassigned9 x y n) ∧
      ∀ s : State, exec (.unassigned5 x y n) s = .next s ∧ exec (.unassigned9 x y n) s = .next s) ∧
    ∀ s : State,
      exec (.seReg x y) s = .next (if s.getV x = s.getV y then s.setPc (s.pc + 2) else s) ∧
      exec (.sneReg x y) s = .next (if s.getV x = s.getV y then s else s.setPc (s.pc + 2)) ∧
      (x = y → exec (.seReg x y) s = .next (s.setPc (s.pc + 2)) ∧ exec (.sneReg x y) s = .next s)

/-! ## Families 6, 7 and 8 -/

/-- 6XNN (R135). -/
def Obligations.LoadImmediateSetsTheRegister : Prop :=
  ∀ (x : Reg) (nn : Byte), Encodes (0x6000 + 0x100 * x.val + nn.toNat) (.ldImm x nn) ∧
    ∀ s : State, ∃ t, exec (.ldImm x nn) s = .next t ∧ t.getV x = nn ∧ t.pc = s.pc ∧ Frame (.reg x) s t

/-- 7XNN (R136): the sum modulo 256; VF is written only as the destination `X = F`. -/
def Obligations.AddImmediateWrapsWithoutAFlag : Prop :=
  ∀ (x : Reg) (nn : Byte), Encodes (0x7000 + 0x100 * x.val + nn.toNat) (.addImm x nn) ∧
    ∀ s : State, ∃ t, exec (.addImm x nn) s = .next t ∧
      (t.getV x).toNat = ((s.getV x).toNat + nn.toNat) % 256 ∧ t.pc = s.pc ∧ Frame (.reg x) s t

/-- 8XY0 to 8XY3 (R140 to R143): copy, OR, AND, exclusive OR, bit by bit; VF is not written unless it is the destination; with `X = Y` the first three change
nothing and the last gives 0. -/
def Obligations.CopyAndLogicWriteNoFlag : Prop :=
  ∀ x y : Reg,
    Encodes (0x8000 + 0x100 * x.val + 0x10 * y.val) (.ldReg x y) ∧
    Encodes (0x8001 + 0x100 * x.val + 0x10 * y.val) (.orReg x y) ∧
    Encodes (0x8002 + 0x100 * x.val + 0x10 * y.val) (.andReg x y) ∧
    Encodes (0x8003 + 0x100 * x.val + 0x10 * y.val) (.xorReg x y) ∧
    ∀ s : State,
      (∃ t, exec (.ldReg x y) s = .next t ∧ t.getV x = s.getV y ∧ t.pc = s.pc ∧ Frame (.reg x) s t ∧
        (x = y → t = s)) ∧
      (∃ t, exec (.orReg x y) s = .next t ∧
        (∀ b, (t.getV x).getLsbD b = ((s.getV x).getLsbD b || (s.getV y).getLsbD b)) ∧ t.pc = s.pc ∧
        Frame (.reg x) s t ∧ (x = y → t.getV x = s.getV x)) ∧
      (∃ t, exec (.andReg x y) s = .next t ∧
        (∀ b, (t.getV x).getLsbD b = ((s.getV x).getLsbD b && (s.getV y).getLsbD b)) ∧ t.pc = s.pc ∧
        Frame (.reg x) s t ∧ (x = y → t.getV x = s.getV x)) ∧
      (∃ t, exec (.xorReg x y) s = .next t ∧
        (∀ b, (t.getV x).getLsbD b = ((s.getV x).getLsbD b ^^ (s.getV y).getLsbD b)) ∧ t.pc = s.pc ∧
        Frame (.reg x) s t ∧ (x = y → t.getV x = 0))

/-- 8XY4 (44_nibble8_alu.md): sum modulo 256 and carry. With `X` or `Y` equal to F the values are those of the next two statements (the spec's decision
D1 and the parameter VF_OPERAND_ORDER, log 10); the frame and completion hold for every operand. -/
def Obligations.AddSetsSumAndCarry : Prop :=
  ∀ x y : Reg, Encodes (0x8004 + 0x100 * x.val + 0x10 * y.val) (.addReg x y) ∧
    ∀ s : State, ∃ t, exec (.addReg x y) s = .next t ∧ t.pc = s.pc ∧ Frame (.regAndFlag x) s t ∧
      (x ≠ regF → y ≠ regF →
        (t.getV regF).toNat = (if 255 < (s.getV x).toNat + (s.getV y).toNat then 1 else 0) ∧
        (t.getV x).toNat = ((s.getV x).toNat + (s.getV y).toNat) % 256)

/-- 8XY5 and 8XY7 (44_nibble8_alu.md): difference modulo 256 (for 8XY7 the spec's decision D28) and no-borrow. -/
def Obligations.SubtractSetsDifferenceAndNoBorrow : Prop :=
  ∀ x y : Reg,
    Encodes (0x8005 + 0x100 * x.val + 0x10 * y.val) (.subReg x y) ∧
    Encodes (0x8007 + 0x100 * x.val + 0x10 * y.val) (.subnReg x y) ∧
    ∀ s : State,
      (∃ t, exec (.subReg x y) s = .next t ∧ t.pc = s.pc ∧ Frame (.regAndFlag x) s t ∧
        (x ≠ regF → y ≠ regF →
          (t.getV regF).toNat = (if (s.getV y).toNat ≤ (s.getV x).toNat then 1 else 0) ∧
          (t.getV x).toNat = (256 + (s.getV x).toNat - (s.getV y).toNat) % 256)) ∧
      (∃ t, exec (.subnReg x y) s = .next t ∧ t.pc = s.pc ∧ Frame (.regAndFlag x) s t ∧
        (x ≠ regF → y ≠ regF →
          (t.getV regF).toNat = (if (s.getV x).toNat ≤ (s.getV y).toNat then 1 else 0) ∧
          (t.getV x).toNat = (256 + (s.getV y).toNat - (s.getV x).toNat) % 256))

/-- 8XY6 and 8XYE (44_nibble8_alu.md): a logical shift by one of `V[Y]` (LegacyShift) or `V[X]` (ModernShift), VF the bit shifted out. In ModernShift `V[Y]`
plays no part, so `Y = F` is an ordinary operand there. -/
def Obligations.ShiftsByOneFollowTheMode : Prop :=
  ∀ x y : Reg,
    Encodes (0x8006 + 0x100 * x.val + 0x10 * y.val) (.shrReg x y) ∧
    Encodes (0x800E + 0x100 * x.val + 0x10 * y.val) (.shlReg x y) ∧
    ∀ s : State,
      (∃ t, exec (.shrReg x y) s = .next t ∧ t.pc = s.pc ∧ Frame (.regAndFlag x) s t ∧
        (s.cfg.compatMode = .legacyShift → x ≠ regF → y ≠ regF →
          (t.getV regF).toNat = (s.getV y).toNat % 2 ∧ (t.getV x).toNat = (s.getV y).toNat / 2) ∧
        (s.cfg.compatMode = .modernShift → x ≠ regF →
          (t.getV regF).toNat = (s.getV x).toNat % 2 ∧ (t.getV x).toNat = (s.getV x).toNat / 2)) ∧
      (∃ t, exec (.shlReg x y) s = .next t ∧ t.pc = s.pc ∧ Frame (.regAndFlag x) s t ∧
        (s.cfg.compatMode = .legacyShift → x ≠ regF → y ≠ regF →
          (t.getV regF).toNat = (s.getV y).toNat / 128 ∧ (t.getV x).toNat = 2 * (s.getV y).toNat % 256) ∧
        (s.cfg.compatMode = .modernShift → x ≠ regF →
          (t.getV regF).toNat = (s.getV x).toNat / 128 ∧ (t.getV x).toNat = 2 * (s.getV x).toNat % 256))

/-- VF as an operand of the flag-writing instructions under the order Sequential: the table of 44_nibble8_alu.md (R149), case by case. The order is the spec's
decision D1. -/
def Obligations.FlagAsOperandSequential : Prop :=
  ∀ (s t : State) (x y : Reg), s.cfg.vfOrder = .sequential →
    let vf := (s.getV regF).toNat
    let vx := (s.getV x).toNat
    let vy := (s.getV y).toNat
    let flag (p : Prop) [Decidable p] : Nat := if p then 1 else 0
    (exec (.addReg x y) s = .next t →
      (x ≠ regF → y = regF → (t.getV x).toNat = (vx + vf) % 256 ∧ (t.getV regF).toNat = flag (255 < vx + vf)) ∧
      (x = regF → y ≠ regF → (t.getV regF).toNat = (vf + vy) % 256) ∧
      (x = regF → y = regF → (t.getV regF).toNat = 2 * vf % 256)) ∧
    (exec (.subReg x y) s = .next t →
      (x ≠ regF → y = regF →
        (t.getV x).toNat = (256 + vx - flag (vf ≤ vx)) % 256 ∧ (t.getV regF).toNat = flag (vf ≤ vx)) ∧
      (x = regF → y ≠ regF → (t.getV regF).toNat = (256 + flag (vy ≤ vf) - vy) % 256) ∧
      (x = regF → y = regF → (t.getV regF).toNat = 0)) ∧
    (exec (.subnReg x y) s = .next t →
      (x ≠ regF → y = regF →
        (t.getV x).toNat = (256 + flag (vx ≤ vf) - vx) % 256 ∧ (t.getV regF).toNat = flag (vx ≤ vf)) ∧
      (x = regF → y ≠ regF → (t.getV regF).toNat = (256 + vy - flag (vf ≤ vy)) % 256) ∧
      (x = regF → y = regF → (t.getV regF).toNat = 0)) ∧
    (exec (.shrReg x y) s = .next t →
      (s.cfg.compatMode = .legacyShift →
        (x ≠ regF → y = regF → (t.getV x).toNat = 0 ∧ (t.getV regF).toNat = vf % 2) ∧
        (x = regF → y ≠ regF → (t.getV regF).toNat = vy / 2) ∧
        (x = regF → y = regF → (t.getV regF).toNat = 0)) ∧
      (s.cfg.compatMode = .modernShift → x = regF → (t.getV regF).toNat = 0)) ∧
    (exec (.shlReg x y) s = .next t →
      (s.cfg.compatMode = .legacyShift →
        (x ≠ regF → y = regF → (t.getV x).toNat = 2 * (vf / 128) ∧ (t.getV regF).toNat = vf / 128) ∧
        (x = regF → y ≠ regF → (t.getV regF).toNat = 2 * vy % 256) ∧
        (x = regF → y = regF → (t.getV regF).toNat = 2 * (vf / 128))) ∧
      (s.cfg.compatMode = .modernShift → x = regF → (t.getV regF).toNat = 2 * (vf / 128)))

/-- VF as an operand under the two snapshot orders (93_implementation_defined.md U9): operands are read once; flag first loses the flag when `X = F`, flag last
always leaves the flag in VF. The two orders are offered by the spec as a parameter (log 10). -/
def Obligations.FlagAsOperandSnapshot : Prop :=
  ∀ (s : State) (x y : Reg) (i : Instr), i ∈ flagAndResultInstrs x y → s.cfg.vfOrder ≠ .sequential →
    ∃ t, exec i s = .next t ∧
      (x ≠ regF → (t.getV regF).toNat = snapshotFlag i s ∧ (t.getV x).toNat = snapshotResult i s) ∧
      (x = regF → s.cfg.vfOrder = .snapshotFlagFirst → (t.getV regF).toNat = snapshotResult i s) ∧
      (x = regF → s.cfg.vfOrder = .snapshotFlagLast → (t.getV regF).toNat = snapshotFlag i s)

/-! ## Families A, B and C -/

/-- ANNN (R151). -/
def Obligations.LoadIndexSetsI : Prop :=
  ∀ nnn : Addr, Encodes (0xA000 + nnn.toNat) (.ldI nnn) ∧
    ∀ s : State, ∃ t, exec (.ldI nnn) s = .next t ∧ t.i.toNat = nnn.toNat ∧ t.pc = s.pc ∧ Frame { i := true } s t

/-- BNNN (45_nibble9_A_B_C.md): the register added is `V[0]` in LegacyShift, `V[NNN[11:8]]` in ModernShift; `PC` is not masked (the spec's decision D9), and nothing
else changes. -/
def Obligations.JumpWithOffsetFollowsTheMode : Prop :=
  ∀ nnn : Addr, Encodes (0xB000 + nnn.toNat) (.jpOff nnn) ∧
    ∀ s : State, ∃ p : Word, exec (.jpOff nnn) s = .next (s.setPc p) ∧
      (s.cfg.compatMode = .legacyShift → p.toNat = nnn.toNat + (s.getV 0).toNat) ∧
      (s.cfg.compatMode = .modernShift → ∀ x : Reg, x.val = nnn.toNat / 256 →
        p.toNat = nnn.toNat + (s.getV x).toNat)

/-- CXNN (45_nibble9_A_B_C.md): the result is some random byte ANDed with `NN`, the next draw is another one; nothing is said of the byte itself (the spec's decision D12;
the counter of draws is the model's own field, log 9). -/
def Obligations.RandomByteIsMasked : Prop :=
  ∀ (x : Reg) (nn : Byte), Encodes (0xC000 + 0x100 * x.val + nn.toNat) (.rnd x nn) ∧
    ∀ s : State, ∃ t, exec (.rnd x nn) s = .next t ∧ t.getV x = Config.randomByte s.draws &&& nn ∧
      t.getV x &&& ~~~nn = 0 ∧ t.draws = s.draws + 1 ∧ t.pc = s.pc ∧
      Frame { regs := fun r => r = x, draws := true } s t

/-! ## Family D -/

/-- DXYN, pixel by pixel (46_nibbleD_draw.md): when every row drawn lies inside memory, each of the 2048 cells is XORed with the sprite bit that falls on it, clipped and
not wrapped, from the anchor `(V[X] mod 64, V[Y] mod 32)`; VF is 1 if a cell that was on had a sprite bit of 1, else 0; `draw_pending` is set; nothing else changes. The rows
read are the spec's decision D20, and that `draw_pending` is set on every execution is D15. -/
def Obligations.DrawXorsEachPixel : Prop :=
  ∀ (x y : Reg) (n : Nibble),
    Encodes (0xD000 + 0x100 * x.val + 0x10 * y.val + n.val) (.drw x y n) ∧
    ∀ s : State,
      let x0 := (s.getV x).toNat % 64
      let y0 := (s.getV y).toNat % 32
      min n.val (32 - y0) = 0 ∨ s.i.toNat + min n.val (32 - y0) ≤ 4096 →
      ∃ t, exec (.drw x y n) s = .next t ∧
        (∀ col row, col < 64 → row < 32 → displayCell t.display (row * 64 + col) =
          (displayCell s.display (row * 64 + col) ^^ spritePixel s x0 y0 n.val col row)) ∧
        ((∃ col row, col < 64 ∧ row < 32 ∧ spritePixel s x0 y0 n.val col row = true ∧
            displayCell s.display (row * 64 + col) = true) → t.getV regF = 1) ∧
        ((∀ col row, col < 64 → row < 32 → spritePixel s x0 y0 n.val col row = true →
            displayCell s.display (row * 64 + col) = false) → t.getV regF = 0) ∧
        t.drawPending = true ∧ t.pc = s.pc ∧
        Frame { regs := fun r => r = regF, display := true, drawPending := true } s t

/-- DXYN faults exactly when a row it reads lies above 4095 (46_nibbleD_draw.md): MemoryOutOfRange with the lowest offending address, and nothing is drawn (the
spec's decisions D5, D7, D20). -/
def Obligations.DrawOutsideMemoryFaults : Prop :=
  ∀ (x y : Reg) (n : Nibble) (s : State),
    0 < min n.val (32 - (s.getV y).toNat % 32) →
    4096 < s.i.toNat + min n.val (32 - (s.getV y).toNat % 32) →
    exec (.drw x y n) s = .next (faulted s .memoryOutOfRange
      (0xD000 + 0x100 * x.val + 0x10 * y.val + n.val) (max s.i.toNat 4096))

/-- Drawing the same sprite twice at the same anchor restores the display (46_nibbleD_draw.md, corner cases); `X` and `Y` are not F, since the first draw writes VF. -/
def Obligations.DrawingTwiceRestoresTheDisplay : Prop :=
  ∀ (x y : Reg) (n : Nibble) (s t : State), x ≠ regF → y ≠ regF → s.fault = none →
    exec (.drw x y n) s = .next t → t.fault = none →
    ∃ u, exec (.drw x y n) t = .next u ∧ u.display = s.display ∧ u.fault = none

/-! ## Families E and F -/

/-- EX9E and EXA1 (47_nibbleE_keys.md): skip on the level of the key `V[X]`; exactly one of the two skips; above 15 both raise KeyIndexOutOfRange and change
nothing else (the spec's decisions D5, D11). -/
def Obligations.KeySkipsTestOneKey : Prop :=
  ∀ x : Reg,
    Encodes (0xE09E + 0x100 * x.val) (.skp x) ∧ Encodes (0xE0A1 + 0x100 * x.val) (.sknp x) ∧
    ∀ s : State,
      (∀ k : Key, k.val = (s.getV x).toNat →
        exec (.skp x) s = .next (if s.keys[k] = true then s.setPc (s.pc + 2) else s) ∧
        exec (.sknp x) s = .next (if s.keys[k] = true then s else s.setPc (s.pc + 2))) ∧
      (15 < (s.getV x).toNat →
        exec (.skp x) s = .next (faulted s .keyIndexOutOfRange (0xE09E + 0x100 * x.val) (s.getV x).toNat) ∧
        exec (.sknp x) s = .next (faulted s .keyIndexOutOfRange (0xE0A1 + 0x100 * x.val) (s.getV x).toNat))

/-- FX07, FX15, FX18 (R180, R182, R183): read the delay timer, which the read does not change; set the delay timer, which then falls by one per tick; set the
sound timer; after FX18 `sound_active` is true exactly while `ST != 0`, and `n` ticks later exactly when `n` is below the value set. No instruction reads `ST`
back: with another value in `ST`, FX18 does exactly the same, and every other instruction does the same and leaves that value alone. -/
def Obligations.TimerInstructionsMoveOneByte : Prop :=
  (∀ x : Reg,
    Encodes (0xF007 + 0x100 * x.val) (.ldVxDt x) ∧ Encodes (0xF015 + 0x100 * x.val) (.ldDt x) ∧
    Encodes (0xF018 + 0x100 * x.val) (.ldSt x) ∧
    ∀ s : State,
      (∃ t, exec (.ldVxDt x) s = .next t ∧ t.getV x = s.dt ∧ t.pc = s.pc ∧ Frame (.reg x) s t) ∧
      (∃ t, exec (.ldDt x) s = .next t ∧ t.dt = s.getV x ∧ t.pc = s.pc ∧ Frame { dt := true } s t ∧
        (s.lifecycle = .running → ∀ n : Nat, (tickTimes n t).dt.toNat = (s.getV x).toNat - n)) ∧
      (∃ t, exec (.ldSt x) s = .next t ∧ t.st = s.getV x ∧ t.pc = s.pc ∧ Frame { st := true } s t ∧
        (soundActive t = true ↔ s.getV x ≠ 0) ∧
        (s.lifecycle = .running → ∀ n : Nat, soundActive (tickTimes n t) = true ↔ n < (s.getV x).toNat))) ∧
  (∀ (x : Reg) (s : State) (b : Byte), exec (.ldSt x) (s.setSt b) = exec (.ldSt x) s) ∧
  ∀ (i : Instr) (s t : State) (b : Byte), (∀ x, i ≠ .ldSt x) → exec i s = .next t →
    exec i (s.setSt b) = .next (t.setSt b)

/-- FX0A (48_nibbleF_misc.md): with every key up, `PC` goes back to `A` and nothing else changes; else `V[X]` is the lowest key down. The test is on levels, the
spec's decision D21. -/
def Obligations.KeyWaitRewindsOrCompletes : Prop :=
  ∀ x : Reg, Encodes (0xF00A + 0x100 * x.val) (.waitKey x) ∧
    ∀ s : State,
      ((∀ k : Key, s.keys[k] = false) → exec (.waitKey x) s = .next (s.setPc (s.pc - 2))) ∧
      (∀ k : Key, s.keys[k] = true → (∀ j : Key, j < k → s.keys[j] = false) →
        ∃ t, exec (.waitKey x) s = .next t ∧ (t.getV x).toNat = k.val ∧ t.pc = s.pc ∧ Frame (.reg x) s t)

/-- FX1E (48_nibbleF_misc.md): the sum modulo 65536; VF is untouched in LegacyShift and tests the stored `I` in ModernShift (the spec's decision D10). -/
def Obligations.AddToIndexFollowsTheMode : Prop :=
  ∀ x : Reg, Encodes (0xF01E + 0x100 * x.val) (.addI x) ∧
    ∀ s : State, ∃ t, exec (.addI x) s = .next t ∧ t.i.toNat = (s.i.toNat + (s.getV x).toNat) % 65536 ∧
      t.pc = s.pc ∧
      (s.cfg.compatMode = .legacyShift → Frame { i := true } s t) ∧
      (s.cfg.compatMode = .modernShift → (t.getV regF).toNat = (if 0xFFF < t.i.toNat then 1 else 0) ∧
        Frame { i := true, regs := fun r => r = regF } s t)

/-- FX29 (48_nibbleF_misc.md): `I = V[X] * 5`, with no nibble mask (the spec's decision D27). -/
def Obligations.FontAddressIsFiveTimesTheDigit : Prop :=
  ∀ x : Reg, Encodes (0xF029 + 0x100 * x.val) (.ldFont x) ∧
    ∀ s : State, ∃ t, exec (.ldFont x) s = .next t ∧ t.i.toNat = 5 * (s.getV x).toNat ∧ t.pc = s.pc ∧
      Frame { i := true } s t

/-- FX33 (48_nibbleF_misc.md): three decimal digits that make up `V[X]`, at `I`, `I+1`, `I+2`; nothing is written when `I + 2 > 4095` (the spec's decisions D5, D7). -/
def Obligations.DecimalDigitsAreStored : Prop :=
  ∀ x : Reg, Encodes (0xF033 + 0x100 * x.val) (.bcd x) ∧
    ∀ s : State,
      (s.i.toNat + 2 ≤ 4095 → ∃ t, exec (.bcd x) s = .next t ∧
        (t.readByte (effectiveAddr s 0)).toNat = (s.getV x).toNat / 100 ∧
        (t.readByte (effectiveAddr s 1)).toNat = (s.getV x).toNat / 10 % 10 ∧
        (t.readByte (effectiveAddr s 2)).toNat = (s.getV x).toNat % 10 ∧
        100 * (t.readByte (effectiveAddr s 0)).toNat + 10 * (t.readByte (effectiveAddr s 1)).toNat +
          (t.readByte (effectiveAddr s 2)).toNat = (s.getV x).toNat ∧
        t.pc = s.pc ∧
        Frame { mem := fun a => effectiveAddr s 0 ≤ a ∧ a ≤ effectiveAddr s 2 } s t) ∧
      (4095 < s.i.toNat + 2 → exec (.bcd x) s =
        .next (faulted s .memoryOutOfRange (0xF033 + 0x100 * x.val) (max s.i.toNat 4096)))

/-- FX55 (48_nibbleF_misc.md): `V[0]` to `V[X]` at `I` to `I + X`; in LegacyShift `I` becomes `I + X + 1`, in ModernShift it is unchanged; nothing is written when
`I + X > 4095` (the spec's decisions D5, D7, D10). -/
def Obligations.StoreRegistersWritesMemory : Prop :=
  ∀ x : Reg, Encodes (0xF055 + 0x100 * x.val) (.storeRegs x) ∧
    ∀ s : State,
      (s.i.toNat + x.val ≤ 4095 → ∃ t, exec (.storeRegs x) s = .next t ∧
        (∀ r : Reg, r ≤ x → t.readByte (effectiveAddr s r.val) = s.getV r) ∧
        (s.cfg.compatMode = .legacyShift → t.i.toNat = s.i.toNat + x.val + 1) ∧
        (s.cfg.compatMode = .modernShift → t.i = s.i) ∧ t.pc = s.pc ∧
        Frame { i := true, mem := fun a => effectiveAddr s 0 ≤ a ∧ a ≤ effectiveAddr s x.val } s t) ∧
      (4095 < s.i.toNat + x.val → exec (.storeRegs x) s =
        .next (faulted s .memoryOutOfRange (0xF055 + 0x100 * x.val) (max s.i.toNat 4096)))

/-- FX65 (48_nibbleF_misc.md): the inverse transfer; registers above `V[X]` are not touched, memory is not changed; nothing is loaded when `I + X > 4095` (the spec's
decisions D5, D7, D10). -/
def Obligations.LoadRegistersReadsMemory : Prop :=
  ∀ x : Reg, Encodes (0xF065 + 0x100 * x.val) (.loadRegs x) ∧
    ∀ s : State,
      (s.i.toNat + x.val ≤ 4095 → ∃ t, exec (.loadRegs x) s = .next t ∧
        (∀ r : Reg, r ≤ x → t.getV r = s.readByte (effectiveAddr s r.val)) ∧
        (s.cfg.compatMode = .legacyShift → t.i.toNat = s.i.toNat + x.val + 1) ∧
        (s.cfg.compatMode = .modernShift → t.i = s.i) ∧ t.pc = s.pc ∧
        Frame { i := true, regs := fun r => r ≤ x } s t) ∧
      (4095 < s.i.toNat + x.val → exec (.loadRegs x) s =
        .next (faulted s .memoryOutOfRange (0xF065 + 0x100 * x.val) (max s.i.toNat 4096)))

/-- FX65 is the inverse of FX55 (48_nibbleF_misc.md): loading, with the same `I`, from any state whose memory reads as the store left it, gives back the registers
that were stored. -/
def Obligations.LoadAfterStoreGivesTheRegistersBack : Prop :=
  ∀ (x : Reg) (s t u w : State), s.i.toNat + x.val ≤ 4095 →
    exec (.storeRegs x) s = .next t → u.i = s.i → (∀ a, u.readByte a = t.readByte a) →
    exec (.loadRegs x) u = .next w → ∀ r : Reg, r ≤ x → w.getV r = s.getV r

/-- A store is seen by the next fetch (20_memory.md section 3): when FX55 stores at the address of the next instruction, the word fetched there is the one just stored. -/
def Obligations.StoreIsSeenByTheNextFetch : Prop :=
  ∀ (x : Reg) (s t : State), 1 ≤ x.val → s.i = s.pc → s.i.toNat + x.val ≤ 4095 →
    exec (.storeRegs x) s = .next t →
    (fetchWord t).toNat = (s.getV 0).toNat * 256 + (s.getV 1).toNat

/-! ## The environment -/

/-- `tick_timers` (60_exceptions.md section 4): while Running each timer falls by one, floored at zero, nothing else changes, and `n` ticks take `n`; outside Running nothing
changes (the spec's decision D18). -/
def Obligations.TicksCountTheTimersDown : Prop :=
  ∀ s : State,
    (s.lifecycle = .running →
      (∀ n : Nat, (tickTimes n s).dt.toNat = s.dt.toNat - n ∧ (tickTimes n s).st.toNat = s.st.toNat - n ∧
        Frame { dt := true, st := true } s (tickTimes n s) ∧ (tickTimes n s).pc = s.pc)) ∧
    (s.lifecycle ≠ .running → tickTimers s = s)

/-- `sound_active` (60_exceptions.md section 4): true exactly when `ST != 0`. -/
def Obligations.SoundFollowsTheTimer : Prop :=
  ∀ s t : State, (soundActive s = true ↔ s.st.toNat ≠ 0) ∧ (s.st = t.st → soundActive s = soundActive t)

/-- `set_key`, `read_display`, `clear_draw_pending` (60_exceptions.md section 5): one key is written; the 2048 cells are read by column and row; the flag is cleared;
nothing else changes. That `set_key` and `clear_draw_pending` act in every lifecycle is the model's reading, log 13 (DEDUCED). -/
def Obligations.KeypadAndRendererOperations : Prop :=
  ∀ s : State,
    (∀ (k : Key) (down : Bool), (setKey k down s).keys[k] = down ∧
      (∀ j : Key, j ≠ k → (setKey k down s).keys[j] = s.keys[j]) ∧
      setKey k down s = s.setKeys (setKey k down s).keys) ∧
    (∀ (col row : Nat) (_ : col < 64) (_ : row < 32),
      (readDisplay s)[row * 64 + col] = pixelOn s.display col row) ∧
    clearDrawPending s = s.setDrawPending false

/-- `load` on success (70_reset_and_hazards.md section 1, 10_state.md section 8): every piece of state has the value of the reset table, whatever it was before. That
`load` is accepted in every lifecycle is the spec's decision D25 (log 20), that it clears `fault` D6, and the values of the memory outside FONT and ROM, of `draw_pending` and of
the keys are D14, D15 and D16. -/
def Obligations.LoadGivesTheResetTable : Prop :=
  ∀ (rom : List Byte) (mode : CompatMode) (fill : List Host.Cell) (s : State), rom.length ≤ 3584 →
    ∃ t, load (.bytes rom) mode fill s = (.ok, t) ∧
      (∀ r, t.getV r = 0) ∧ t.i = 0 ∧ t.pc = 0x200 ∧ t.stack = [] ∧
      (∀ k < 2048, displayCell t.display k = false) ∧ t.drawPending = false ∧ t.dt = 0 ∧ t.st = 0 ∧
      (∀ k : Key, t.keys[k] = false) ∧ t.lifecycle = .running ∧ t.fault = none ∧ t.cfg.compatMode = mode ∧
      t.cfg.stackCapacity = s.cfg.stackCapacity ∧ t.cfg.font = s.cfg.font ∧
      (∀ (a : Nat) (h : a < 80), t.readByte a = s.cfg.font[a]) ∧
      (∀ (k : Nat) (h : k < rom.length), t.readByte (0x200 + k) = rom[k]) ∧
      (∀ a, 80 ≤ a ∧ a < 0x200 ∨ 0x200 + rom.length ≤ a → t.readByte a = lookupCell 0 fill a)

/-- `load` on failure changes nothing (70_reset_and_hazards.md section 1; the spec's decision D25): a ROM of more than 3584 bytes is too large, and a source that cannot
be read is the environment's choice. -/
def Obligations.FailedLoadChangesNothing : Prop :=
  ∀ (mode : CompatMode) (fill : List Host.Cell) (s : State),
    (∀ rom : List Byte, 3584 < rom.length → load (.bytes rom) mode fill s = (.romTooLarge, s)) ∧
    load .unreadable mode fill s = (.romUnreadable, s)

/-- `reset()` (70_reset_and_hazards.md section 1): from Running or Paused it gives what loading the retained ROM again in the same mode gives; with RESET_KEEPS_MEM memory reads as the
run made it; from the other lifecycles it does nothing (the spec's decisions D17, D25). -/
def Obligations.ResetReturnsToTheLoadedState : Prop :=
  ∀ s : State,
    (s.lifecycle = .running ∨ s.lifecycle = .paused → s.cfg.rom.length ≤ 3584 →
      (s.cfg.resetKeepsMem = false →
        load (.bytes s.cfg.rom) s.cfg.compatMode s.cfg.memFill s = (.ok, hostReset s)) ∧
      (s.cfg.resetKeepsMem = true → (∀ a, (hostReset s).readByte a = s.readByte a) ∧
        load (.bytes s.cfg.rom) s.cfg.compatMode s.cfg.memFill s = (.ok, (hostReset s).setMem []))) ∧
    (s.lifecycle = .uninitialized ∨ s.lifecycle = .halted → hostReset s = s)

/-- The lifecycle table (60_exceptions.md section 6): `pause`, `resume` and `quit` change the lifecycle as listed and nothing else, and every other pair changes nothing (the spec's
decision D25); after `quit` and in `Paused` no step and no tick has an effect (D18). -/
def Obligations.LifecycleTable : Prop :=
  ∀ s : State,
    pauseRun s = (if s.lifecycle = .running then s.setLifecycle .paused else s) ∧
    resumeRun s = (if s.lifecycle = .paused then s.setLifecycle .running else s) ∧
    quitRun s = (if s.lifecycle = .running then s.setLifecycle .halted else s) ∧
    (s.lifecycle = .running → step (pauseRun s) = .next (pauseRun s) ∧ tickTimers (pauseRun s) = pauseRun s ∧
      resumeRun (pauseRun s) = s ∧ step (quitRun s) = .next (quitRun s) ∧ tickTimers (quitRun s) = quitRun s)

/-- The entry point (70_reset_and_hazards.md section 1): the first step after a successful `load` or `reset` fetches the word at 0x200 and 0x201. In which lifecycles `load` and
`reset` act is the spec's decision D25, and that both clear `fault` is D6 and D17. -/
def Obligations.FirstStepFetchesAtTheEntryPoint : Prop :=
  ∀ (s : State) (rom : List Byte) (mode : CompatMode) (fill : List Host.Cell) (t : State),
    (load (.bytes rom) mode fill s = (.ok, t) ∨
      (s.lifecycle = .running ∨ s.lifecycle = .paused) ∧ t = hostReset s) →
    step t = exec (decodeWord (BitVec.ofNat 16 ((t.readByte 0x200).toNat * 256 + (t.readByte 0x201).toNat)))
      (t.setPc 0x202)

/-- The state after reset (10_state.md section 8), for the configuration of log 4 to 8: the table's values. Those of `fault`, `draw_pending` and the
keys are the spec's decisions D6, D15 and D16, the capacity is D3. -/
def Obligations.ResetStateValues : Prop :=
  (∀ r, State.reset.getV r = 0) ∧ State.reset.i = 0 ∧ State.reset.pc = 0x200 ∧ State.reset.stack = [] ∧
  (∀ k < 2048, displayCell State.reset.display k = false) ∧ State.reset.drawPending = false ∧
  State.reset.dt = 0 ∧ State.reset.st = 0 ∧ (∀ k : Key, State.reset.keys[k] = false) ∧
  State.reset.lifecycle = .running ∧ State.reset.fault = none ∧ State.reset.mem = [] ∧
  State.reset.cfg.stackCapacity = 48
end

