-- ==== Sys2Proof/Laws/Decode.lean ====
section
/-! SUPPORT. The fields of encoded words, and decoding by family. -/

namespace Sys2Proof

/-! ### Words of each format as numbers -/

theorem wordNNN_toNat {f : Nat} (hf : f < 16) (nnn : Addr) : (wordNNN f nnn).toNat = f * 4096 + nnn.toNat := by
  have := nnn.isLt
  simp only [wordNNN, BitVec.toNat_ofNat]
  omega

theorem wordXNN_toNat {f : Nat} (hf : f < 16) (x : Reg) (nn : Byte) :
    (wordXNN f x nn).toNat = f * 4096 + x.val * 256 + nn.toNat := by
  have := nn.isLt
  simp only [wordXNN, BitVec.toNat_ofNat]
  omega

theorem wordXYN_toNat {f : Nat} (hf : f < 16) (x y : Reg) (n : Nibble) :
    (wordXYN f x y n).toNat = f * 4096 + x.val * 256 + y.val * 16 + n.val := by
  simp only [wordXYN, BitVec.toNat_ofNat]
  omega

/-! ### Fields of those words -/

theorem familyOf_wordNNN {f : Nat} (hf : f < 16) (nnn : Addr) : familyOf (wordNNN f nnn) = f := by
  have := nnn.isLt
  simp only [familyOf, wordNNN_toNat hf]
  omega

theorem familyOf_wordXNN {f : Nat} (hf : f < 16) (x : Reg) (nn : Byte) : familyOf (wordXNN f x nn) = f := by
  have := nn.isLt
  simp only [familyOf, wordXNN_toNat hf]
  omega

theorem familyOf_wordXYN {f : Nat} (hf : f < 16) (x y : Reg) (n : Nibble) : familyOf (wordXYN f x y n) = f := by
  simp only [familyOf, wordXYN_toNat hf]
  omega

theorem fieldNNN_wordNNN {f : Nat} (hf : f < 16) (nnn : Addr) : fieldNNN (wordNNN f nnn) = nnn := by
  have := nnn.isLt
  apply BitVec.eq_of_toNat_eq
  simp only [fieldNNN, wordNNN_toNat hf, BitVec.toNat_ofNat]
  omega

theorem fieldX_wordXNN {f : Nat} (hf : f < 16) (x : Reg) (nn : Byte) : fieldX (wordXNN f x nn) = x := by
  have := nn.isLt
  apply Fin.ext
  simp only [fieldX, wordXNN_toNat hf]
  omega

theorem fieldNN_wordXNN {f : Nat} (hf : f < 16) (x : Reg) (nn : Byte) : fieldNN (wordXNN f x nn) = nn := by
  have := nn.isLt
  apply BitVec.eq_of_toNat_eq
  simp only [fieldNN, wordXNN_toNat hf, BitVec.toNat_ofNat]
  omega

theorem fieldX_wordXYN {f : Nat} (hf : f < 16) (x y : Reg) (n : Nibble) : fieldX (wordXYN f x y n) = x := by
  apply Fin.ext
  simp only [fieldX, wordXYN_toNat hf]
  omega

theorem fieldY_wordXYN {f : Nat} (hf : f < 16) (x y : Reg) (n : Nibble) : fieldY (wordXYN f x y n) = y := by
  apply Fin.ext
  simp only [fieldY, wordXYN_toNat hf]
  omega

theorem fieldN_wordXYN {f : Nat} (hf : f < 16) (x y : Reg) (n : Nibble) : fieldN (wordXYN f x y n) = n := by
  apply Fin.ext
  simp only [fieldN, wordXYN_toNat hf]
  omega

/-! ### A word from its fields -/

/-- A word is its family and `NNN` (R91). -/
theorem word_eq_wordNNN (w : Word) : wordNNN (familyOf w) (fieldNNN w) = w := by
  have := w.isLt
  apply BitVec.eq_of_toNat_eq
  simp only [wordNNN, familyOf, fieldNNN, BitVec.toNat_ofNat]
  omega

/-- A word is its family, `X` and `NN` (R91). -/
theorem word_eq_wordXNN (w : Word) : wordXNN (familyOf w) (fieldX w) (fieldNN w) = w := by
  have := w.isLt
  apply BitVec.eq_of_toNat_eq
  simp only [wordXNN, familyOf, fieldX, fieldNN, BitVec.toNat_ofNat]
  omega

/-- A word is its family, `X`, `Y` and `N` (R91). -/
theorem word_eq_wordXYN (w : Word) : wordXYN (familyOf w) (fieldX w) (fieldY w) (fieldN w) = w := by
  have := w.isLt
  apply BitVec.eq_of_toNat_eq
  simp only [wordXYN, familyOf, fieldX, fieldY, fieldN, BitVec.toNat_ofNat]
  omega

/-- A family is below 16. -/
theorem familyOf_lt (w : Word) : familyOf w < 16 := by
  have := w.isLt
  simp only [familyOf]
  omega

/-! ### Bytes -/

/-- The two bytes of a word make it up again. -/
theorem wordOfBytes_high_low (w : Word) : wordOfBytes (highByte w) (lowByte w) = w := by
  have := w.isLt
  apply BitVec.eq_of_toNat_eq
  simp only [wordOfBytes, highByte, lowByte, BitVec.toNat_ofNat]
  omega

theorem highByte_wordOfBytes (hi lo : Byte) : highByte (wordOfBytes hi lo) = hi := by
  have := hi.isLt
  have := lo.isLt
  apply BitVec.eq_of_toNat_eq
  simp only [wordOfBytes, highByte, BitVec.toNat_ofNat]
  omega

theorem lowByte_wordOfBytes (hi lo : Byte) : lowByte (wordOfBytes hi lo) = lo := by
  have := lo.isLt
  apply BitVec.eq_of_toNat_eq
  simp only [wordOfBytes, lowByte, BitVec.toNat_ofNat]
  omega

/-! ### Decoding a word of a family -/

theorem decodeWord_xyn5 (x y : Reg) (n : Nibble) :
    decodeWord (wordXYN 0x5 x y n) = if n = 0 then .seReg x y else .unassigned5 x y n := by
  simp only [decodeWord, familyOf_wordXYN (f := 5) (by decide), decodeFamily5, fieldN_wordXYN (f := 5) (by decide),
    fieldX_wordXYN (f := 5) (by decide), fieldY_wordXYN (f := 5) (by decide)]

theorem decodeWord_xyn8 (x y : Reg) (n : Nibble) :
    decodeWord (wordXYN 0x8 x y n) = match n.val with
      | 0x0 => .ldReg x y
      | 0x1 => .orReg x y
      | 0x2 => .andReg x y
      | 0x3 => .xorReg x y
      | 0x4 => .addReg x y
      | 0x5 => .subReg x y
      | 0x6 => .shrReg x y
      | 0x7 => .subnReg x y
      | 0xE => .shlReg x y
      | _ => .unassigned8 x y n := by
  simp only [decodeWord, familyOf_wordXYN (f := 8) (by decide), decodeFamily8, fieldN_wordXYN (f := 8) (by decide),
    fieldX_wordXYN (f := 8) (by decide), fieldY_wordXYN (f := 8) (by decide)] <;> rfl

theorem decodeWord_xyn9 (x y : Reg) (n : Nibble) :
    decodeWord (wordXYN 0x9 x y n) = if n = 0 then .sneReg x y else .unassigned9 x y n := by
  simp only [decodeWord, familyOf_wordXYN (f := 9) (by decide), decodeFamily9, fieldN_wordXYN (f := 9) (by decide),
    fieldX_wordXYN (f := 9) (by decide), fieldY_wordXYN (f := 9) (by decide)]

theorem decodeWord_xnnE (x : Reg) (nn : Byte) :
    decodeWord (wordXNN 0xE x nn) =
      if nn = 0x9E then .skp x else if nn = 0xA1 then .sknp x else .unassignedE x nn := by
  simp only [decodeWord, familyOf_wordXNN (f := 0xE) (by decide), decodeFamilyE, fieldNN_wordXNN (f := 0xE) (by decide),
    fieldX_wordXNN (f := 0xE) (by decide)]

theorem decodeWord_xnnF (x : Reg) (nn : Byte) :
    decodeWord (wordXNN 0xF x nn) =
      if nn = 0x07 then .ldVxDt x else if nn = 0x0A then .waitKey x else if nn = 0x15 then .ldDt x
      else if nn = 0x18 then .ldSt x else if nn = 0x1E then .addI x else if nn = 0x29 then .ldFont x
      else if nn = 0x33 then .bcd x else if nn = 0x55 then .storeRegs x else if nn = 0x65 then .loadRegs x
      else .unassignedF x nn := by
  simp only [decodeWord, familyOf_wordXNN (f := 0xF) (by decide), decodeFamilyF, fieldNN_wordXNN (f := 0xF) (by decide),
    fieldX_wordXNN (f := 0xF) (by decide)]

/-! ### The masks of the opcode table (R93) -/

theorem mask_family (w : Word) : (w &&& 0xF000#16).toNat = familyOf w * 4096 := by
  have h : (w &&& 0xF000#16) = (w >>> 12) <<< 12 := by
    ext i hi
    simp only [BitVec.getElem_and, BitVec.getElem_shiftLeft]
    rcases Nat.lt_or_ge i 12 with h | h
    · have : (0xF000#16)[i] = false := by
        interval_cases i <;> simp
      simp [this, h]
    · have : (0xF000#16)[i] = true := by
        interval_cases i <;> simp
      simp [this, Nat.not_lt.mpr h, Nat.add_sub_cancel' h, BitVec.getLsbD_eq_getElem hi]
  have := w.isLt
  rw [h]
  simp only [BitVec.toNat_shiftLeft, BitVec.toNat_ushiftRight, familyOf, Nat.shiftLeft_eq, Nat.shiftRight_eq_div_pow]
  omega

theorem mask_low_nibble (w : Word) : (w &&& 0x000F#16).toNat = (fieldN w).val := by
  have h := Nat.and_two_pow_sub_one_eq_mod w.toNat 4
  simp only [BitVec.toNat_and, fieldN]
  simpa using h

theorem mask_low_byte (w : Word) : (w &&& 0x00FF#16).toNat = (fieldNN w).toNat := by
  have h := Nat.and_two_pow_sub_one_eq_mod w.toNat 8
  simp only [BitVec.toNat_and, fieldNN, BitVec.toNat_ofNat]
  simpa using h

/-- Masking with the family bits and others is adding the two masked parts. -/
theorem mask_family_or (w m : Word) (hm : 0xF000#16 &&& m = 0#16) :
    w &&& (0xF000#16 ||| m) = (w &&& 0xF000#16) + (w &&& m) := by
  have h0 : (w &&& 0xF000#16) &&& (w &&& m) = 0#16 := by
    rw [show (w &&& 0xF000#16) &&& (w &&& m) = w &&& (0xF000#16 &&& m) by
      ext i hi; simp only [BitVec.getElem_and]; cases w[i] <;> simp, hm, BitVec.and_zero]
  rw [BitVec.add_eq_or_of_and_eq_zero _ _ h0]
  ext i hi
  simp only [BitVec.getElem_and, BitVec.getElem_or, Bool.and_or_distrib_left]

theorem mask_family_nibble (w : Word) : (w &&& 0xF00F#16).toNat = familyOf w * 4096 + (fieldN w).val := by
  have h := congrArg BitVec.toNat (mask_family_or w 0x000F#16 (by decide))
  have := familyOf_lt w
  rw [BitVec.toNat_add, mask_family, mask_low_nibble] at h
  rw [show (0xF00F#16) = 0xF000#16 ||| 0x000F#16 by decide, h]
  omega

theorem mask_family_byte (w : Word) : (w &&& 0xF0FF#16).toNat = familyOf w * 4096 + (fieldNN w).toNat := by
  have h := congrArg BitVec.toNat (mask_family_or w 0x00FF#16 (by decide))
  have := familyOf_lt w
  have := (fieldNN w).isLt
  rw [BitVec.toNat_add, mask_family, mask_low_byte] at h
  rw [show (0xF0FF#16) = 0xF000#16 ||| 0x00FF#16 by decide, h]
  omega

theorem mask_all (w : Word) : w &&& 0xFFFF#16 = w := by
  rw [show (0xFFFF#16) = BitVec.allOnes 16 by decide, BitVec.and_allOnes]

end Sys2Proof
end

