-- ==== Sys2Proof/Laws/Memory.lean ====
section
/-! SUPPORT. Reading after writing, and the canonical form: every memory operation keeps it, and it makes equal memories equal data. -/

namespace Sys2Proof.Machine

variable {base : Nat → Byte}

/-! ### Reading after a write -/

theorem lookupCell_insert_same (u : Byte) (m : Memory) (a : Nat) (b : Byte) :
    lookupCell u (Memory.insert m a b) a = b := by
  induction m with
  | nil => simp [Memory.insert, lookupCell]
  | cons e m ih =>
    obtain ⟨k, c⟩ := e
    unfold Memory.insert
    split
    · simp [lookupCell]
    · split
      · simp [lookupCell]
      · next h => simp [lookupCell, h, ih]

theorem lookupCell_insert_ne (u : Byte) (m : Memory) {a q : Nat} (b : Byte) (h : q ≠ a) :
    lookupCell u (Memory.insert m a b) q = lookupCell u m q := by
  induction m with
  | nil => simp [Memory.insert, lookupCell, h]
  | cons e m ih =>
    obtain ⟨k, c⟩ := e
    unfold Memory.insert
    split
    · simp [lookupCell, h]
    · split
      · next hk => subst hk; simp [lookupCell, h]
      · simp [lookupCell, ih]

theorem lookupCell_erase_ne (u : Byte) (m : Memory) {a q : Nat} (h : q ≠ a) :
    lookupCell u (Memory.erase m a) q = lookupCell u m q := by
  induction m with
  | nil => rfl
  | cons e m ih =>
    obtain ⟨k, c⟩ := e
    unfold Memory.erase
    split
    · next hk => subst hk; simp [lookupCell, h, ih]
    · simp [lookupCell, ih]

/-- An address below every listed one is unlisted. -/
theorem lookupCell_below {m : Memory} {lo a : Nat} (u : Byte) (hm : Memory.wfFrom base lo m = true) (ha : a < lo) :
    lookupCell u m a = u := by
  induction m generalizing lo with
  | nil => rfl
  | cons e m ih =>
    obtain ⟨k, c⟩ := e
    simp only [Memory.wfFrom, Bool.and_eq_true, decide_eq_true_eq] at hm
    have hne : a ≠ k := by omega
    simp only [lookupCell, hne, if_false]
    exact ih hm.2 (by omega)

theorem lookupCell_erase_same (u : Byte) (m : Memory) (a : Nat) : lookupCell u (Memory.erase m a) a = u := by
  induction m with
  | nil => rfl
  | cons e m ih =>
    obtain ⟨k, c⟩ := e
    unfold Memory.erase
    split
    · exact ih
    · next hk => simp only [lookupCell, hk, if_false]; exact ih

/-- A read after a write to the same place gives the value written. -/
theorem Memory.read_write_same (m : Memory) (a : Nat) (b : Byte) :
    Memory.read base (Memory.write base m a b) a = b := by
  unfold Memory.read Memory.write
  split
  · next h => rw [lookupCell_erase_same, h]
  · exact lookupCell_insert_same ..

/-- A write leaves every other place alone. -/
theorem Memory.read_write_ne (m : Memory) {a q : Nat} (b : Byte) (h : q ≠ a) :
    Memory.read base (Memory.write base m a b) q = Memory.read base m q := by
  unfold Memory.read Memory.write
  split
  · exact lookupCell_erase_ne _ _ h
  · exact lookupCell_insert_ne _ _ _ h

/-! ### The canonical form is kept -/

theorem Memory.wfFrom_mono {m : Memory} {lo lo' : Nat} (h : lo' ≤ lo) (hm : Memory.wfFrom base lo m = true) :
    Memory.wfFrom base lo' m = true := by
  cases m with
  | nil => rfl
  | cons e m =>
    simp only [Memory.wfFrom, Bool.and_eq_true, decide_eq_true_eq] at hm ⊢
    exact ⟨⟨⟨by omega, hm.1.1.2⟩, hm.1.2⟩, hm.2⟩

theorem Memory.wfFrom_erase {m : Memory} {lo : Nat} (a : Nat) (hm : Memory.wfFrom base lo m = true) :
    Memory.wfFrom base lo (Memory.erase m a) = true := by
  induction m generalizing lo with
  | nil => rfl
  | cons e m ih =>
    obtain ⟨k, c⟩ := e
    simp only [Memory.wfFrom, Bool.and_eq_true, decide_eq_true_eq] at hm
    unfold Memory.erase
    split
    · exact Memory.wfFrom_mono (by omega) (ih hm.2)
    · simp only [Memory.wfFrom, Bool.and_eq_true, decide_eq_true_eq]
      exact ⟨hm.1, ih hm.2⟩

theorem Memory.wfFrom_insert {m : Memory} {lo a : Nat} {b : Byte} (hlo : lo ≤ a) (ha : a < memSize)
    (hb : b ≠ base a) (hm : Memory.wfFrom base lo m = true) :
    Memory.wfFrom base lo (Memory.insert m a b) = true := by
  induction m generalizing lo with
  | nil => simp [Memory.insert, Memory.wfFrom, hlo, ha, hb]
  | cons e m ih =>
    obtain ⟨k, c⟩ := e
    simp only [Memory.wfFrom, Bool.and_eq_true, decide_eq_true_eq, bne_iff_ne] at hm
    unfold Memory.insert
    split
    · simp only [Memory.wfFrom, Bool.and_eq_true, decide_eq_true_eq, bne_iff_ne]
      exact ⟨⟨⟨hlo, ha⟩, hb⟩, ⟨⟨⟨by omega, hm.1.1.2⟩, hm.1.2⟩, hm.2⟩⟩
    · split
      · next hk =>
        subst hk
        simp only [Memory.wfFrom, Bool.and_eq_true, decide_eq_true_eq, bne_iff_ne]
        exact ⟨⟨⟨hlo, ha⟩, hb⟩, hm.2⟩
      · simp only [Memory.wfFrom, Bool.and_eq_true, decide_eq_true_eq, bne_iff_ne]
        exact ⟨hm.1, ih (by omega) hm.2⟩

/-- A write inside memory keeps the canonical form. -/
theorem Memory.wf_write {m : Memory} {a : Nat} (b : Byte) (ha : a < memSize) (hm : Memory.wf base m = true) :
    Memory.wf base (Memory.write base m a b) = true := by
  unfold Memory.write
  split
  · exact Memory.wfFrom_erase a hm
  · next h => exact Memory.wfFrom_insert (Nat.zero_le a) ha h hm

/-- The memory of `State.loaded`, and so of `State.reset`, is in canonical form. -/
theorem Memory.wf_loaded (c : Config) (n : Nat) : Memory.wf (loadImage c) (State.loaded c n).mem = true := rfl

/-! ### Equal memories are equal data -/

theorem Memory.eq_of_lookup {m m' : Memory} {lo lo' : Nat} (hm : Memory.wfFrom base lo m = true)
    (hm' : Memory.wfFrom base lo' m' = true) (h : ∀ a, lookupCell (base a) m a = lookupCell (base a) m' a) :
    m = m' := by
  induction m generalizing lo lo' m' with
  | nil =>
    cases m' with
    | nil => rfl
    | cons e m' =>
      obtain ⟨k, c⟩ := e
      simp only [Memory.wfFrom, Bool.and_eq_true, decide_eq_true_eq, bne_iff_ne] at hm'
      have := h k
      simp only [lookupCell, if_true] at this
      exact absurd this.symm hm'.1.2
  | cons e m ih =>
    obtain ⟨k, c⟩ := e
    simp only [Memory.wfFrom, Bool.and_eq_true, decide_eq_true_eq, bne_iff_ne] at hm
    cases m' with
    | nil =>
      have := h k
      simp only [lookupCell, if_true] at this
      exact absurd this hm.1.2
    | cons e' m' =>
      obtain ⟨k', c'⟩ := e'
      simp only [Memory.wfFrom, Bool.and_eq_true, decide_eq_true_eq, bne_iff_ne] at hm'
      have hk : k = k' := by
        rcases Nat.lt_trichotomy k k' with hlt | heq | hgt
        · have := h k
          rw [lookupCell, if_pos rfl, lookupCell, if_neg (by omega), lookupCell_below _ hm'.2 (by omega)] at this
          exact absurd this hm.1.2
        · exact heq
        · have := h k'
          rw [lookupCell, if_neg (by omega), lookupCell_below _ hm.2 (by omega), lookupCell, if_pos rfl] at this
          exact absurd this.symm hm'.1.2
      subst hk
      have hc : c = c' := by simpa [lookupCell] using h k
      subst hc
      have htail : m = m' := ih hm.2 hm'.2 fun a => by
        by_cases ha : a = k
        · subst ha
          rw [lookupCell_below _ hm.2 (by omega), lookupCell_below _ hm'.2 (by omega)]
        · simpa [lookupCell, ha] using h a
      rw [htail]

/-- Two memories in canonical form that read alike are the same list. -/
theorem Memory.eq_of_read {m m' : Memory} (hm : Memory.wf base m = true) (hm' : Memory.wf base m' = true)
    (h : ∀ a, Memory.read base m a = Memory.read base m' a) : m = m' :=
  Memory.eq_of_lookup hm hm' h

end Sys2Proof.Machine
end

