-- ==== Sys2Proof/Laws/State.lean ====
section
/-! SUPPORT. One lemma per field per update of State, true by rfl, and the accessors after an update. -/

namespace Sys2Proof.Machine

/-! ### setV -/

theorem State.setV_v (s : State) (r : Reg) (b : Byte) : (s.setV r b).v = s.v.set r b := rfl
@[simp] theorem State.setV_i (s : State) (r : Reg) (b : Byte) : (s.setV r b).i = s.i := rfl
@[simp] theorem State.setV_pc (s : State) (r : Reg) (b : Byte) : (s.setV r b).pc = s.pc := rfl
@[simp] theorem State.setV_stack (s : State) (r : Reg) (b : Byte) : (s.setV r b).stack = s.stack := rfl
@[simp] theorem State.setV_mem (s : State) (r : Reg) (b : Byte) : (s.setV r b).mem = s.mem := rfl
@[simp] theorem State.setV_display (s : State) (r : Reg) (b : Byte) : (s.setV r b).display = s.display := rfl
@[simp] theorem State.setV_drawPending (s : State) (r : Reg) (b : Byte) : (s.setV r b).drawPending = s.drawPending := rfl
@[simp] theorem State.setV_dt (s : State) (r : Reg) (b : Byte) : (s.setV r b).dt = s.dt := rfl
@[simp] theorem State.setV_st (s : State) (r : Reg) (b : Byte) : (s.setV r b).st = s.st := rfl
@[simp] theorem State.setV_keys (s : State) (r : Reg) (b : Byte) : (s.setV r b).keys = s.keys := rfl
@[simp] theorem State.setV_lifecycle (s : State) (r : Reg) (b : Byte) : (s.setV r b).lifecycle = s.lifecycle := rfl
@[simp] theorem State.setV_fault (s : State) (r : Reg) (b : Byte) : (s.setV r b).fault = s.fault := rfl
@[simp] theorem State.setV_cfg (s : State) (r : Reg) (b : Byte) : (s.setV r b).cfg = s.cfg := rfl
@[simp] theorem State.setV_draws (s : State) (r : Reg) (b : Byte) : (s.setV r b).draws = s.draws := rfl
@[simp] theorem State.setV_readByte (s : State) (r : Reg) (b : Byte) (addr : Nat) : (s.setV r b).readByte addr = s.readByte addr := rfl
@[simp] theorem State.setV_keyDown (s : State) (r : Reg) (b : Byte) (key : Key) : (s.setV r b).keyDown key = s.keyDown key := rfl

/-! ### setI -/

@[simp] theorem State.setI_v (s : State) (w : Word) : (s.setI w).v = s.v := rfl
@[simp] theorem State.setI_i (s : State) (w : Word) : (s.setI w).i = w := rfl
@[simp] theorem State.setI_pc (s : State) (w : Word) : (s.setI w).pc = s.pc := rfl
@[simp] theorem State.setI_stack (s : State) (w : Word) : (s.setI w).stack = s.stack := rfl
@[simp] theorem State.setI_mem (s : State) (w : Word) : (s.setI w).mem = s.mem := rfl
@[simp] theorem State.setI_display (s : State) (w : Word) : (s.setI w).display = s.display := rfl
@[simp] theorem State.setI_drawPending (s : State) (w : Word) : (s.setI w).drawPending = s.drawPending := rfl
@[simp] theorem State.setI_dt (s : State) (w : Word) : (s.setI w).dt = s.dt := rfl
@[simp] theorem State.setI_st (s : State) (w : Word) : (s.setI w).st = s.st := rfl
@[simp] theorem State.setI_keys (s : State) (w : Word) : (s.setI w).keys = s.keys := rfl
@[simp] theorem State.setI_lifecycle (s : State) (w : Word) : (s.setI w).lifecycle = s.lifecycle := rfl
@[simp] theorem State.setI_fault (s : State) (w : Word) : (s.setI w).fault = s.fault := rfl
@[simp] theorem State.setI_cfg (s : State) (w : Word) : (s.setI w).cfg = s.cfg := rfl
@[simp] theorem State.setI_draws (s : State) (w : Word) : (s.setI w).draws = s.draws := rfl
@[simp] theorem State.setI_getV (s : State) (w : Word) (r : Reg) : (s.setI w).getV r = s.getV r := rfl
@[simp] theorem State.setI_readByte (s : State) (w : Word) (addr : Nat) : (s.setI w).readByte addr = s.readByte addr := rfl
@[simp] theorem State.setI_keyDown (s : State) (w : Word) (key : Key) : (s.setI w).keyDown key = s.keyDown key := rfl

/-! ### setPc -/

@[simp] theorem State.setPc_v (s : State) (w : Word) : (s.setPc w).v = s.v := rfl
@[simp] theorem State.setPc_i (s : State) (w : Word) : (s.setPc w).i = s.i := rfl
@[simp] theorem State.setPc_pc (s : State) (w : Word) : (s.setPc w).pc = w := rfl
@[simp] theorem State.setPc_stack (s : State) (w : Word) : (s.setPc w).stack = s.stack := rfl
@[simp] theorem State.setPc_mem (s : State) (w : Word) : (s.setPc w).mem = s.mem := rfl
@[simp] theorem State.setPc_display (s : State) (w : Word) : (s.setPc w).display = s.display := rfl
@[simp] theorem State.setPc_drawPending (s : State) (w : Word) : (s.setPc w).drawPending = s.drawPending := rfl
@[simp] theorem State.setPc_dt (s : State) (w : Word) : (s.setPc w).dt = s.dt := rfl
@[simp] theorem State.setPc_st (s : State) (w : Word) : (s.setPc w).st = s.st := rfl
@[simp] theorem State.setPc_keys (s : State) (w : Word) : (s.setPc w).keys = s.keys := rfl
@[simp] theorem State.setPc_lifecycle (s : State) (w : Word) : (s.setPc w).lifecycle = s.lifecycle := rfl
@[simp] theorem State.setPc_fault (s : State) (w : Word) : (s.setPc w).fault = s.fault := rfl
@[simp] theorem State.setPc_cfg (s : State) (w : Word) : (s.setPc w).cfg = s.cfg := rfl
@[simp] theorem State.setPc_draws (s : State) (w : Word) : (s.setPc w).draws = s.draws := rfl
@[simp] theorem State.setPc_getV (s : State) (w : Word) (r : Reg) : (s.setPc w).getV r = s.getV r := rfl
@[simp] theorem State.setPc_readByte (s : State) (w : Word) (addr : Nat) : (s.setPc w).readByte addr = s.readByte addr := rfl
@[simp] theorem State.setPc_keyDown (s : State) (w : Word) (key : Key) : (s.setPc w).keyDown key = s.keyDown key := rfl

/-! ### setStack -/

@[simp] theorem State.setStack_v (s : State) (l : List Word) : (s.setStack l).v = s.v := rfl
@[simp] theorem State.setStack_i (s : State) (l : List Word) : (s.setStack l).i = s.i := rfl
@[simp] theorem State.setStack_pc (s : State) (l : List Word) : (s.setStack l).pc = s.pc := rfl
@[simp] theorem State.setStack_stack (s : State) (l : List Word) : (s.setStack l).stack = l := rfl
@[simp] theorem State.setStack_mem (s : State) (l : List Word) : (s.setStack l).mem = s.mem := rfl
@[simp] theorem State.setStack_display (s : State) (l : List Word) : (s.setStack l).display = s.display := rfl
@[simp] theorem State.setStack_drawPending (s : State) (l : List Word) : (s.setStack l).drawPending = s.drawPending := rfl
@[simp] theorem State.setStack_dt (s : State) (l : List Word) : (s.setStack l).dt = s.dt := rfl
@[simp] theorem State.setStack_st (s : State) (l : List Word) : (s.setStack l).st = s.st := rfl
@[simp] theorem State.setStack_keys (s : State) (l : List Word) : (s.setStack l).keys = s.keys := rfl
@[simp] theorem State.setStack_lifecycle (s : State) (l : List Word) : (s.setStack l).lifecycle = s.lifecycle := rfl
@[simp] theorem State.setStack_fault (s : State) (l : List Word) : (s.setStack l).fault = s.fault := rfl
@[simp] theorem State.setStack_cfg (s : State) (l : List Word) : (s.setStack l).cfg = s.cfg := rfl
@[simp] theorem State.setStack_draws (s : State) (l : List Word) : (s.setStack l).draws = s.draws := rfl
@[simp] theorem State.setStack_getV (s : State) (l : List Word) (r : Reg) : (s.setStack l).getV r = s.getV r := rfl
@[simp] theorem State.setStack_readByte (s : State) (l : List Word) (addr : Nat) : (s.setStack l).readByte addr = s.readByte addr := rfl
@[simp] theorem State.setStack_keyDown (s : State) (l : List Word) (key : Key) : (s.setStack l).keyDown key = s.keyDown key := rfl

/-! ### setMem -/

@[simp] theorem State.setMem_v (s : State) (m : Memory) : (s.setMem m).v = s.v := rfl
@[simp] theorem State.setMem_i (s : State) (m : Memory) : (s.setMem m).i = s.i := rfl
@[simp] theorem State.setMem_pc (s : State) (m : Memory) : (s.setMem m).pc = s.pc := rfl
@[simp] theorem State.setMem_stack (s : State) (m : Memory) : (s.setMem m).stack = s.stack := rfl
@[simp] theorem State.setMem_mem (s : State) (m : Memory) : (s.setMem m).mem = m := rfl
@[simp] theorem State.setMem_display (s : State) (m : Memory) : (s.setMem m).display = s.display := rfl
@[simp] theorem State.setMem_drawPending (s : State) (m : Memory) : (s.setMem m).drawPending = s.drawPending := rfl
@[simp] theorem State.setMem_dt (s : State) (m : Memory) : (s.setMem m).dt = s.dt := rfl
@[simp] theorem State.setMem_st (s : State) (m : Memory) : (s.setMem m).st = s.st := rfl
@[simp] theorem State.setMem_keys (s : State) (m : Memory) : (s.setMem m).keys = s.keys := rfl
@[simp] theorem State.setMem_lifecycle (s : State) (m : Memory) : (s.setMem m).lifecycle = s.lifecycle := rfl
@[simp] theorem State.setMem_fault (s : State) (m : Memory) : (s.setMem m).fault = s.fault := rfl
@[simp] theorem State.setMem_cfg (s : State) (m : Memory) : (s.setMem m).cfg = s.cfg := rfl
@[simp] theorem State.setMem_draws (s : State) (m : Memory) : (s.setMem m).draws = s.draws := rfl
@[simp] theorem State.setMem_getV (s : State) (m : Memory) (r : Reg) : (s.setMem m).getV r = s.getV r := rfl
@[simp] theorem State.setMem_keyDown (s : State) (m : Memory) (key : Key) : (s.setMem m).keyDown key = s.keyDown key := rfl

/-! ### setDisplay -/

@[simp] theorem State.setDisplay_v (s : State) (d : DisplayBuffer) : (s.setDisplay d).v = s.v := rfl
@[simp] theorem State.setDisplay_i (s : State) (d : DisplayBuffer) : (s.setDisplay d).i = s.i := rfl
@[simp] theorem State.setDisplay_pc (s : State) (d : DisplayBuffer) : (s.setDisplay d).pc = s.pc := rfl
@[simp] theorem State.setDisplay_stack (s : State) (d : DisplayBuffer) : (s.setDisplay d).stack = s.stack := rfl
@[simp] theorem State.setDisplay_mem (s : State) (d : DisplayBuffer) : (s.setDisplay d).mem = s.mem := rfl
@[simp] theorem State.setDisplay_display (s : State) (d : DisplayBuffer) : (s.setDisplay d).display = d := rfl
@[simp] theorem State.setDisplay_drawPending (s : State) (d : DisplayBuffer) : (s.setDisplay d).drawPending = s.drawPending := rfl
@[simp] theorem State.setDisplay_dt (s : State) (d : DisplayBuffer) : (s.setDisplay d).dt = s.dt := rfl
@[simp] theorem State.setDisplay_st (s : State) (d : DisplayBuffer) : (s.setDisplay d).st = s.st := rfl
@[simp] theorem State.setDisplay_keys (s : State) (d : DisplayBuffer) : (s.setDisplay d).keys = s.keys := rfl
@[simp] theorem State.setDisplay_lifecycle (s : State) (d : DisplayBuffer) : (s.setDisplay d).lifecycle = s.lifecycle := rfl
@[simp] theorem State.setDisplay_fault (s : State) (d : DisplayBuffer) : (s.setDisplay d).fault = s.fault := rfl
@[simp] theorem State.setDisplay_cfg (s : State) (d : DisplayBuffer) : (s.setDisplay d).cfg = s.cfg := rfl
@[simp] theorem State.setDisplay_draws (s : State) (d : DisplayBuffer) : (s.setDisplay d).draws = s.draws := rfl
@[simp] theorem State.setDisplay_getV (s : State) (d : DisplayBuffer) (r : Reg) : (s.setDisplay d).getV r = s.getV r := rfl
@[simp] theorem State.setDisplay_readByte (s : State) (d : DisplayBuffer) (addr : Nat) : (s.setDisplay d).readByte addr = s.readByte addr := rfl
@[simp] theorem State.setDisplay_keyDown (s : State) (d : DisplayBuffer) (key : Key) : (s.setDisplay d).keyDown key = s.keyDown key := rfl

/-! ### setDrawPending -/

@[simp] theorem State.setDrawPending_v (s : State) (b : Bool) : (s.setDrawPending b).v = s.v := rfl
@[simp] theorem State.setDrawPending_i (s : State) (b : Bool) : (s.setDrawPending b).i = s.i := rfl
@[simp] theorem State.setDrawPending_pc (s : State) (b : Bool) : (s.setDrawPending b).pc = s.pc := rfl
@[simp] theorem State.setDrawPending_stack (s : State) (b : Bool) : (s.setDrawPending b).stack = s.stack := rfl
@[simp] theorem State.setDrawPending_mem (s : State) (b : Bool) : (s.setDrawPending b).mem = s.mem := rfl
@[simp] theorem State.setDrawPending_display (s : State) (b : Bool) : (s.setDrawPending b).display = s.display := rfl
@[simp] theorem State.setDrawPending_drawPending (s : State) (b : Bool) : (s.setDrawPending b).drawPending = b := rfl
@[simp] theorem State.setDrawPending_dt (s : State) (b : Bool) : (s.setDrawPending b).dt = s.dt := rfl
@[simp] theorem State.setDrawPending_st (s : State) (b : Bool) : (s.setDrawPending b).st = s.st := rfl
@[simp] theorem State.setDrawPending_keys (s : State) (b : Bool) : (s.setDrawPending b).keys = s.keys := rfl
@[simp] theorem State.setDrawPending_lifecycle (s : State) (b : Bool) : (s.setDrawPending b).lifecycle = s.lifecycle := rfl
@[simp] theorem State.setDrawPending_fault (s : State) (b : Bool) : (s.setDrawPending b).fault = s.fault := rfl
@[simp] theorem State.setDrawPending_cfg (s : State) (b : Bool) : (s.setDrawPending b).cfg = s.cfg := rfl
@[simp] theorem State.setDrawPending_draws (s : State) (b : Bool) : (s.setDrawPending b).draws = s.draws := rfl
@[simp] theorem State.setDrawPending_getV (s : State) (b : Bool) (r : Reg) : (s.setDrawPending b).getV r = s.getV r := rfl
@[simp] theorem State.setDrawPending_readByte (s : State) (b : Bool) (addr : Nat) : (s.setDrawPending b).readByte addr = s.readByte addr := rfl
@[simp] theorem State.setDrawPending_keyDown (s : State) (b : Bool) (key : Key) : (s.setDrawPending b).keyDown key = s.keyDown key := rfl

/-! ### setDt -/

@[simp] theorem State.setDt_v (s : State) (b : Byte) : (s.setDt b).v = s.v := rfl
@[simp] theorem State.setDt_i (s : State) (b : Byte) : (s.setDt b).i = s.i := rfl
@[simp] theorem State.setDt_pc (s : State) (b : Byte) : (s.setDt b).pc = s.pc := rfl
@[simp] theorem State.setDt_stack (s : State) (b : Byte) : (s.setDt b).stack = s.stack := rfl
@[simp] theorem State.setDt_mem (s : State) (b : Byte) : (s.setDt b).mem = s.mem := rfl
@[simp] theorem State.setDt_display (s : State) (b : Byte) : (s.setDt b).display = s.display := rfl
@[simp] theorem State.setDt_drawPending (s : State) (b : Byte) : (s.setDt b).drawPending = s.drawPending := rfl
@[simp] theorem State.setDt_dt (s : State) (b : Byte) : (s.setDt b).dt = b := rfl
@[simp] theorem State.setDt_st (s : State) (b : Byte) : (s.setDt b).st = s.st := rfl
@[simp] theorem State.setDt_keys (s : State) (b : Byte) : (s.setDt b).keys = s.keys := rfl
@[simp] theorem State.setDt_lifecycle (s : State) (b : Byte) : (s.setDt b).lifecycle = s.lifecycle := rfl
@[simp] theorem State.setDt_fault (s : State) (b : Byte) : (s.setDt b).fault = s.fault := rfl
@[simp] theorem State.setDt_cfg (s : State) (b : Byte) : (s.setDt b).cfg = s.cfg := rfl
@[simp] theorem State.setDt_draws (s : State) (b : Byte) : (s.setDt b).draws = s.draws := rfl
@[simp] theorem State.setDt_getV (s : State) (b : Byte) (r : Reg) : (s.setDt b).getV r = s.getV r := rfl
@[simp] theorem State.setDt_readByte (s : State) (b : Byte) (addr : Nat) : (s.setDt b).readByte addr = s.readByte addr := rfl
@[simp] theorem State.setDt_keyDown (s : State) (b : Byte) (key : Key) : (s.setDt b).keyDown key = s.keyDown key := rfl

/-! ### setSt -/

@[simp] theorem State.setSt_v (s : State) (b : Byte) : (s.setSt b).v = s.v := rfl
@[simp] theorem State.setSt_i (s : State) (b : Byte) : (s.setSt b).i = s.i := rfl
@[simp] theorem State.setSt_pc (s : State) (b : Byte) : (s.setSt b).pc = s.pc := rfl
@[simp] theorem State.setSt_stack (s : State) (b : Byte) : (s.setSt b).stack = s.stack := rfl
@[simp] theorem State.setSt_mem (s : State) (b : Byte) : (s.setSt b).mem = s.mem := rfl
@[simp] theorem State.setSt_display (s : State) (b : Byte) : (s.setSt b).display = s.display := rfl
@[simp] theorem State.setSt_drawPending (s : State) (b : Byte) : (s.setSt b).drawPending = s.drawPending := rfl
@[simp] theorem State.setSt_dt (s : State) (b : Byte) : (s.setSt b).dt = s.dt := rfl
@[simp] theorem State.setSt_st (s : State) (b : Byte) : (s.setSt b).st = b := rfl
@[simp] theorem State.setSt_keys (s : State) (b : Byte) : (s.setSt b).keys = s.keys := rfl
@[simp] theorem State.setSt_lifecycle (s : State) (b : Byte) : (s.setSt b).lifecycle = s.lifecycle := rfl
@[simp] theorem State.setSt_fault (s : State) (b : Byte) : (s.setSt b).fault = s.fault := rfl
@[simp] theorem State.setSt_cfg (s : State) (b : Byte) : (s.setSt b).cfg = s.cfg := rfl
@[simp] theorem State.setSt_draws (s : State) (b : Byte) : (s.setSt b).draws = s.draws := rfl
@[simp] theorem State.setSt_getV (s : State) (b : Byte) (r : Reg) : (s.setSt b).getV r = s.getV r := rfl
@[simp] theorem State.setSt_readByte (s : State) (b : Byte) (addr : Nat) : (s.setSt b).readByte addr = s.readByte addr := rfl
@[simp] theorem State.setSt_keyDown (s : State) (b : Byte) (key : Key) : (s.setSt b).keyDown key = s.keyDown key := rfl

/-! ### setKeys -/

@[simp] theorem State.setKeys_v (s : State) (k : Vector Bool 16) : (s.setKeys k).v = s.v := rfl
@[simp] theorem State.setKeys_i (s : State) (k : Vector Bool 16) : (s.setKeys k).i = s.i := rfl
@[simp] theorem State.setKeys_pc (s : State) (k : Vector Bool 16) : (s.setKeys k).pc = s.pc := rfl
@[simp] theorem State.setKeys_stack (s : State) (k : Vector Bool 16) : (s.setKeys k).stack = s.stack := rfl
@[simp] theorem State.setKeys_mem (s : State) (k : Vector Bool 16) : (s.setKeys k).mem = s.mem := rfl
@[simp] theorem State.setKeys_display (s : State) (k : Vector Bool 16) : (s.setKeys k).display = s.display := rfl
@[simp] theorem State.setKeys_drawPending (s : State) (k : Vector Bool 16) : (s.setKeys k).drawPending = s.drawPending := rfl
@[simp] theorem State.setKeys_dt (s : State) (k : Vector Bool 16) : (s.setKeys k).dt = s.dt := rfl
@[simp] theorem State.setKeys_st (s : State) (k : Vector Bool 16) : (s.setKeys k).st = s.st := rfl
@[simp] theorem State.setKeys_keys (s : State) (k : Vector Bool 16) : (s.setKeys k).keys = k := rfl
@[simp] theorem State.setKeys_lifecycle (s : State) (k : Vector Bool 16) : (s.setKeys k).lifecycle = s.lifecycle := rfl
@[simp] theorem State.setKeys_fault (s : State) (k : Vector Bool 16) : (s.setKeys k).fault = s.fault := rfl
@[simp] theorem State.setKeys_cfg (s : State) (k : Vector Bool 16) : (s.setKeys k).cfg = s.cfg := rfl
@[simp] theorem State.setKeys_draws (s : State) (k : Vector Bool 16) : (s.setKeys k).draws = s.draws := rfl
@[simp] theorem State.setKeys_getV (s : State) (k : Vector Bool 16) (r : Reg) : (s.setKeys k).getV r = s.getV r := rfl
@[simp] theorem State.setKeys_readByte (s : State) (k : Vector Bool 16) (addr : Nat) : (s.setKeys k).readByte addr = s.readByte addr := rfl

/-! ### setLifecycle -/

@[simp] theorem State.setLifecycle_v (s : State) (l : Lifecycle) : (s.setLifecycle l).v = s.v := rfl
@[simp] theorem State.setLifecycle_i (s : State) (l : Lifecycle) : (s.setLifecycle l).i = s.i := rfl
@[simp] theorem State.setLifecycle_pc (s : State) (l : Lifecycle) : (s.setLifecycle l).pc = s.pc := rfl
@[simp] theorem State.setLifecycle_stack (s : State) (l : Lifecycle) : (s.setLifecycle l).stack = s.stack := rfl
@[simp] theorem State.setLifecycle_mem (s : State) (l : Lifecycle) : (s.setLifecycle l).mem = s.mem := rfl
@[simp] theorem State.setLifecycle_display (s : State) (l : Lifecycle) : (s.setLifecycle l).display = s.display := rfl
@[simp] theorem State.setLifecycle_drawPending (s : State) (l : Lifecycle) : (s.setLifecycle l).drawPending = s.drawPending := rfl
@[simp] theorem State.setLifecycle_dt (s : State) (l : Lifecycle) : (s.setLifecycle l).dt = s.dt := rfl
@[simp] theorem State.setLifecycle_st (s : State) (l : Lifecycle) : (s.setLifecycle l).st = s.st := rfl
@[simp] theorem State.setLifecycle_keys (s : State) (l : Lifecycle) : (s.setLifecycle l).keys = s.keys := rfl
@[simp] theorem State.setLifecycle_lifecycle (s : State) (l : Lifecycle) : (s.setLifecycle l).lifecycle = l := rfl
@[simp] theorem State.setLifecycle_fault (s : State) (l : Lifecycle) : (s.setLifecycle l).fault = s.fault := rfl
@[simp] theorem State.setLifecycle_cfg (s : State) (l : Lifecycle) : (s.setLifecycle l).cfg = s.cfg := rfl
@[simp] theorem State.setLifecycle_draws (s : State) (l : Lifecycle) : (s.setLifecycle l).draws = s.draws := rfl
@[simp] theorem State.setLifecycle_getV (s : State) (l : Lifecycle) (r : Reg) : (s.setLifecycle l).getV r = s.getV r := rfl
@[simp] theorem State.setLifecycle_readByte (s : State) (l : Lifecycle) (addr : Nat) : (s.setLifecycle l).readByte addr = s.readByte addr := rfl
@[simp] theorem State.setLifecycle_keyDown (s : State) (l : Lifecycle) (key : Key) : (s.setLifecycle l).keyDown key = s.keyDown key := rfl

/-! ### setFault -/

@[simp] theorem State.setFault_v (s : State) (f : Option FaultRecord) : (s.setFault f).v = s.v := rfl
@[simp] theorem State.setFault_i (s : State) (f : Option FaultRecord) : (s.setFault f).i = s.i := rfl
@[simp] theorem State.setFault_pc (s : State) (f : Option FaultRecord) : (s.setFault f).pc = s.pc := rfl
@[simp] theorem State.setFault_stack (s : State) (f : Option FaultRecord) : (s.setFault f).stack = s.stack := rfl
@[simp] theorem State.setFault_mem (s : State) (f : Option FaultRecord) : (s.setFault f).mem = s.mem := rfl
@[simp] theorem State.setFault_display (s : State) (f : Option FaultRecord) : (s.setFault f).display = s.display := rfl
@[simp] theorem State.setFault_drawPending (s : State) (f : Option FaultRecord) : (s.setFault f).drawPending = s.drawPending := rfl
@[simp] theorem State.setFault_dt (s : State) (f : Option FaultRecord) : (s.setFault f).dt = s.dt := rfl
@[simp] theorem State.setFault_st (s : State) (f : Option FaultRecord) : (s.setFault f).st = s.st := rfl
@[simp] theorem State.setFault_keys (s : State) (f : Option FaultRecord) : (s.setFault f).keys = s.keys := rfl
@[simp] theorem State.setFault_lifecycle (s : State) (f : Option FaultRecord) : (s.setFault f).lifecycle = s.lifecycle := rfl
@[simp] theorem State.setFault_fault (s : State) (f : Option FaultRecord) : (s.setFault f).fault = f := rfl
@[simp] theorem State.setFault_cfg (s : State) (f : Option FaultRecord) : (s.setFault f).cfg = s.cfg := rfl
@[simp] theorem State.setFault_draws (s : State) (f : Option FaultRecord) : (s.setFault f).draws = s.draws := rfl
@[simp] theorem State.setFault_getV (s : State) (f : Option FaultRecord) (r : Reg) : (s.setFault f).getV r = s.getV r := rfl
@[simp] theorem State.setFault_readByte (s : State) (f : Option FaultRecord) (addr : Nat) : (s.setFault f).readByte addr = s.readByte addr := rfl
@[simp] theorem State.setFault_keyDown (s : State) (f : Option FaultRecord) (key : Key) : (s.setFault f).keyDown key = s.keyDown key := rfl

/-! ### setDraws -/

@[simp] theorem State.setDraws_v (s : State) (n : Nat) : (s.setDraws n).v = s.v := rfl
@[simp] theorem State.setDraws_i (s : State) (n : Nat) : (s.setDraws n).i = s.i := rfl
@[simp] theorem State.setDraws_pc (s : State) (n : Nat) : (s.setDraws n).pc = s.pc := rfl
@[simp] theorem State.setDraws_stack (s : State) (n : Nat) : (s.setDraws n).stack = s.stack := rfl
@[simp] theorem State.setDraws_mem (s : State) (n : Nat) : (s.setDraws n).mem = s.mem := rfl
@[simp] theorem State.setDraws_display (s : State) (n : Nat) : (s.setDraws n).display = s.display := rfl
@[simp] theorem State.setDraws_drawPending (s : State) (n : Nat) : (s.setDraws n).drawPending = s.drawPending := rfl
@[simp] theorem State.setDraws_dt (s : State) (n : Nat) : (s.setDraws n).dt = s.dt := rfl
@[simp] theorem State.setDraws_st (s : State) (n : Nat) : (s.setDraws n).st = s.st := rfl
@[simp] theorem State.setDraws_keys (s : State) (n : Nat) : (s.setDraws n).keys = s.keys := rfl
@[simp] theorem State.setDraws_lifecycle (s : State) (n : Nat) : (s.setDraws n).lifecycle = s.lifecycle := rfl
@[simp] theorem State.setDraws_fault (s : State) (n : Nat) : (s.setDraws n).fault = s.fault := rfl
@[simp] theorem State.setDraws_cfg (s : State) (n : Nat) : (s.setDraws n).cfg = s.cfg := rfl
@[simp] theorem State.setDraws_draws (s : State) (n : Nat) : (s.setDraws n).draws = n := rfl
@[simp] theorem State.setDraws_getV (s : State) (n : Nat) (r : Reg) : (s.setDraws n).getV r = s.getV r := rfl
@[simp] theorem State.setDraws_readByte (s : State) (n : Nat) (addr : Nat) : (s.setDraws n).readByte addr = s.readByte addr := rfl
@[simp] theorem State.setDraws_keyDown (s : State) (n : Nat) (key : Key) : (s.setDraws n).keyDown key = s.keyDown key := rfl

/-! ### Registers -/

/-- Reading the register just written. -/
@[simp] theorem State.getV_setV_same (s : State) (r : Reg) (b : Byte) : (s.setV r b).getV r = b := by
  simp [State.getV, State.setV]

/-- Writing one register leaves every other alone (10_state.md R20: no two alias). -/
theorem State.getV_setV_ne (s : State) {q r : Reg} (b : Byte) (h : q ≠ r) : (s.setV r b).getV q = s.getV q := by
  have : r.val ≠ q.val := fun e => h (Fin.ext e.symm)
  simp [State.getV, State.setV, this]

/-- Reading any register after a write. -/
theorem State.getV_setV (s : State) (q r : Reg) (b : Byte) :
    (s.setV r b).getV q = if q = r then b else s.getV q := by
  split
  · next h => rw [h, State.getV_setV_same]
  · next h => exact State.getV_setV_ne s b h

/-- Two states agree on the register file when they agree on every register. -/
theorem State.v_eq_of_getV {s t : State} (h : ∀ r, s.getV r = t.getV r) : s.v = t.v :=
  Vector.ext fun k hk => h ⟨k, hk⟩

end Sys2Proof.Machine
end

