-- ==== Sys2Proof/Laws/Ops.lean ====
section
/-! SUPPORT. For each shared operation, one lemma that says everything it can do. -/

namespace Sys2Proof.Machine

/-! ### The stack -/

theorem pushWord_of_room {w : Word} {s : State} (h : s.stack.length < s.cfg.stackCapacity) :
    pushWord w s = some (s.setStack (w :: s.stack)) := if_pos h

theorem pushWord_of_full {w : Word} {s : State} (h : s.cfg.stackCapacity ≤ s.stack.length) :
    pushWord w s = none := if_neg (by omega)

theorem popWord_of_nil {s : State} (h : s.stack = []) : popWord s = none := by
  unfold popWord; rw [h]

theorem popWord_of_cons {s : State} {w : Word} {rest : List Word} (h : s.stack = w :: rest) :
    popWord s = some (w, s.setStack rest) := by
  unfold popWord; rw [h]

/-! ### One byte of memory -/

theorem memRead_inside {a : Nat} (s : State) (h : a < memSize) : memRead a s = .ok (s.readByte a) := if_pos h

theorem memRead_outside {a : Nat} (s : State) (h : memSize ≤ a) : memRead a s = .error a := if_neg (by omega)

theorem memWrite_inside {a : Nat} (b : Byte) (s : State) (h : a < memSize) :
    memWrite a b s = .ok (s.setMem (Memory.write (loadImage s.cfg) s.mem a b)) := if_pos h

theorem memWrite_outside {a : Nat} (b : Byte) (s : State) (h : memSize ≤ a) : memWrite a b s = .error a :=
  if_neg (by omega)

/-- Reading any byte after one is written. -/
theorem State.readByte_write (s : State) (a q : Nat) (b : Byte) :
    (s.setMem (Memory.write (loadImage s.cfg) s.mem a b)).readByte q = if q = a then b else s.readByte q := by
  unfold State.readByte
  split
  · next h => subst h; exact Memory.read_write_same _ _ _
  · next h => exact Memory.read_write_ne _ _ h

/-! ### Several bytes of memory -/

/-- The bytes at `a`, `a + 1`, ... as memory holds them. -/
def bytesAt (s : State) (a n : Nat) : List Byte := (List.range n).map fun k => s.readByte (a + k)

theorem bytesAt_zero (s : State) (a : Nat) : bytesAt s a 0 = [] := rfl

theorem bytesAt_succ (s : State) (a n : Nat) : bytesAt s a (n + 1) = s.readByte a :: bytesAt s (a + 1) n := by
  simp only [bytesAt, List.range_succ_eq_map, List.map_cons, List.map_map, Nat.add_zero]
  congr 1
  apply List.map_congr_left
  intro k _
  simp only [Function.comp, Nat.succ_eq_add_one]
  congr 1
  omega

@[simp] theorem bytesAt_length (s : State) (a n : Nat) : (bytesAt s a n).length = n := by simp [bytesAt]

@[simp] theorem bytesAt_getElem (s : State) (a n k : Nat) (h : k < (bytesAt s a n).length) :
    (bytesAt s a n)[k] = s.readByte (a + k) := by simp [bytesAt]

/-- A read that stays inside memory, or reads nothing, gives the bytes there (20_memory.md R64). -/
theorem readBytes_inside {a n : Nat} (s : State) (h : n = 0 ∨ a + n ≤ memSize) :
    readBytes a n s = .ok (bytesAt s a n) := by
  induction n generalizing a with
  | zero => rfl
  | succ n ih =>
    have ha : a < memSize := by omega
    simp only [readBytes, memRead_inside s ha]
    rw [ih (by omega), bytesAt_succ]

/-- A read that leaves memory gives the lowest offending address (R64). -/
theorem readBytes_outside {a n : Nat} (s : State) (hn : n ≠ 0) (h : memSize < a + n) :
    readBytes a n s = .error (max a memSize) := by
  induction n generalizing a with
  | zero => exact absurd rfl hn
  | succ n ih =>
    by_cases ha : a < memSize
    · simp only [readBytes, memRead_inside s ha]
      rw [ih (by omega) (by omega)]
      simp only [Except.error.injEq]
      omega
    · simp only [readBytes, memRead_outside s (Nat.not_lt.mp ha), Except.error.injEq]
      omega

/-- What a write of several bytes that stays inside memory leaves: memory alone has changed, it keeps its canonical form, and each
byte reads as written or as before (R64). -/
structure WrittenBytes (a : Nat) (l : List Byte) (s t : State) : Prop where
  frame : t = s.setMem t.mem
  canonical : Memory.wf (loadImage s.cfg) s.mem = true → Memory.wf (loadImage s.cfg) t.mem = true
  stored : ∀ k (h : k < l.length), t.readByte (a + k) = l[k]
  outside : ∀ q, (q < a ∨ a + l.length ≤ q) → t.readByte q = s.readByte q

theorem writeBytes_inside {a : Nat} {l : List Byte} (s : State) (h : l = [] ∨ a + l.length ≤ memSize) :
    ∃ t, writeBytes a l s = .ok t ∧ WrittenBytes a l s t := by
  induction l generalizing a s with
  | nil => exact ⟨s, rfl, ⟨rfl, id, fun k hk => absurd hk (Nat.not_lt_zero k), fun _ _ => rfl⟩⟩
  | cons b bs ih =>
    simp only [reduceCtorEq, List.length_cons, false_or] at h
    have ha : a < memSize := by omega
    obtain ⟨t, ht, hw⟩ := ih (a := a + 1) (s.setMem (Memory.write (loadImage s.cfg) s.mem a b)) (by omega)
    refine ⟨t, by simp only [writeBytes, memWrite_inside b s ha, ht], ?_, ?_, ?_, ?_⟩
    · rw [hw.frame]; rfl
    · exact fun hm => hw.canonical (Memory.wf_write b ha hm)
    · intro k hk
      cases k with
      | zero =>
        rw [hw.outside _ (by omega), State.readByte_write]
        simp
      | succ k =>
        have := hw.stored k (by simpa using hk)
        rw [show a + (k + 1) = a + 1 + k by omega, this]
        simp
    · intro q hq
      simp only [List.length_cons] at hq
      rw [hw.outside q (by omega), State.readByte_write, if_neg (by omega)]

theorem writeBytes_outside {a : Nat} {l : List Byte} (s : State) (hl : l ≠ []) (h : memSize < a + l.length) :
    writeBytes a l s = .error (max a memSize) := by
  induction l generalizing a s with
  | nil => exact absurd rfl hl
  | cons b bs ih =>
    simp only [List.length_cons] at h
    by_cases ha : a < memSize
    · simp only [writeBytes, memWrite_inside b s ha]
      have hbs : bs ≠ [] := by rintro rfl; simp only [List.length_nil] at h; omega
      rw [ih _ hbs (by omega)]
      simp only [Except.error.injEq]
      omega
    · simp only [writeBytes, memWrite_outside b s (Nat.not_lt.mp ha), Except.error.injEq]
      omega

/-! ### Memory accesses and the sound timer -/

theorem readBytes_setSt (a n : Nat) (s : State) (b : Byte) : readBytes a n (s.setSt b) = readBytes a n s := by
  induction n generalizing a with
  | zero => rfl
  | succ n ih => simp only [readBytes, ih]; rfl

/-- Writing bytes neither reads nor writes `ST`. -/
theorem writeBytes_setSt (a : Nat) (l : List Byte) (s : State) (b : Byte) :
    writeBytes a l (s.setSt b) = (writeBytes a l s).map fun t => t.setSt b := by
  induction l generalizing a s with
  | nil => rfl
  | cons c cs ih =>
    by_cases ha : a < memSize
    · simp only [writeBytes, memWrite_inside _ _ ha]
      exact ih (a + 1) (s.setMem (Memory.write (loadImage s.cfg) s.mem a c))
    · simp only [writeBytes, memWrite_outside _ _ (Nat.not_lt.mp ha)]
      rfl

/-! ### Several registers -/

@[simp] theorem regsUpTo_length (x : Reg) (s : State) : (regsUpTo x s).length = x.val + 1 := by
  simp only [regsUpTo, List.length_take, Vector.length_toList]; omega

theorem regsUpTo_getElem (x : Reg) (s : State) (k : Nat) (h : k < (regsUpTo x s).length) :
    (regsUpTo x s)[k] = s.getV ⟨k, by simp at h; omega⟩ := by
  simp [regsUpTo, State.getV]

/-- `setRegsFrom` changes the register file alone. -/
theorem setRegsFrom_frame (k : Nat) (l : List Byte) (s : State) :
    setRegsFrom k l s = { s with v := (setRegsFrom k l s).v } := by
  induction l generalizing k s with
  | nil => rfl
  | cons b bs ih =>
    simp only [setRegsFrom]
    rw [ih]
    split <;> rfl

/-- Reading a register after `setRegsFrom`. -/
theorem getV_setRegsFrom (k : Nat) (l : List Byte) (s : State) (r : Reg) :
    (setRegsFrom k l s).getV r = if h : k ≤ r.val ∧ r.val - k < l.length then l[r.val - k] else s.getV r := by
  induction l generalizing k s with
  | nil => simp [setRegsFrom]
  | cons b bs ih =>
    simp only [setRegsFrom]
    rw [ih]
    by_cases hr : r.val = k
    · have hk : k < 16 := by omega
      have hrk : r = ⟨k, hk⟩ := Fin.ext hr
      have h1 : ¬ (k + 1 ≤ r.val ∧ r.val - (k + 1) < bs.length) := by omega
      have h2 : k ≤ r.val ∧ r.val - k < (b :: bs).length := by simp only [List.length_cons]; omega
      rw [dif_neg h1, dif_pos h2, dif_pos hk, State.getV_setV, if_pos hrk]
      simp [hr]
    · have hs : (if h : k < 16 then s.setV ⟨k, h⟩ b else s).getV r = s.getV r := by
        split
        · next hk => exact State.getV_setV_ne _ _ fun e => hr (by rw [e])
        · rfl
      rw [hs]
      by_cases h1 : k + 1 ≤ r.val ∧ r.val - (k + 1) < bs.length
      · have h2 : k ≤ r.val ∧ r.val - k < (b :: bs).length := by simp only [List.length_cons]; omega
        rw [dif_pos h1, dif_pos h2]
        have : r.val - k = (r.val - (k + 1)) + 1 := by omega
        simp only [this, List.getElem_cons_succ]
      · have h2 : ¬ (k ≤ r.val ∧ r.val - k < (b :: bs).length) := by simp only [List.length_cons]; omega
        rw [dif_neg h1, dif_neg h2]

theorem setRegsFrom_setSt (k : Nat) (l : List Byte) (s : State) (b : Byte) :
    setRegsFrom k l (s.setSt b) = (setRegsFrom k l s).setSt b := by
  induction l generalizing k s with
  | nil => rfl
  | cons c cs ih =>
    simp only [setRegsFrom]
    split
    · exact ih (k + 1) (s.setV _ c)
    · exact ih (k + 1) s

/-! ### Flag and result -/

/-- `writeFlagAndResult` changes the register file alone. -/
theorem writeFlagAndResult_frame (x : Reg) (flag : Byte) (result : State → Byte) (s : State) :
    writeFlagAndResult x flag result s = { s with v := (writeFlagAndResult x flag result s).v } := by
  unfold writeFlagAndResult
  split <;> rfl

/-- A register that is neither VF nor the destination keeps its value. -/
theorem getV_writeFlagAndResult_other {x r : Reg} (flag : Byte) (result : State → Byte) (s : State) (hx : r ≠ x)
    (hf : r ≠ regF) : (writeFlagAndResult x flag result s).getV r = s.getV r := by
  unfold writeFlagAndResult
  split <;> simp [State.getV_setV, hx, hf]

/-- With `X` not VF, VF ends as the flag in every order. -/
theorem getV_writeFlagAndResult_flag {x : Reg} (flag : Byte) (result : State → Byte) (s : State) (hx : x ≠ regF) :
    (writeFlagAndResult x flag result s).getV regF = flag := by
  unfold writeFlagAndResult
  split <;> simp [State.getV_setV, Ne.symm hx]

@[simp] theorem boolByte_true : boolByte true = 1 := rfl

@[simp] theorem boolByte_false : boolByte false = 0 := rfl

/-- `writeFlagAndResult` neither reads nor writes `ST` when the result does not. -/
theorem writeFlagAndResult_setSt (x : Reg) (flag : Byte) {result : State → Byte} (s : State) (b : Byte)
    (h : ∀ u : State, result (u.setSt b) = result u) :
    writeFlagAndResult x flag result (s.setSt b) = (writeFlagAndResult x flag result s).setSt b := by
  have hr : result ((s.setSt b).setV regF flag) = result (s.setV regF flag) := h (s.setV regF flag)
  unfold writeFlagAndResult
  rw [State.setSt_cfg, hr, h s]
  split <;> rfl

/-! ### Keys -/

theorem keyOperand_of_lt {b : Byte} (h : b.toNat < 16) : keyOperand b = some ⟨b.toNat, h⟩ := dif_pos h

theorem keyOperand_of_ge {b : Byte} (h : 16 ≤ b.toNat) : keyOperand b = none := dif_neg (by omega)

/-- No key is found when all are up. -/
theorem lowestKeyDown_none {s : State} : lowestKeyDown s = none ↔ ∀ k, s.keyDown k = false := by
  simp [lowestKeyDown, List.find?_eq_none]

/-- The key found is down, and every lower key is up. -/
theorem lowestKeyDown_some {s : State} {k : Key} (h : lowestKeyDown s = some k) :
    s.keyDown k = true ∧ ∀ j : Key, j < k → s.keyDown j = false := by
  rw [lowestKeyDown, List.find?_eq_some_iff_getElem] at h
  obtain ⟨hk, n, hn, hget, hall⟩ := h
  refine ⟨hk, fun j hj => ?_⟩
  have hnk : n = k.val := by simpa using congrArg Fin.val hget
  have := hall j.val (by rw [hnk]; exact hj)
  simpa using this

/-! ### The program counter and faults -/

theorem skipIf_true (s : State) : skipIf true s = skipNext s := rfl

theorem skipIf_setSt (c : Bool) (s : State) (b : Byte) : skipIf c (s.setSt b) = (skipIf c s).setSt b := by
  cases c <;> rfl

theorem skipIf_false (s : State) : skipIf false s = s := rfl

/-- Rewinding undoes the fetch's advance. -/
theorem pc_add_two_sub_two (w : Word) : w + 2 - 2 = w := by bv_omega

/-- A fault raised in the execute phase leaves the state before the step, with the record. -/
theorem raiseFault_advancePc (cause : FaultCause) (i : Instr) (info : Nat) (s : State) :
    raiseFault cause i info (advancePc s) =
      s.setFault (some { cause := cause, pc := s.pc, opcode := some (encode i), info := info }) := by
  have h : (advancePc s).pc - 2 = s.pc := pc_add_two_sub_two s.pc
  simp only [raiseFault, takeFault, h]
  rfl

theorem fetchFault_eq (s : State) :
    fetchFault s = s.setFault (some { cause := .fetchOutOfRange, pc := s.pc, opcode := none, info := s.pc.toNat }) := rfl

end Sys2Proof.Machine
end

