-- ==== Sys2Proof/Laws/Draw.lean ====
section
/-! SUPPORT. What drawing does to each cell and to the collision flag. -/

namespace Sys2Proof.Machine

/-- Reading a cell after one is toggled. -/
theorem pixelOn_togglePixel (d : DisplayBuffer) {x y : Nat} (hx : x < 64) (hy : y < 32) (x' y' : Nat) :
    pixelOn (togglePixel d x y) x' y' = (pixelOn d x' y' ^^ decide (x' = x ∧ y' = y)) := by
  unfold pixelOn togglePixel
  rw [dif_pos hy]
  split
  · next hy' =>
    by_cases h : y' = y
    · subst h
      simp only [Vector.getElem_set_self, BitVec.getLsbD_xor, BitVec.getLsbD_twoPow, hx, and_true]
      by_cases hxx : x' = x
      · simp [hxx, hx]
      · simp [hxx, Ne.symm hxx]
    · simp [Vector.getElem_set_ne, Ne.symm h, h]
  · next hy' => simp [show ¬ y' = y by omega]

/-- Two displays that agree on the 2048 cells are equal. -/
theorem DisplayBuffer_ext {d d' : DisplayBuffer} (h : ∀ x y, x < 64 → y < 32 → pixelOn d x y = pixelOn d' x y) :
    d = d' := by
  apply Vector.ext
  intro y hy
  apply BitVec.eq_of_getLsbD_eq
  intro x hx
  have := h x y hx hy
  simpa [pixelOn, hy] using this

/-- The bit of a sprite that falls on the cell at column `x`, row `y`, for the rows `l` drawn from `(x0, y0)`. -/
def rowsPixel (x0 y0 : Nat) (l : List Byte) (x y : Nat) : Bool :=
  decide (x0 ≤ x ∧ x < x0 + 8 ∧ y0 ≤ y) && ((l[y - y0]?).getD 0).getLsbD (7 - (x - x0))

/-- The first `n` columns of a row. -/
theorem drawPixel_fold (b : Byte) {x0 y n : Nat} (c : Canvas) (hn : n ≤ 8) (hx : x0 + n ≤ 64) (hy : y < 32) :
    (∀ x' y', pixelOn ((List.range n).foldl (drawPixel b x0 y) c).cells x' y' =
      (pixelOn c.cells x' y' ^^ (decide (y' = y ∧ x0 ≤ x' ∧ x' < x0 + n) && b.getLsbD (7 - (x' - x0))))) ∧
    (((List.range n).foldl (drawPixel b x0 y) c).hit = true ↔
      c.hit = true ∨ ∃ k < n, b.getLsbD (7 - k) = true ∧ pixelOn c.cells (x0 + k) y = true) := by
  induction n with
  | zero =>
    refine ⟨fun x' y' => ?_, by simp⟩
    have : ¬ (y' = y ∧ x0 ≤ x' ∧ x' < x0 + 0) := by omega
    rw [show decide (y' = y ∧ x0 ≤ x' ∧ x' < x0 + 0) = false from decide_eq_false this]
    simp
  | succ n ih =>
    obtain ⟨ihc, ihh⟩ := ih (by omega) (by omega)
    rw [List.range_succ, List.foldl_append]
    generalize (List.range n).foldl (drawPixel b x0 y) c = c' at ihc ihh ⊢
    simp only [List.foldl_cons, List.foldl_nil, drawPixel]
    have hfresh : pixelOn c'.cells (x0 + n) y = pixelOn c.cells (x0 + n) y := by
      rw [ihc]; simp
    cases hb : b.getLsbD (7 - n) with
    | false =>
      simp only [Bool.false_eq_true, if_false]
      refine ⟨fun x' y' => ?_, ?_⟩
      · rw [ihc]
        by_cases hlast : x' = x0 + n
        · subst hlast
          simp [hb]
        · congr 2
          simp only [decide_eq_decide]
          omega
      · rw [ihh]
        constructor
        · rintro (h | ⟨k, hk, h⟩)
          · exact .inl h
          · exact .inr ⟨k, by omega, h⟩
        · rintro (h | ⟨k, hk, h⟩)
          · exact .inl h
          · refine .inr ⟨k, ?_, h⟩
            rcases Nat.lt_or_ge k n with hlt | hge
            · exact hlt
            · have : k = n := by omega
              subst this
              simp [hb] at h
    | true =>
      simp only [if_true]
      refine ⟨fun x' y' => ?_, ?_⟩
      · rw [pixelOn_togglePixel _ (by omega) hy, ihc]
        by_cases hlast : x' = x0 + n
        · subst hlast
          have h1 : ¬ (y' = y ∧ x0 ≤ x0 + n ∧ x0 + n < x0 + n) := by omega
          simp [hb]
        · have h1 : ¬ (x' = x0 + n ∧ y' = y) := fun h => hlast h.1
          simp only [h1, decide_false, Bool.xor_false]
          congr 2
          simp only [decide_eq_decide]
          omega
      · simp only [Bool.or_eq_true, ihh, hfresh]
        constructor
        · rintro ((h | ⟨k, hk, h⟩) | h)
          · exact .inl h
          · exact .inr ⟨k, by omega, h⟩
          · exact .inr ⟨n, by omega, hb, h⟩
        · rintro (h | ⟨k, hk, h⟩)
          · exact .inl (.inl h)
          · rcases Nat.lt_or_ge k n with hlt | hge
            · exact .inl (.inr ⟨k, hlt, h⟩)
            · have : k = n := by omega
              subst this
              exact .inr h.2

/-- Drawing rows toggles exactly the cells under a sprite bit of 1, and hits exactly when one of those cells was on. -/
theorem drawRows_spec {x0 y0 : Nat} {l : List Byte} (c : Canvas) (hx : x0 < 64) (hy : y0 + l.length ≤ 32) :
    (∀ x y, x < 64 → pixelOn (drawRows x0 y0 l c).cells x y = (pixelOn c.cells x y ^^ rowsPixel x0 y0 l x y)) ∧
    ((drawRows x0 y0 l c).hit = true ↔
      c.hit = true ∨ ∃ x < 64, ∃ y, rowsPixel x0 y0 l x y = true ∧ pixelOn c.cells x y = true) := by
  induction l generalizing y0 c with
  | nil => simp [drawRows, rowsPixel]
  | cons b bs ih =>
    simp only [List.length_cons] at hy
    obtain ⟨hc, hh⟩ := drawPixel_fold b (x0 := x0) (y := y0) (n := columnsDrawn x0) c (by unfold columnsDrawn; omega)
      (by unfold columnsDrawn; omega) (by omega)
    obtain ⟨ihc, ihh⟩ := ih (y0 := y0 + 1) (drawRow b x0 y0 c) (by omega)
    have hrow : ∀ x y, x < 64 → (rowsPixel x0 y0 (b :: bs) x y =
        ((decide (y = y0 ∧ x0 ≤ x ∧ x < x0 + columnsDrawn x0) && b.getLsbD (7 - (x - x0))) ^^
          rowsPixel x0 (y0 + 1) bs x y)) := by
      intro x y hx64
      unfold rowsPixel columnsDrawn
      by_cases hy0 : y = y0
      · subst hy0
        have h1 : ¬ (x0 ≤ x ∧ x < x0 + 8 ∧ y + 1 ≤ y) := by omega
        have h2 : (x0 ≤ x ∧ x < x0 + 8 ∧ y ≤ y) ↔ (y = y ∧ x0 ≤ x ∧ x < x0 + min 8 (64 - x0)) := by omega
        simp only [h1, decide_false, Bool.false_and, Bool.xor_false, Nat.sub_self, List.getElem?_cons_zero,
          Option.getD_some, decide_eq_decide.mpr h2]
      · have h1 : ¬ (y = y0 ∧ x0 ≤ x ∧ x < x0 + min 8 (64 - x0)) := fun h => hy0 h.1
        simp only [h1, decide_false, Bool.false_and, Bool.false_xor]
        by_cases hlt : y0 + 1 ≤ y
        · have h3 : y - y0 = (y - (y0 + 1)) + 1 := by omega
          rw [h3, List.getElem?_cons_succ]
          congr 2
          simp only [eq_iff_iff]
          omega
        · have h4 : ¬ (x0 ≤ x ∧ x < x0 + 8 ∧ y0 ≤ y) := by omega
          have h5 : ¬ (x0 ≤ x ∧ x < x0 + 8 ∧ y0 + 1 ≤ y) := by omega
          rw [decide_eq_false h4, decide_eq_false h5]
          rfl
    refine ⟨fun x y hx64 => ?_, ?_⟩
    · simp only [drawRows]
      rw [ihc x y hx64, hrow x y hx64, ← Bool.xor_assoc]
      congr 1
      exact hc x y
    · simp only [drawRows]
      rw [ihh]
      have hh' : (drawRow b x0 y0 c).hit = true ↔ c.hit = true ∨
          ∃ k < columnsDrawn x0, b.getLsbD (7 - k) = true ∧ pixelOn c.cells (x0 + k) y0 = true := hh
      have hc' : ∀ x y, pixelOn (drawRow b x0 y0 c).cells x y = (pixelOn c.cells x y ^^
          (decide (y = y0 ∧ x0 ≤ x ∧ x < x0 + columnsDrawn x0) && b.getLsbD (7 - (x - x0)))) := hc
      rw [hh']
      constructor
      · rintro ((h | ⟨k, hk, hb, hp⟩) | ⟨x, hx64, y, hs, hp⟩)
        · exact .inl h
        · have hk' : k < 8 ∧ x0 + k < 64 := by unfold columnsDrawn at hk; omega
          refine .inr ⟨x0 + k, hk'.2, y0, ?_, hp⟩
          unfold rowsPixel
          have : x0 ≤ x0 + k ∧ x0 + k < x0 + 8 ∧ y0 ≤ y0 := by omega
          simp [this, hb]
        · have hy1 : y0 + 1 ≤ y := by
            unfold rowsPixel at hs
            simp only [Bool.and_eq_true, decide_eq_true_eq] at hs
            exact hs.1.2.2
          rw [hc', show decide (y = y0 ∧ x0 ≤ x ∧ x < x0 + columnsDrawn x0) = false by simp; omega] at hp
          refine .inr ⟨x, hx64, y, ?_, by simpa using hp⟩
          rw [hrow x y hx64, hs]
          simp; omega
      · rintro (h | ⟨x, hx64, y, hs, hp⟩)
        · exact .inl (.inl h)
        · by_cases hy0 : y = y0
          · subst hy0
            unfold rowsPixel at hs
            simp only [Nat.sub_self, List.getElem?_cons_zero, Option.getD_some, Bool.and_eq_true,
              decide_eq_true_eq] at hs
            refine .inl (.inr ⟨x - x0, by unfold columnsDrawn; omega, hs.2, ?_⟩)
            rw [show x0 + (x - x0) = x by omega]
            exact hp
          · rw [hrow x y hx64, show decide (y = y0 ∧ x0 ≤ x ∧ x < x0 + columnsDrawn x0) = false by simp [hy0]] at hs
            refine .inr ⟨x, hx64, y, by simpa using hs, ?_⟩
            rw [hc', show decide (y = y0 ∧ x0 ≤ x ∧ x < x0 + columnsDrawn x0) = false by simp [hy0]]
            simpa using hp

end Sys2Proof.Machine
end

