-- ==== Sys2Proof/Laws/Step.lean ====
section
/-! SUPPORT. What one step can do. -/

namespace Sys2Proof.Machine

theorem stepEnabled_iff {s : State} : stepEnabled s = true ↔ s.lifecycle = .running ∧ s.fault = none := by
  simp [stepEnabled]

theorem step_of_disabled {s : State} (h : stepEnabled s = false) : step s = .next s := by
  simp [step, h]

theorem step_of_fetch {s : State} (he : stepEnabled s = true) (hp : s.pc.toNat ≤ 4094) :
    step s = exec (decodeWord (fetchWord s)) (advancePc s) := by
  simp [step, he, fetchInRange, hp]

theorem step_of_fetch_fault {s : State} (he : stepEnabled s = true) (hp : 4094 < s.pc.toNat) :
    step s = .next (fetchFault s) := by
  simp [step, he, fetchInRange, Nat.not_le.mpr hp]

/-- A step is one of three: not enabled and nothing changes; a fetch fault; or the execute phase of the decoded word after the
advance of `PC`. -/
theorem step_cases {s : State} {r : Result} (h : step s = r) :
    (stepEnabled s = false ∧ r = .next s) ∨
    (stepEnabled s = true ∧ 4094 < s.pc.toNat ∧ r = .next (fetchFault s)) ∨
    (stepEnabled s = true ∧ s.pc.toNat ≤ 4094 ∧ r = exec (decodeWord (fetchWord s)) (advancePc s)) := by
  subst h
  cases he : stepEnabled s with
  | false => exact .inl ⟨rfl, step_of_disabled he⟩
  | true =>
    rcases Nat.lt_or_ge 4094 s.pc.toNat with hp | hp
    · exact .inr (.inl ⟨rfl, hp, step_of_fetch_fault he hp⟩)
    · exact .inr (.inr ⟨rfl, hp, step_of_fetch he hp⟩)

/-- `withFetchWord` stores the word where the next step fetches it. -/
theorem fetchWord_withFetchWord {s : State} (nbits w : Nat) (hp : s.pc.toNat ≤ 4094) :
    fetchWord (s.withFetchWord nbits w) = tableWord nbits w := by
  have hne : s.pc.toNat ≠ s.pc.toNat + 1 := by omega
  have hpc : (s.withFetchWord nbits w).pc = s.pc := by
    simp [State.withFetchWord, placeWordAtPc, fetchInRange, hp]
  have h0 : (s.withFetchWord nbits w).readByte s.pc.toNat = highByte (tableWord nbits w) := by
    simp only [State.withFetchWord, placeWordAtPc, fetchInRange, hp, decide_true, if_true, State.readByte,
      State.setMem_cfg, State.setMem_mem]
    rw [Memory.read_write_ne _ _ hne, Memory.read_write_same]
  have h1 : (s.withFetchWord nbits w).readByte (s.pc.toNat + 1) = lowByte (tableWord nbits w) := by
    simp only [State.withFetchWord, placeWordAtPc, fetchInRange, hp, decide_true, if_true, State.readByte,
      State.setMem_cfg, State.setMem_mem]
    rw [Memory.read_write_same]
  rw [fetchWord, hpc, h0, h1]
  exact BitVec.eq_of_toNat_eq (by
    have := (tableWord nbits w).isLt
    simp only [wordOfBytes, highByte, lowByte, BitVec.toNat_ofNat]
    omega)

end Sys2Proof.Machine
end

