-- ==== Sys2Proof/Laws/Frames.lean ====
section
/-! SUPPORT. Frames of the shared operations, and words from their numbers. -/

namespace Sys2Proof.Machine

theorem Frame.refl (m : MayChange) (s : State) : Frame m s s :=
  ⟨fun _ _ => rfl, fun _ _ => rfl, fun _ => rfl, fun _ => rfl, fun _ => rfl, fun _ => rfl, fun _ => rfl, fun _ => rfl,
    fun _ => rfl, fun _ => rfl, rfl, rfl, rfl⟩

/-- A write of one register is framed by any set of registers that holds it. -/
theorem frame_setV {m : MayChange} (s : State) {x : Reg} (b : Byte) (h : m.regs x) : Frame m s (s.setV x b) where
  regs _ hr := State.getV_setV_ne s b fun e => hr (e ▸ h)
  mem _ _ := rfl
  i _ := rfl
  stack _ := rfl
  display _ := rfl
  drawPending _ := rfl
  dt _ := rfl
  st _ := rfl
  fault _ := rfl
  draws _ := rfl
  keys := rfl
  lifecycle := rfl
  cfg := rfl

/-- The frame of writing a flag and a result. -/
theorem frame_writeFlagAndResult (x : Reg) (flag : Byte) (result : State → Byte) (s : State) :
    Frame (.regAndFlag x) s (writeFlagAndResult x flag result s) := by
  have h := writeFlagAndResult_frame x flag result s
  constructor
  case regs =>
    intro r hr
    simp only [MayChange.regAndFlag, not_or] at hr
    exact getV_writeFlagAndResult_other flag result s hr.1 hr.2
  all_goals intros; rw [h]
  all_goals rfl

/-- `writeFlagAndResult` leaves `PC` alone. -/
theorem writeFlagAndResult_pc (x : Reg) (flag : Byte) (result : State → Byte) (s : State) :
    (writeFlagAndResult x flag result s).pc = s.pc := by
  rw [writeFlagAndResult_frame]

/-- `raiseFault` as the claims write it. -/
theorem raiseFault_eq_faulted (cause : FaultCause) (i : Instr) (info : Nat) (s : State) {w : Nat}
    (h : encode i = BitVec.ofNat 16 w) : raiseFault cause i info s = faulted s cause w info := by
  simp only [raiseFault, takeFault, faulted, h]

/-- `Encodes` for a well-formed instruction whose word is known. -/
theorem encodes_of {i : Instr} {w : Nat} (hw : (encode i).toNat = w) (hd : decodeWord (encode i) = i) :
    Encodes w i := by
  refine ⟨hw, ?_⟩
  rw [← hw, BitVec.ofNat_toNat, BitVec.setWidth_eq]
  exact hd

end Sys2Proof.Machine
end

