-- ==== Sys2Proof/Laws/Exec.lean ====
section
/-! SUPPORT. What the execute phase of an instruction can do: it raises a fault, or it stays inside its frame. -/

namespace Sys2Proof.Machine

theorem next_inj {s t : State} (h : (Host.Outcome.next s : Result) = .next t) : s = t := by injection h

/-! ### Frames of one update -/

theorem frame_setPc (m : MayChange) (s : State) (w : Word) : Frame m s (s.setPc w) := by
  constructor <;> intros <;> rfl

theorem frame_setI {m : MayChange} (s : State) (w : Word) (h : m.i = true) : Frame m s (s.setI w) := by
  constructor
  case i => intro e; rw [h] at e; cases e
  all_goals intros; rfl

theorem frame_setStack {m : MayChange} (s : State) (l : List Word) (h : m.stack = true) : Frame m s (s.setStack l) := by
  constructor
  case stack => intro e; rw [h] at e; cases e
  all_goals intros; rfl

theorem frame_setDisplay {m : MayChange} (s : State) (d : DisplayBuffer) (h : m.display = true) :
    Frame m s (s.setDisplay d) := by
  constructor
  case display => intro e; rw [h] at e; cases e
  all_goals intros; rfl

theorem frame_setDrawPending {m : MayChange} (s : State) (b : Bool) (h : m.drawPending = true) :
    Frame m s (s.setDrawPending b) := by
  constructor
  case drawPending => intro e; rw [h] at e; cases e
  all_goals intros; rfl

theorem frame_setDt {m : MayChange} (s : State) (b : Byte) (h : m.dt = true) : Frame m s (s.setDt b) := by
  constructor
  case dt => intro e; rw [h] at e; cases e
  all_goals intros; rfl

theorem frame_setSt {m : MayChange} (s : State) (b : Byte) (h : m.st = true) : Frame m s (s.setSt b) := by
  constructor
  case st => intro e; rw [h] at e; cases e
  all_goals intros; rfl

theorem frame_setDraws {m : MayChange} (s : State) (n : Nat) (h : m.draws = true) : Frame m s (s.setDraws n) := by
  constructor
  case draws => intro e; rw [h] at e; cases e
  all_goals intros; rfl

theorem Frame.trans {m : MayChange} {s t u : State} (h : Frame m s t) (k : Frame m t u) : Frame m s u where
  regs r hr := (k.regs r hr).trans (h.regs r hr)
  mem a ha := (k.mem a ha).trans (h.mem a ha)
  i e := (k.i e).trans (h.i e)
  stack e := (k.stack e).trans (h.stack e)
  display e := (k.display e).trans (h.display e)
  drawPending e := (k.drawPending e).trans (h.drawPending e)
  dt e := (k.dt e).trans (h.dt e)
  st e := (k.st e).trans (h.st e)
  fault e := (k.fault e).trans (h.fault e)
  draws e := (k.draws e).trans (h.draws e)
  keys := k.keys.trans h.keys
  lifecycle := k.lifecycle.trans h.lifecycle
  cfg := k.cfg.trans h.cfg

theorem frame_writtenBytes {m : MayChange} {a : Nat} {l : List Byte} {s t : State} (w : WrittenBytes a l s t)
    (hm : ∀ q, a ≤ q → q < a + l.length → m.mem q) : Frame m s t := by
  have h := w.frame
  constructor
  case mem =>
    intro q hq
    refine w.outside q ?_
    rcases Nat.lt_or_ge q a with h1 | h1
    · exact .inl h1
    · rcases Nat.lt_or_ge q (a + l.length) with h2 | h2
      · exact absurd (hm q h1 h2) hq
      · exact .inr h2
  all_goals intros; rw [h]; try rfl

theorem frame_setRegsFrom {m : MayChange} (k : Nat) (l : List Byte) (s : State)
    (hm : ∀ r : Reg, k ≤ r.val → r.val < k + l.length → m.regs r) : Frame m s (setRegsFrom k l s) := by
  have h := setRegsFrom_frame k l s
  constructor
  case regs =>
    intro r hr
    rw [getV_setRegsFrom, dif_neg]
    intro e
    exact hr (hm r e.1 (by omega))
  all_goals intros; rw [h]; try rfl

theorem frame_skipIf (m : MayChange) (c : Bool) (s : State) : Frame m s (skipIf c s) := by
  cases c
  · exact Frame.refl m s
  · exact frame_setPc m s _

/-! ### One lemma for every instruction -/

/-- What each instruction may change besides `PC` (10_state.md R38). -/
def mayChange (i : Instr) (s : State) : MayChange :=
  match i with
  | .cls => { display := true }
  | .ret | .call _ => { stack := true }
  | .ldImm x _ | .addImm x _ | .ldReg x _ | .orReg x _ | .andReg x _ | .xorReg x _ => .reg x
  | .addReg x _ | .subReg x _ | .shrReg x _ | .subnReg x _ | .shlReg x _ => .regAndFlag x
  | .ldI _ | .ldFont _ => { i := true }
  | .rnd x _ => { regs := fun r => r = x, draws := true }
  | .drw _ _ _ => { regs := fun r => r = regF, display := true, drawPending := true }
  | .ldVxDt x | .waitKey x => .reg x
  | .ldDt _ => { dt := true }
  | .ldSt _ => { st := true }
  | .addI _ => { i := true, regs := fun r => r = regF ∧ s.cfg.compatMode = .modernShift }
  | .bcd _ => { mem := fun a => s.i.toNat ≤ a ∧ a < s.i.toNat + 3 }
  | .storeRegs x => { i := true, mem := fun a => s.i.toNat ≤ a ∧ a < s.i.toNat + (x.val + 1) }
  | .loadRegs x => { i := true, regs := fun r => r.val ≤ x.val }
  | _ => .nothing

/-- Why the execute phase of `i` raises a fault, and with what information (60_exceptions.md R201 to R205). -/
def FaultReason (cause : FaultCause) (i : Instr) (info : Nat) (s : State) : Prop :=
  match cause with
  | .stackOverflow => (∃ nnn, i = .call nnn) ∧ s.cfg.stackCapacity ≤ s.stack.length ∧ info = s.stack.length
  | .stackUnderflow => i = .ret ∧ s.stack = [] ∧ info = 0
  | .fetchOutOfRange => False
  | .memoryOutOfRange =>
    ((∃ x y n, i = .drw x y n ∧ 0 < rowsDrawn n (anchorRow (s.getV y)) ∧
        memSize < s.i.toNat + rowsDrawn n (anchorRow (s.getV y))) ∨
      (∃ x, i = .bcd x ∧ memSize < s.i.toNat + 3) ∨
      ∃ x : Reg, (i = .storeRegs x ∨ i = .loadRegs x) ∧ memSize < s.i.toNat + (x.val + 1)) ∧
    info = max s.i.toNat memSize
  | .keyIndexOutOfRange => ∃ x, (i = .skp x ∨ i = .sknp x) ∧ 15 < (s.getV x).toNat ∧ info = (s.getV x).toNat

/-- The execute phase raises a fault or stays inside the frame of the instruction. -/
def Effect (i : Instr) (s t : State) : Prop :=
  Frame (mayChange i s) s t ∨ ∃ cause info, t = raiseFault cause i info s ∧ FaultReason cause i info s

theorem effect_ret {s t : State} (h : execRet s = .next t) : Effect .ret s t := by
  unfold execRet at h
  cases hs : s.stack with
  | nil =>
    rw [popWord_of_nil hs] at h
    exact .inr ⟨_, _, (next_inj h).symm, rfl, hs, by simp [State.sp, hs]⟩
  | cons w rest =>
    rw [popWord_of_cons hs] at h
    rw [← next_inj h]
    exact .inl ((frame_setStack s rest rfl).trans (frame_setPc _ _ w))

theorem effect_call {nnn : Addr} {s t : State} (h : execCall nnn s = .next t) : Effect (.call nnn) s t := by
  unfold execCall at h
  rcases Nat.lt_or_ge s.stack.length s.cfg.stackCapacity with hs | hs
  · rw [pushWord_of_room hs] at h
    rw [← next_inj h]
    exact .inl ((frame_setStack s _ rfl).trans (frame_setPc _ _ _))
  · rw [pushWord_of_full hs] at h
    exact .inr ⟨_, _, (next_inj h).symm, ⟨nnn, rfl⟩, hs, rfl⟩

theorem effect_drw {x y : Reg} {n : Nibble} {s t : State} (h : execDrw x y n s = .next t) :
    Effect (.drw x y n) s t := by
  simp only [execDrw] at h
  rcases Nat.eq_zero_or_pos (rowsDrawn n (anchorRow (s.getV y))) with hz | hp
  · rw [readBytes_inside s (.inl hz)] at h
    rw [← next_inj h]
    exact .inl (((frame_setDisplay s _ rfl).trans (frame_setV _ _ rfl)).trans (frame_setDrawPending _ _ rfl))
  · rcases Nat.lt_or_ge memSize (effectiveAddr s 0 + rowsDrawn n (anchorRow (s.getV y))) with ho | hi
    · rw [readBytes_outside s (by omega) ho] at h
      exact .inr ⟨_, _, (next_inj h).symm, .inl ⟨x, y, n, rfl, hp, ho⟩, rfl⟩
    · rw [readBytes_inside s (.inr hi)] at h
      rw [← next_inj h]
      exact .inl (((frame_setDisplay s _ rfl).trans (frame_setV _ _ rfl)).trans (frame_setDrawPending _ _ rfl))

theorem effect_skp {x : Reg} {s t : State} (h : execSkp x s = .next t) : Effect (.skp x) s t := by
  unfold execSkp at h
  rcases Nat.lt_or_ge (s.getV x).toNat 16 with hx | hx
  · rw [keyOperand_of_lt hx] at h
    rw [← next_inj h]
    exact .inl (frame_skipIf _ _ s)
  · rw [keyOperand_of_ge hx] at h
    exact .inr ⟨_, _, (next_inj h).symm, x, .inl rfl, by omega, rfl⟩

theorem effect_sknp {x : Reg} {s t : State} (h : execSknp x s = .next t) : Effect (.sknp x) s t := by
  unfold execSknp at h
  rcases Nat.lt_or_ge (s.getV x).toNat 16 with hx | hx
  · rw [keyOperand_of_lt hx] at h
    rw [← next_inj h]
    exact .inl (frame_skipIf _ _ s)
  · rw [keyOperand_of_ge hx] at h
    exact .inr ⟨_, _, (next_inj h).symm, x, .inr rfl, by omega, rfl⟩

theorem effect_waitKey {x : Reg} {s t : State} (h : execWaitKey x s = .next t) : Effect (.waitKey x) s t := by
  unfold execWaitKey at h
  cases hk : lowestKeyDown s with
  | none => rw [hk] at h; rw [← next_inj h]; exact .inl (frame_setPc _ s _)
  | some k => rw [hk] at h; rw [← next_inj h]; exact .inl (frame_setV s _ rfl)

theorem effect_addI {x : Reg} {s t : State} (h : execAddI x s = .next t) : Effect (.addI x) s t := by
  simp only [execAddI] at h
  cases hm : s.cfg.compatMode with
  | legacyShift => rw [hm] at h; rw [← next_inj h]; exact .inl (frame_setI s _ rfl)
  | modernShift =>
    rw [hm] at h
    rw [← next_inj h]
    exact .inl ((frame_setI s _ rfl).trans (frame_setV _ _ ⟨rfl, hm⟩))

theorem effect_bcd {x : Reg} {s t : State} (h : execBcd x s = .next t) : Effect (.bcd x) s t := by
  unfold execBcd at h
  have hne : decimalDigits (s.getV x) ≠ [] := List.cons_ne_nil _ _
  rcases Nat.lt_or_ge memSize (effectiveAddr s 0 + (decimalDigits (s.getV x)).length) with ho | hi
  · rw [writeBytes_outside s hne ho] at h
    exact .inr ⟨_, _, (next_inj h).symm, .inr (.inl ⟨x, rfl, ho⟩), rfl⟩
  · obtain ⟨u, hu, hw⟩ := writeBytes_inside s (.inr hi)
    rw [hu] at h
    rw [← next_inj h]
    exact .inl (frame_writtenBytes hw fun q h1 h2 => ⟨h1, h2⟩)

theorem effect_storeRegs {x : Reg} {s t : State} (h : execStoreRegs x s = .next t) : Effect (.storeRegs x) s t := by
  unfold execStoreRegs at h
  rcases Nat.lt_or_ge memSize (effectiveAddr s 0 + (regsUpTo x s).length) with ho | hi
  · have hne : regsUpTo x s ≠ [] := fun e => by have := congrArg List.length e; simp at this
    rw [writeBytes_outside s hne ho] at h
    rw [regsUpTo_length] at ho
    exact .inr ⟨_, _, (next_inj h).symm, .inr (.inr ⟨x, .inl rfl, ho⟩), rfl⟩
  · obtain ⟨u, hu, hw⟩ := writeBytes_inside s (.inr hi)
    rw [hu] at h
    rw [← next_inj h]
    have hf : Frame (mayChange (.storeRegs x) s) s u :=
      frame_writtenBytes hw fun q h1 h2 => ⟨h1, by rw [regsUpTo_length] at h2; exact h2⟩
    exact .inl (hf.trans (frame_setI _ _ rfl))

theorem effect_loadRegs {x : Reg} {s t : State} (h : execLoadRegs x s = .next t) : Effect (.loadRegs x) s t := by
  unfold execLoadRegs at h
  rcases Nat.lt_or_ge memSize (effectiveAddr s 0 + (x.val + 1)) with ho | hi
  · rw [readBytes_outside s (Nat.succ_ne_zero _) ho] at h
    exact .inr ⟨_, _, (next_inj h).symm, .inr (.inr ⟨x, .inr rfl, ho⟩), rfl⟩
  · rw [readBytes_inside s (.inr hi)] at h
    rw [← next_inj h]
    refine .inl ((frame_setRegsFrom 0 _ s fun r _ h2 => ?_).trans (frame_setI _ _ rfl))
    rw [bytesAt_length] at h2
    show r.val ≤ x.val
    omega

/-- Every instruction raises a fault or stays inside its frame. -/
theorem exec_effect {i : Instr} {s t : State} (h : exec i s = .next t) : Effect i s t := by
  cases i with
  | ret => exact effect_ret h
  | call nnn => exact effect_call h
  | drw x y n => exact effect_drw h
  | skp x => exact effect_skp h
  | sknp x => exact effect_sknp h
  | waitKey x => exact effect_waitKey h
  | addI x => exact effect_addI h
  | bcd x => exact effect_bcd h
  | storeRegs x => exact effect_storeRegs h
  | loadRegs x => exact effect_loadRegs h
  | cls => rw [← next_inj h]; exact .inl (frame_setDisplay s _ rfl)
  | jp nnn => rw [← next_inj h]; exact .inl (frame_setPc _ s _)
  | jpOff nnn => rw [← next_inj h]; exact .inl (frame_setPc _ s _)
  | seImm x nn => rw [← next_inj h]; exact .inl (frame_skipIf _ _ s)
  | sneImm x nn => rw [← next_inj h]; exact .inl (frame_skipIf _ _ s)
  | seReg x y => rw [← next_inj h]; exact .inl (frame_skipIf _ _ s)
  | sneReg x y => rw [← next_inj h]; exact .inl (frame_skipIf _ _ s)
  | ldImm x nn => rw [← next_inj h]; exact .inl (frame_setV s _ rfl)
  | addImm x nn => rw [← next_inj h]; exact .inl (frame_setV s _ rfl)
  | ldReg x y => rw [← next_inj h]; exact .inl (frame_setV s _ rfl)
  | orReg x y => rw [← next_inj h]; exact .inl (frame_setV s _ rfl)
  | andReg x y => rw [← next_inj h]; exact .inl (frame_setV s _ rfl)
  | xorReg x y => rw [← next_inj h]; exact .inl (frame_setV s _ rfl)
  | addReg x y => rw [← next_inj h]; exact .inl (frame_writeFlagAndResult x _ _ s)
  | subReg x y => rw [← next_inj h]; exact .inl (frame_writeFlagAndResult x _ _ s)
  | shrReg x y => rw [← next_inj h]; exact .inl (frame_writeFlagAndResult x _ _ s)
  | subnReg x y => rw [← next_inj h]; exact .inl (frame_writeFlagAndResult x _ _ s)
  | shlReg x y => rw [← next_inj h]; exact .inl (frame_writeFlagAndResult x _ _ s)
  | ldI nnn => rw [← next_inj h]; exact .inl (frame_setI s _ rfl)
  | ldFont x => rw [← next_inj h]; exact .inl (frame_setI s _ rfl)
  | rnd x nn => rw [← next_inj h]; exact .inl ((frame_setV s _ rfl).trans (frame_setDraws _ _ rfl))
  | ldVxDt x => rw [← next_inj h]; exact .inl (frame_setV s _ rfl)
  | ldDt x => rw [← next_inj h]; exact .inl (frame_setDt s _ rfl)
  | ldSt x => rw [← next_inj h]; exact .inl (frame_setSt s _ rfl)
  | unassigned0 nnn => rw [← next_inj h]; exact .inl (Frame.refl _ s)
  | unassigned5 x y n => rw [← next_inj h]; exact .inl (Frame.refl _ s)
  | unassigned8 x y n => rw [← next_inj h]; exact .inl (Frame.refl _ s)
  | unassigned9 x y n => rw [← next_inj h]; exact .inl (Frame.refl _ s)
  | unassignedE x nn => rw [← next_inj h]; exact .inl (Frame.refl _ s)
  | unassignedF x nn => rw [← next_inj h]; exact .inl (Frame.refl _ s)

end Sys2Proof.Machine
end

