-- ==== Sys2Proof/Laws/HostOps.lean ====
section
/-! SUPPORT. What the operations of the environment do, and what memory reads as right after a load. -/

namespace Sys2Proof.Machine

/-! ### The load image -/

theorem loadImage_font (c : Config) {a : Nat} (h : a < 80) : loadImage c a = c.font[a] := dif_pos h

theorem loadImage_rom (c : Config) {k : Nat} (h : k < c.rom.length) : loadImage c (progBase + k) = c.rom[k] := by
  have h1 : ¬ progBase + k < 80 := by unfold progBase; omega
  have h2 : progBase ≤ progBase + k ∧ progBase + k - progBase < c.rom.length := by omega
  rw [loadImage, dif_neg h1, dif_pos h2]
  simp

theorem loadImage_fill (c : Config) {a : Nat} (hf : 80 ≤ a) (h : a < progBase ∨ progBase + c.rom.length ≤ a) :
    loadImage c a = lookupCell 0 c.memFill a := by
  have h1 : ¬ a < 80 := by omega
  have h2 : ¬ (progBase ≤ a ∧ a - progBase < c.rom.length) := by omega
  rw [loadImage, dif_neg h1, dif_neg h2]

/-- Right after a load, memory reads as the load image. -/
@[simp] theorem State.loaded_readByte (c : Config) (n a : Nat) : (State.loaded c n).readByte a = loadImage c a := rfl

@[simp] theorem State.loaded_getV (c : Config) (n : Nat) (r : Reg) : (State.loaded c n).getV r = 0 := by
  simp [State.getV, State.loaded]

/-! ### Load and reset -/

theorem load_ok {rom : List Byte} (mode : CompatMode) (fill : List Host.Cell) (s : State) (h : rom.length ≤ romMax) :
    load (.bytes rom) mode fill s =
      (.ok, State.loaded { s.cfg with compatMode := mode, rom := rom, memFill := fill } s.draws) := if_pos h

theorem load_too_large {rom : List Byte} (mode : CompatMode) (fill : List Host.Cell) (s : State)
    (h : romMax < rom.length) : load (.bytes rom) mode fill s = (.romTooLarge, s) := if_neg (Nat.not_le.mpr h)

theorem hostReset_active {s : State} (h : s.lifecycle = .running ∨ s.lifecycle = .paused) :
    hostReset s = (State.loaded s.cfg s.draws).setMem (if s.cfg.resetKeepsMem then s.mem else []) := if_pos h

theorem hostReset_inactive {s : State} (h : ¬ (s.lifecycle = .running ∨ s.lifecycle = .paused)) : hostReset s = s :=
  if_neg h

/-! ### Timers -/

theorem tickTimers_running {s : State} (h : s.lifecycle = .running) :
    tickTimers s = (s.setDt (tickTimer s.dt)).setSt (tickTimer s.st) := if_pos h

theorem tickTimers_other {s : State} (h : s.lifecycle ≠ .running) : tickTimers s = s := if_neg h

theorem tickTimer_toNat (b : Byte) : (tickTimer b).toNat = b.toNat - 1 := by
  revert b; decide

end Sys2Proof.Machine
end

