-- ==== Sys2Proof/Laws/PerInstr.lean ====
section
/-! SUPPORT. The per-instruction family RoundTrip: one lemma per constructor of Instr (LAWS.json). -/

namespace Sys2Proof.Laws.RoundTrip

/-- Decoding the word of a well-formed instruction gives the instruction back. -/
def Statement (i : Instr) : Prop := i.wellFormed = true → decodeWord (encode i) = i

theorem cls : Statement .cls := fun _ => by decide

theorem ret : Statement .ret := fun _ => by decide

theorem jp (nnn : Addr) : Statement (.jp nnn) := fun _ => by
  simp only [encode, decodeWord, familyOf_wordNNN (f := 0x1) (by decide), fieldNNN_wordNNN (f := 0x1) (by decide)]

theorem call (nnn : Addr) : Statement (.call nnn) := fun _ => by
  simp only [encode, decodeWord, familyOf_wordNNN (f := 0x2) (by decide), fieldNNN_wordNNN (f := 0x2) (by decide)]

theorem seImm (x : Reg) (nn : Byte) : Statement (.seImm x nn) := fun _ => by
  simp only [encode, decodeWord, familyOf_wordXNN (f := 0x3) (by decide), fieldX_wordXNN (f := 0x3) (by decide),
    fieldNN_wordXNN (f := 0x3) (by decide)]

theorem sneImm (x : Reg) (nn : Byte) : Statement (.sneImm x nn) := fun _ => by
  simp only [encode, decodeWord, familyOf_wordXNN (f := 0x4) (by decide), fieldX_wordXNN (f := 0x4) (by decide),
    fieldNN_wordXNN (f := 0x4) (by decide)]

theorem seReg (x y : Reg) : Statement (.seReg x y) := fun _ => by
  simp [encode, decodeWord_xyn5]

theorem ldImm (x : Reg) (nn : Byte) : Statement (.ldImm x nn) := fun _ => by
  simp only [encode, decodeWord, familyOf_wordXNN (f := 0x6) (by decide), fieldX_wordXNN (f := 0x6) (by decide),
    fieldNN_wordXNN (f := 0x6) (by decide)]

theorem addImm (x : Reg) (nn : Byte) : Statement (.addImm x nn) := fun _ => by
  simp only [encode, decodeWord, familyOf_wordXNN (f := 0x7) (by decide), fieldX_wordXNN (f := 0x7) (by decide),
    fieldNN_wordXNN (f := 0x7) (by decide)]

theorem ldReg (x y : Reg) : Statement (.ldReg x y) := fun _ => by
  simp only [encode, decodeWord_xyn8]; rfl

theorem orReg (x y : Reg) : Statement (.orReg x y) := fun _ => by
  simp only [encode, decodeWord_xyn8]; rfl

theorem andReg (x y : Reg) : Statement (.andReg x y) := fun _ => by
  simp only [encode, decodeWord_xyn8]; rfl

theorem xorReg (x y : Reg) : Statement (.xorReg x y) := fun _ => by
  simp only [encode, decodeWord_xyn8]; rfl

theorem addReg (x y : Reg) : Statement (.addReg x y) := fun _ => by
  simp only [encode, decodeWord_xyn8]; rfl

theorem subReg (x y : Reg) : Statement (.subReg x y) := fun _ => by
  simp only [encode, decodeWord_xyn8]; rfl

theorem shrReg (x y : Reg) : Statement (.shrReg x y) := fun _ => by
  simp only [encode, decodeWord_xyn8]; rfl

theorem subnReg (x y : Reg) : Statement (.subnReg x y) := fun _ => by
  simp only [encode, decodeWord_xyn8]; rfl

theorem shlReg (x y : Reg) : Statement (.shlReg x y) := fun _ => by
  simp only [encode, decodeWord_xyn8]; rfl

theorem sneReg (x y : Reg) : Statement (.sneReg x y) := fun _ => by
  simp [encode, decodeWord_xyn9]

theorem ldI (nnn : Addr) : Statement (.ldI nnn) := fun _ => by
  simp only [encode, decodeWord, familyOf_wordNNN (f := 0xA) (by decide), fieldNNN_wordNNN (f := 0xA) (by decide)]

theorem jpOff (nnn : Addr) : Statement (.jpOff nnn) := fun _ => by
  simp only [encode, decodeWord, familyOf_wordNNN (f := 0xB) (by decide), fieldNNN_wordNNN (f := 0xB) (by decide)]

theorem rnd (x : Reg) (nn : Byte) : Statement (.rnd x nn) := fun _ => by
  simp only [encode, decodeWord, familyOf_wordXNN (f := 0xC) (by decide), fieldX_wordXNN (f := 0xC) (by decide),
    fieldNN_wordXNN (f := 0xC) (by decide)]

theorem drw (x y : Reg) (n : Nibble) : Statement (.drw x y n) := fun _ => by
  simp only [encode, decodeWord, familyOf_wordXYN (f := 0xD) (by decide), fieldX_wordXYN (f := 0xD) (by decide),
    fieldY_wordXYN (f := 0xD) (by decide), fieldN_wordXYN (f := 0xD) (by decide)]

theorem skp (x : Reg) : Statement (.skp x) := fun _ => by
  simp only [encode, decodeWord_xnnE]; rfl

theorem sknp (x : Reg) : Statement (.sknp x) := fun _ => by
  simp only [encode, decodeWord_xnnE]; rfl

theorem ldVxDt (x : Reg) : Statement (.ldVxDt x) := fun _ => by
  simp only [encode, decodeWord_xnnF]; rfl

theorem waitKey (x : Reg) : Statement (.waitKey x) := fun _ => by
  simp only [encode, decodeWord_xnnF]; rfl

theorem ldDt (x : Reg) : Statement (.ldDt x) := fun _ => by
  simp only [encode, decodeWord_xnnF]; rfl

theorem ldSt (x : Reg) : Statement (.ldSt x) := fun _ => by
  simp only [encode, decodeWord_xnnF]; rfl

theorem addI (x : Reg) : Statement (.addI x) := fun _ => by
  simp only [encode, decodeWord_xnnF]; rfl

theorem ldFont (x : Reg) : Statement (.ldFont x) := fun _ => by
  simp only [encode, decodeWord_xnnF]; rfl

theorem bcd (x : Reg) : Statement (.bcd x) := fun _ => by
  simp only [encode, decodeWord_xnnF]; rfl

theorem storeRegs (x : Reg) : Statement (.storeRegs x) := fun _ => by
  simp only [encode, decodeWord_xnnF]; rfl

theorem loadRegs (x : Reg) : Statement (.loadRegs x) := fun _ => by
  simp only [encode, decodeWord_xnnF]; rfl

theorem unassigned0 (nnn : Addr) : Statement (.unassigned0 nnn) := fun h => by
  simp only [Instr.wellFormed, Bool.and_eq_true, bne_iff_ne, ne_eq, ← BitVec.toNat_inj] at h
  have h0 : wordNNN 0x0 nnn ≠ 0x00E0 := fun e => by
    have := congrArg BitVec.toNat e
    rw [wordNNN_toNat (by decide)] at this
    simp at this h
    omega
  have h1 : wordNNN 0x0 nnn ≠ 0x00EE := fun e => by
    have := congrArg BitVec.toNat e
    rw [wordNNN_toNat (by decide)] at this
    simp at this h
    omega
  simp only [encode, decodeWord, familyOf_wordNNN (f := 0x0) (by decide), decodeFamily0, h0, h1, if_false,
    fieldNNN_wordNNN (f := 0x0) (by decide)]

theorem unassigned5 (x y : Reg) (n : Nibble) : Statement (.unassigned5 x y n) := fun h => by
  simp only [Instr.wellFormed, bne_iff_ne, ne_eq] at h
  simp only [encode, decodeWord_xyn5, h, if_false]

theorem unassigned8 (x y : Reg) (n : Nibble) : Statement (.unassigned8 x y n) := fun h => by
  simp only [encode, decodeWord_xyn8]
  revert h
  revert n
  simp only [Instr.wellFormed]
  decide +revert

theorem unassigned9 (x y : Reg) (n : Nibble) : Statement (.unassigned9 x y n) := fun h => by
  simp only [Instr.wellFormed, bne_iff_ne, ne_eq] at h
  simp only [encode, decodeWord_xyn9, h, if_false]

theorem unassignedE (x : Reg) (nn : Byte) : Statement (.unassignedE x nn) := fun h => by
  simp only [Instr.wellFormed, assignedE, List.contains_cons, List.contains_nil, Bool.or_false, Bool.not_eq_true',
    Bool.or_eq_false_iff, beq_eq_false_iff_ne, ne_eq] at h
  simp only [encode, decodeWord_xnnE, h.1, h.2, if_false]

theorem unassignedF (x : Reg) (nn : Byte) : Statement (.unassignedF x nn) := fun h => by
  simp only [Instr.wellFormed, assignedF, List.contains_cons, List.contains_nil, Bool.or_false, Bool.not_eq_true',
    Bool.or_eq_false_iff, beq_eq_false_iff_ne, ne_eq] at h
  simp only [encode, decodeWord_xnnF, h, if_false]

end Sys2Proof.Laws.RoundTrip
end

