-- ==== Sys2Proof/Tests/Slice0.lean ====
section
/-! SUPPORT. The model's own tests: ill-formed terms, decoding of words written out from the spec's encodings, one step per vector of
95_test_vectors.md (named by its number), and a witness for the hypotheses of each obligation that has some. -/

namespace Sys2Proof.Tests

open Sys2Proof Sys2Proof.Machine

/-! ## Well-formedness: one ill-formed term for each check -/

theorem test_illformed_unassigned0 :
    (Instr.unassigned0 0x0E0).wellFormed = false ∧ (Instr.unassigned0 0x0EE).wellFormed = false ∧
    (Instr.unassigned0 0x0E1).wellFormed = true := by decide

theorem test_illformed_unassigned5 :
    (Instr.unassigned5 1 2 0).wellFormed = false ∧ (Instr.unassigned5 1 2 1).wellFormed = true := by decide

theorem test_illformed_unassigned8 :
    (Instr.unassigned8 0 1 7).wellFormed = false ∧ (Instr.unassigned8 0 1 14).wellFormed = false ∧
    (Instr.unassigned8 0 1 8).wellFormed = true ∧ (Instr.unassigned8 0 1 15).wellFormed = true := by decide

theorem test_illformed_unassigned9 :
    (Instr.unassigned9 1 2 0).wellFormed = false ∧ (Instr.unassigned9 1 2 15).wellFormed = true := by decide

theorem test_illformed_unassignedE :
    (Instr.unassignedE 3 0x9E).wellFormed = false ∧ (Instr.unassignedE 3 0xA1).wellFormed = false ∧
    (Instr.unassignedE 3 0x9F).wellFormed = true := by decide

theorem test_illformed_unassignedF :
    ([0x07, 0x0A, 0x15, 0x18, 0x1E, 0x29, 0x33, 0x55, 0x65] : List Byte).all
      (fun nn => (Instr.unassignedF 3 nn).wellFormed == false) = true ∧
    (Instr.unassignedF 3 0x75).wellFormed = true := by decide

/-! ## Decoding: words written out bit by bit from the table of 30_encoding.md section 3 -/

theorem test_decode_family0 :
    decodeTableWord 16 0b0000000011100000 = some .cls ∧
    decodeTableWord 16 0b0000000011101110 = some .ret ∧
    decodeTableWord 16 0b0000111111111111 = some (.unassigned0 0xFFF) := by decide

theorem test_decode_jumps :
    decodeTableWord 16 0b0001101010111100 = some (.jp 0xABC) ∧
    decodeTableWord 16 0b0010101010111100 = some (.call 0xABC) ∧
    decodeTableWord 16 0b1011001100010010 = some (.jpOff 0x312) := by decide

theorem test_decode_skips :
    decodeTableWord 16 0b0011101001010111 = some (.seImm 0xA 0x57) ∧
    decodeTableWord 16 0b0100101001010111 = some (.sneImm 0xA 0x57) ∧
    decodeTableWord 16 0b0101000100100000 = some (.seReg 1 2) ∧
    decodeTableWord 16 0b0101000100100001 = some (.unassigned5 1 2 1) ∧
    decodeTableWord 16 0b1001000100100000 = some (.sneReg 1 2) ∧
    decodeTableWord 16 0b1001000100101111 = some (.unassigned9 1 2 15) := by decide

theorem test_decode_immediates :
    decodeTableWord 16 0b0110101000000101 = some (.ldImm 0xA 0x05) ∧
    decodeTableWord 16 0b0111001111111111 = some (.addImm 3 0xFF) ∧
    decodeTableWord 16 0b1010111111111111 = some (.ldI 0xFFF) ∧
    decodeTableWord 16 0b1100000100001111 = some (.rnd 1 0x0F) := by decide

theorem test_decode_family8_logic :
    decodeTableWord 16 0b1000000100100000 = some (.ldReg 1 2) ∧
    decodeTableWord 16 0b1000000100100001 = some (.orReg 1 2) ∧
    decodeTableWord 16 0b1000000100100010 = some (.andReg 1 2) ∧
    decodeTableWord 16 0b1000000100100011 = some (.xorReg 1 2) ∧
    decodeTableWord 16 0b1000000100101000 = some (.unassigned8 1 2 8) := by decide

theorem test_decode_family8_arithmetic :
    decodeTableWord 16 0b1000000100100100 = some (.addReg 1 2) ∧
    decodeTableWord 16 0b1000000100100101 = some (.subReg 1 2) ∧
    decodeTableWord 16 0b1000000100100110 = some (.shrReg 1 2) ∧
    decodeTableWord 16 0b1000000100100111 = some (.subnReg 1 2) ∧
    decodeTableWord 16 0b1000000100101110 = some (.shlReg 1 2) := by decide

theorem test_decode_familyD_E :
    decodeTableWord 16 0b1101000100100011 = some (.drw 1 2 3) ∧
    decodeTableWord 16 0b1110001110011110 = some (.skp 3) ∧
    decodeTableWord 16 0b1110001110100001 = some (.sknp 3) ∧
    decodeTableWord 16 0b1110001110011111 = some (.unassignedE 3 0x9F) := by decide

theorem test_decode_familyF :
    decodeTableWord 16 0b1111001100000111 = some (.ldVxDt 3) ∧
    decodeTableWord 16 0b1111001100001010 = some (.waitKey 3) ∧
    decodeTableWord 16 0b1111001100010101 = some (.ldDt 3) ∧
    decodeTableWord 16 0b1111001100011000 = some (.ldSt 3) ∧
    decodeTableWord 16 0b1111001100011110 = some (.addI 3) := by decide

theorem test_decode_familyF_index :
    decodeTableWord 16 0b1111001100101001 = some (.ldFont 3) ∧
    decodeTableWord 16 0b1111001100110011 = some (.bcd 3) ∧
    decodeTableWord 16 0b1111001101010101 = some (.storeRegs 3) ∧
    decodeTableWord 16 0b1111001101100101 = some (.loadRegs 3) ∧
    decodeTableWord 16 0b1111001101110101 = some (.unassignedF 3 0x75) := by decide

theorem test_decode_truncated :
    decodeBytes [0x6A] = .error .truncated ∧ decodeBytes [] = .error .truncated ∧
    decodeBytes [0x6A, 0x05, 0x12] = .ok (.ldImm 0xA 0x05, [0x12]) := by decide

/-! ## Helpers: small states and one step -/

/-- The base state of the vectors. -/
def base : State := State.reset

/-- The base state in ModernShift. -/
def modern : State := base.withMode .modernShift

/-- Write one byte of memory. -/
def poke (a : Nat) (b : Byte) (s : State) : State := s.setMem (Memory.write (loadImage s.cfg) s.mem a b)

/-- The key `k` down. -/
def press (k : Key) (s : State) : State := setKey k true s

/-- The cell `k` on. -/
def lightCell (k : Nat) (s : State) : State := s.setDisplay (togglePixel s.display (k % 64) (k / 64))

/-- The order in which VF is written. -/
def inOrder (o : VfOperandOrder) (s : State) : State := { s with cfg := { s.cfg with vfOrder := o } }

/-- The rows of the display that have a cell on, as numbers: bit `x` of row `y` is the cell `y * 64 + x`. -/
def litRows (s : State) : List (Nat × Nat) :=
  (List.range 32).filterMap fun y =>
    let row := ((s.display.toList[y]?).getD 0).toNat
    if row = 0 then none else some (y, row)

/-- What `f` reads in the next state of one step that runs the word `w`. -/
def ran {α : Type} (w : Nat) (s : State) (f : State → α) : Option α :=
  match step (s.withFetchWord 16 w) with
  | .next t => some (f t)
  | .fault _ => none
  | .refused _ => none

/-- What `f` reads in the next state of one step as the state stands. -/
def stepped {α : Type} (s : State) (f : State → α) : Option α :=
  match step s with
  | .next t => some (f t)
  | .fault _ => none
  | .refused _ => none

/-! ## Fetch and unassigned words -/

theorem test_T1_T2_T3_unassigned0 :
    ran 0x0000 base (fun t => (t.pc, t.v)) = some (0x202, base.v) ∧
    ran 0x00E1 (lightCell 3 base) (fun t => (t.pc, displayCell t.display 3)) = some (0x202, true) ∧
    ran 0x01E0 (lightCell 3 base) (fun t => (t.pc, displayCell t.display 3)) = some (0x202, true) := by decide

theorem test_T5_T8_unassigned5_9 :
    ran 0x5121 ((base.setV 1 7).setV 2 7) State.pc = some 0x202 ∧
    ran 0x9121 ((base.setV 1 1).setV 2 2) State.pc = some 0x202 := by decide

theorem test_T6_T7_unassigned8 :
    ran 0x8018 ((base.setV 0 1).setV 1 2) (fun t => (t.getV 0, t.getV 1, t.getV 15, t.pc)) = some (1, 2, 0, 0x202) ∧
    ran 0x801F ((base.setV 0 1).setV 1 2) (fun t => (t.getV 0, t.getV 1, t.getV 15, t.pc)) = some (1, 2, 0, 0x202) := by
  decide

theorem test_T9_T10_unassignedE_F :
    ran 0xE09F (base.setV 0 16) (fun t => (t.pc, t.fault)) = some (0x202, none) ∧
    ran 0xF075 base State.pc = some 0x202 ∧ ran 0xF1FF base State.pc = some 0x202 := by decide

theorem test_T11_odd_pc :
    stepped ((poke 0x202 0x05 (poke 0x201 0x6A base)).setPc 0x201) (fun t => (t.getV 10, t.pc)) = some (5, 0x203) := by
  decide

theorem test_T12_T13_fetch_edge :
    stepped ((poke 0xFFF 0x05 (poke 0xFFE 0x6A base)).setPc 0xFFE) (fun t => (t.getV 10, t.pc)) = some (5, 0x1000) ∧
    stepped (base.setPc 0xFFF) (fun t => (t.fault, t.pc)) =
      some (some ⟨.fetchOutOfRange, 0xFFF, none, 0xFFF⟩, 0xFFF) := by decide

/-! ## Families 0 to 2 -/

theorem test_T20_cls :
    ran 0x00E0 (lightCell 2047 (lightCell 5 (lightCell 0 base))) (fun t => (litRows t, t.drawPending, t.pc)) =
      some ([], false, 0x202) := by decide

theorem test_T21_ret :
    ran 0x00EE ((base.setPc 0x400).setStack [0x300, 0x2A4]) (fun t => (t.pc, t.stack)) = some (0x300, [0x2A4]) := by
  decide

theorem test_T22_ret_underflow :
    ran 0x00EE base (fun t => (t.fault, t.pc)) = some (some ⟨.stackUnderflow, 0x200, some 0x00EE, 0⟩, 0x200) := by
  decide

theorem test_T30_T31_jump :
    ran 0x1ABC base State.pc = some 0xABC ∧ ran 0x1FFF base State.pc = some 0xFFF := by decide

theorem test_T33_call :
    ran 0x2ABC ((base.setPc 0x250).setStack [0x202]) (fun t => (t.pc, t.stack, t.sp, t.stackEntry 1)) =
      some (0xABC, [0x252, 0x202], 2, some 0x252) := by decide

theorem test_T35_call_overflow :
    ran 0x2ABC ((base.setPc 0x250).setStack (List.replicate 48 0x202)) (fun t => (t.fault, t.pc, t.sp)) =
      some (some ⟨.stackOverflow, 0x250, some 0x2ABC, 48⟩, 0x250, 48) := by decide

/-! ## Skips -/

theorem test_T40_T48_skip_immediate :
    ran 0x3005 (base.setV 0 5) State.pc = some 0x204 ∧ ran 0x3006 (base.setV 0 5) State.pc = some 0x202 ∧
    ran 0x3F00 (base.setPc 0xFFE) State.pc = some 0x1002 := by decide

theorem test_T41_skip_not_immediate :
    ran 0x4005 (base.setV 0 5) State.pc = some 0x202 ∧ ran 0x4006 (base.setV 0 5) State.pc = some 0x204 := by decide

theorem test_T42_T43_T44_skip_register :
    ran 0x5120 ((base.setV 1 7).setV 2 7) State.pc = some 0x204 ∧
    ran 0x5120 ((base.setV 1 7).setV 2 8) State.pc = some 0x202 ∧
    ran 0x5330 (base.setV 3 9) State.pc = some 0x204 := by decide

theorem test_T45_T46_skip_not_register :
    ran 0x9120 ((base.setV 1 1).setV 2 2) State.pc = some 0x204 ∧
    ran 0x9120 ((base.setV 1 2).setV 2 2) State.pc = some 0x202 := by decide

/-! ## Families 6 to 8 -/

theorem test_T50_load_immediate : ran 0x6AFF base (fun t => (t.getV 10, t.pc)) = some (0xFF, 0x202) := by decide

theorem test_T51_T52_add_immediate :
    ran 0x7305 (base.setV 3 0x10) (fun t => t.getV 3) = some 0x15 ∧
    ran 0x7001 (base.setV 0 0xFF) (fun t => (t.getV 0, t.getV 15)) = some (0, 0) := by decide

theorem test_T60_copy : ran 0x8010 (base.setV 1 0x2A) (fun t => (t.getV 0, t.getV 1)) = some (0x2A, 0x2A) := by decide

theorem test_T61_or :
    ran 0x8011 (((base.setV 0 0x0F).setV 1 0xF0).setV 15 1) (fun t => (t.getV 0, t.getV 15)) = some (0xFF, 1) := by decide

theorem test_T62_and :
    ran 0x8012 (((base.setV 0 0x3C).setV 1 0x0F).setV 15 1) (fun t => (t.getV 0, t.getV 15)) = some (0x0C, 1) := by decide

theorem test_T63_xor :
    ran 0x8013 (((base.setV 0 0xFF).setV 1 0x0F).setV 15 1) (fun t => (t.getV 0, t.getV 15)) = some (0xF0, 1) := by decide

theorem test_S4_add : ran 0x8014 ((base.setV 0 10).setV 1 0xFF) (fun t => (t.getV 0, t.getV 15)) = some (9, 1) := by decide

theorem test_T80_T81_T82_add_flag_operand :
    ran 0x80F4 ((base.setV 0 0xF0).setV 15 0x20) (fun t => (t.getV 0, t.getV 15)) = some (0x10, 1) ∧
    ran 0x8F14 ((base.setV 1 0x20).setV 15 0xF0) (fun t => t.getV 15) = some 0x10 ∧
    ran 0x8FF4 (base.setV 15 0x90) (fun t => t.getV 15) = some 0x20 := by decide

theorem test_T68_T69_sub :
    ran 0x8015 ((base.setV 0 3).setV 1 10) (fun t => (t.getV 0, t.getV 15)) = some (0xF9, 0) ∧
    ran 0x8015 ((base.setV 0 7).setV 1 7) (fun t => (t.getV 0, t.getV 15)) = some (0, 1) := by decide

theorem test_T83_T85_T87_sub_flag_operand :
    ran 0x80F5 ((base.setV 0 5).setV 15 3) (fun t => (t.getV 0, t.getV 15)) = some (4, 1) ∧
    ran 0x8F15 ((base.setV 1 4).setV 15 9) (fun t => t.getV 15) = some 0xFD ∧
    ran 0x8FF5 (base.setV 15 9) (fun t => t.getV 15) = some 0 := by decide

theorem test_T70_T71_reverse_sub :
    ran 0x8017 ((base.setV 0 3).setV 1 10) (fun t => (t.getV 0, t.getV 15)) = some (7, 1) ∧
    ran 0x8017 ((base.setV 0 10).setV 1 3) (fun t => (t.getV 0, t.getV 15)) = some (0xF9, 0) := by decide

theorem test_T88_T90_T91_reverse_sub_flag_operand :
    ran 0x80F7 ((base.setV 0 5).setV 15 9) (fun t => (t.getV 0, t.getV 15)) = some (0xFC, 1) ∧
    ran 0x8F17 ((base.setV 1 9).setV 15 4) (fun t => t.getV 15) = some 8 ∧
    ran 0x8F17 ((base.setV 1 4).setV 15 9) (fun t => t.getV 15) = some 4 := by decide

theorem test_S7_shift_right :
    ran 0x8016 (base.setV 1 6) (fun t => (t.getV 0, t.getV 15)) = some (3, 0) ∧
    ran 0x8016 ((base.setV 0 6).setV 1 0xFF) (fun t => (t.getV 0, t.getV 15)) = some (0x7F, 1) ∧
    ran 0x8016 ((modern.setV 0 6).setV 1 0xFF) (fun t => (t.getV 0, t.getV 15)) = some (3, 0) := by decide

theorem test_T93_T94_T95_shift_right_flag_operand :
    ran 0x80F6 ((base.setV 0 6).setV 15 3) (fun t => (t.getV 0, t.getV 15)) = some (0, 1) ∧
    ran 0x8F16 ((base.setV 1 7).setV 15 3) (fun t => t.getV 15) = some 3 ∧
    ran 0x8FF6 (modern.setV 15 3) (fun t => t.getV 15) = some 0 := by decide

theorem test_T73_shift_left :
    ran 0x801E ((base.setV 0 0x81).setV 1 0x40) (fun t => (t.getV 0, t.getV 15)) = some (0x80, 0) ∧
    ran 0x801E ((modern.setV 0 0x81).setV 1 0x40) (fun t => (t.getV 0, t.getV 15)) = some (0x02, 1) := by decide

theorem test_T96_T97_T98_shift_left_flag_operand :
    ran 0x80FE ((base.setV 0 0x41).setV 15 0x83) (fun t => (t.getV 0, t.getV 15)) = some (2, 1) ∧
    ran 0x8F1E ((base.setV 1 0x41).setV 15 0x83) (fun t => t.getV 15) = some 0x82 ∧
    ran 0x8F1E ((modern.setV 1 0x41).setV 15 0x83) (fun t => t.getV 15) = some 2 := by decide

/-! ## Families A to D -/

theorem test_T100_load_index : ran 0xAFFF (base.setI 0x123) (fun t => (t.i, t.pc)) = some (0xFFF, 0x202) := by decide

theorem test_T102_T103_jump_offset :
    ran 0xB300 ((base.setV 0 4).setV 3 0x10) State.pc = some 0x304 ∧
    ran 0xB300 ((modern.setV 0 4).setV 3 0x10) State.pc = some 0x310 ∧
    ran 0xBFFF ((base.setV 0 0xFF).setV 15 0xFF) State.pc = some 0x10FE := by decide

/-- The result is masked whatever the byte drawn: only the fields the spec fixes are tested. -/
theorem test_T105_random_masked (s : State) :
    ∃ t, execRnd 1 0x00 s = .next t ∧ t.getV 1 = 0 ∧ t.draws = s.draws + 1 :=
  ⟨_, rfl, by simp [State.getV, State.setV, State.setDraws], rfl⟩

theorem test_T110_draw_collision :
    ran 0xD012 (lightCell 3 (lightCell 67 ((poke 0x301 0x0F (poke 0x300 0xF0 base)).setI 0x300)))
      (fun t => (litRows t, t.getV 15, t.drawPending)) = some ([(0, 0b111), (1, 0b11111000)], 1, true) := by decide

theorem test_T115_T121_draw_edges :
    ran 0xD011 ((((poke 0x300 0xFF base).setI 0x300).setV 0 255).setV 1 255)
      (fun t => (litRows t, t.getV 15, t.drawPending)) = some ([(31, 0x8000000000000000)], 0, true) ∧
    ran 0xD012 (lightCell 9 (((poke 0xFFF 0x80 base).setI 0xFFF).setV 15 7))
      (fun t => (t.fault.map FaultRecord.info, t.getV 15, litRows t)) = some (some 0x1000, 7, [(0, 0x200)]) := by
  decide

/-! ## Families E and F -/

theorem test_T130_T133_key_down :
    ran 0xE09E (press 3 (base.setV 0 3)) State.pc = some 0x204 ∧
    ran 0xE09E (base.setV 0 3) State.pc = some 0x202 ∧
    ran 0xE09E (press 0 (base.setV 0 16)) (fun t => (t.fault, t.pc)) =
      some (some ⟨.keyIndexOutOfRange, 0x200, some 0xE09E, 16⟩, 0x200) := by decide

theorem test_T131_T134_key_up :
    ran 0xE0A1 (base.setV 0 3) State.pc = some 0x204 ∧
    ran 0xE0A1 (press 3 (base.setV 0 3)) State.pc = some 0x202 ∧
    ran 0xE0A1 (base.setV 0 0xFF) State.fault = some (some ⟨.keyIndexOutOfRange, 0x200, some 0xE0A1, 255⟩) := by decide

theorem test_T140_T144_delay_timer :
    ran 0xF207 (base.setDt 57) (fun t => (t.getV 2, t.dt)) = some (57, 57) ∧
    ran 0xF015 (base.setV 0 60) State.dt = some 60 := by decide

theorem test_T145_sound_timer : ran 0xF018 (base.setV 0 5) (fun t => (t.st, soundActive t)) = some (5, true) := by decide

theorem test_T141_T142_key_wait :
    ran 0xF10A (base.setPc 0x204) State.pc = some 0x204 ∧
    ran 0xF10A (press 3 (press 7 (base.setPc 0x204))) (fun t => (t.getV 1, t.pc)) = some (3, 0x206) := by decide

theorem test_T147_T148_T151_add_index :
    ran 0xF01E ((modern.setI 0xFFE).setV 0 5) (fun t => (t.i, t.getV 15)) = some (0x1003, 1) ∧
    ran 0xF01E ((base.setI 0xFFF).setV 15 1) (fun t => (t.i, t.getV 15)) = some (0xFFF, 1) ∧
    ran 0xFF1E ((modern.setI 0xFF0).setV 15 0x20) (fun t => (t.i, t.getV 15)) = some (0x1010, 1) := by decide

theorem test_T152_T153_font :
    ran 0xF029 (base.setV 0 0x0A) State.i = some 0x032 ∧ ran 0xF029 (base.setV 0 255) State.i = some 0x4FB := by decide

theorem test_T154_T157_decimal :
    ran 0xF033 ((base.setI 0x300).setV 0 254)
      (fun t => (t.readByte 0x300, t.readByte 0x301, t.readByte 0x302, t.i)) = some (2, 5, 4, 0x300) ∧
    ran 0xF033 ((base.setI 0xFFD).setV 0 123)
      (fun t => (t.readByte 0xFFD, t.readByte 0xFFE, t.readByte 0xFFF)) = some (1, 2, 3) := by decide

theorem test_T158_decimal_fault :
    ran 0xF033 ((base.setI 0xFFE).setV 0 123) (fun t => (t.fault, t.readByte 0xFFE, t.readByte 0xFFF)) =
      some (some ⟨.memoryOutOfRange, 0x200, some 0xF033, 0x1000⟩, 0, 0) := by decide

theorem test_T159_T161_store :
    ran 0xF255 ((((base.setI 0x300).setV 0 1).setV 1 2).setV 2 3)
      (fun t => (t.readByte 0x300, t.readByte 0x301, t.readByte 0x302, t.readByte 0x303, t.i)) =
      some (1, 2, 3, 0, 0x303) ∧
    ran 0xF055 ((modern.setI 0xFFF).setV 0 0x77) (fun t => (t.readByte 0xFFF, t.i)) = some (0x77, 0xFFF) := by decide

theorem test_T162_store_fault :
    ran 0xF155 (((base.setI 0xFFF).setV 0 0x77).setV 1 0x88) (fun t => (t.fault, t.readByte 0xFFF, t.i)) =
      some (some ⟨.memoryOutOfRange, 0x200, some 0xF155, 0x1000⟩, 0, 0xFFF) := by decide

theorem test_T160_load :
    ran 0xF265 (((poke 0x302 0xCC (poke 0x301 0xBB (poke 0x300 0xAA base))).setI 0x300).setV 3 9)
      (fun t => (t.getV 0, t.getV 1, t.getV 2, t.getV 3, t.i)) = some (0xAA, 0xBB, 0xCC, 9, 0x303) := by decide

theorem test_T165_load_font :
    ran 0xFF65 base (fun t => t.v.toList) = some [0xF0, 0x90, 0x90, 0x90, 0xF0, 0x20, 0x60, 0x20, 0x20, 0x70, 0xF0,
      0x10, 0xF0, 0x80, 0xF0, 0xF0] := by decide

/-! ## Host operations -/

theorem test_H1_H2_H3_tick :
    (tickTimers base).dt = 0 ∧ (tickTimers ((base.setDt 1).setSt 3)).dt = 0 ∧
    (tickTimers ((base.setDt 1).setSt 3)).st = 2 ∧ soundActive (tickTimers (base.setSt 1)) = false := by decide

theorem test_H9_reset :
    hostReset ((poke 0x300 5 ((base.setV 3 7).setStack [0x202])).setFault (some ⟨.stackUnderflow, 0x200, some 0xEE, 0⟩)) =
      base := by decide

/-- A write of what the load image holds removes the entry. -/
theorem test_memory_canonical : (poke 0x300 0 (poke 0x300 5 base)).mem = [] ∧ (poke 0 0xF0 (poke 0 1 base)).mem = [] := by
  decide

/-! ## Witnesses: for each obligation with hypotheses, states and operands that meet them, one for each clause -/

/-- A state in the middle of a run: a return address, a byte written, the stack not empty. -/
def midRun : State := (poke 0x300 5 (base.setV 3 7)).setStack [0x202]

/-- A state with a recorded fault. -/
def faultedState : State := base.setFault (some ⟨.stackUnderflow, 0x200, some 0x00EE, 0⟩)

theorem witness_DecodeOfEncodeIsTheInstruction :
    (Instr.drw 15 15 15).wellFormed = true ∧ (Instr.unassigned0 0x0E1).wellFormed = true ∧
    (Instr.unassigned8 15 15 15).wellFormed = true ∧ (Instr.unassignedF 15 0x64).wellFormed = true := by decide

theorem witness_DecodeFollowsMaskAndMatch :
    ⟨"00E0", 0xFFFF, 0x00E0⟩ ∈ opcodeTable ∧ ⟨"FX65", 0xF0FF, 0xF065⟩ ∈ opcodeTable := by decide

theorem witness_StepRunsTheDecodedInstruction :
    base.lifecycle = .running ∧ base.fault = none ∧ (base.setPc 4094).pc.toNat ≤ 4094 ∧
    decodeWord (BitVec.ofNat 16 (((base.setPc 4094).readByte 4094).toNat * 256 +
      ((base.setPc 4094).readByte (4094 + 1)).toNat)) = .unassigned0 0 := by decide

theorem witness_StepsThatRunNoInstruction :
    (base.setLifecycle .paused).lifecycle ≠ .running ∧ faultedState.fault ≠ none ∧
    base.lifecycle = .running ∧ base.fault = none ∧ 4094 < (base.setPc 4095).pc.toNat := by decide

theorem witness_FaultingStepChangesOnlyTheRecord :
    base.fault = none ∧ stepped (base.withFetchWord 16 0x00EE) (fun t => t.fault.isSome) = some true ∧
    stepped (base.setPc 4095) (fun t => t.fault.isSome) = some true := by decide

/-- What `f` reads in the next state of the execute phase of `i`. -/
def executed {α : Type} (i : Instr) (s : State) (f : State → α) : Option α :=
  match exec i s with
  | .next t => some (f t)
  | .fault _ => none
  | .refused _ => none

theorem witness_FaultCausesByInstruction :
    executed (.call 0) (base.setStack (List.replicate 48 0)) (fun t => t.fault.isSome) = some true ∧
    executed .ret base (fun t => t.fault.isSome) = some true ∧
    executed (.drw 0 0 2) (base.setI 0xFFF) (fun t => t.fault.isSome) = some true ∧
    executed (.bcd 0) (base.setI 0xFFE) (fun t => t.fault.isSome) = some true ∧
    executed (.storeRegs 1) (base.setI 0xFFF) (fun t => t.fault.isSome) = some true ∧
    executed (.loadRegs 0) (base.setI 0x1000) (fun t => t.fault.isSome) = some true ∧
    executed (.skp 0) (base.setV 0 16) (fun t => t.fault.isSome) = some true := by decide

/-- One address lower, none of the four accesses leaves memory. -/
theorem witness_FaultCausesByInstruction_boundary :
    executed (.drw 0 0 1) (base.setI 0xFFF) State.fault = some none ∧
    executed (.bcd 0) (base.setI 0xFFD) State.fault = some none ∧
    executed (.storeRegs 0) (base.setI 0xFFF) State.fault = some none ∧
    executed (.loadRegs 0) (base.setI 0xFFF) State.fault = some none := by decide

theorem witness_FaultStaysUntilLoadOrReset :
    faultedState.fault = some ⟨.stackUnderflow, 0x200, some 0x00EE, 0⟩ ∧
    (applyHostOp (.setKey 15 true) faultedState).fault = faultedState.fault ∧
    (applyHostOp .tickTimers faultedState).fault = faultedState.fault := by decide

theorem witness_UnassignedWordIsANoOp :
    base.lifecycle = .running ∧ base.fault = none ∧ (base.setPc 4094).pc.toNat ≤ 4094 ∧
    ∀ row ∈ opcodeTable, fetchWord (base.setPc 4094) &&& row.mask ≠ row.bits := by decide

theorem witness_midRun_invariant : midRun.Inv :=
  ⟨by decide, by decide, by decide, fun w h => by rw [List.mem_singleton.mp h]; decide, by decide, fun r h => by
    have hf : midRun.fault = none := by decide
    rw [hf] at h
    cases h⟩

theorem witness_faultedState_invariant : faultedState.Inv :=
  ⟨by decide, by decide, by decide, fun _ h => absurd h List.not_mem_nil, by decide, fun r h => by
    have hf : faultedState.fault = some ⟨.stackUnderflow, 0x200, some 0x00EE, 0⟩ := by decide
    rw [hf] at h
    rw [← Option.some.inj h]
    exact ⟨by decide, by decide⟩⟩

theorem witness_EveryStepKeepsTheInvariant : midRun.Inv ∧ stepped midRun State.pc = some 0x202 :=
  ⟨witness_midRun_invariant, by decide⟩

theorem witness_EachStateIsWrittenByItsInstructions :
    executed .cls (lightCell 0 base) (fun t => displayCell t.display 0) = some false ∧
    executed (.drw 0 0 0) base State.drawPending = some true ∧
    executed (.ldDt 0) (base.setV 0 1) State.dt = some 1 ∧ executed (.ldSt 0) (base.setV 0 1) State.st = some 1 ∧
    executed (.call 0) base State.sp = some 1 ∧ executed (.ldI 1) base State.i = some 1 ∧
    executed (.bcd 0) ((base.setV 0 1).setI 0xFFD) (fun t => t.readByte 0xFFF) = some 1 ∧
    executed (.rnd 0 0) base State.draws = some 1 := by decide

theorem witness_EachStateIsWrittenByItsInstructions_registers :
    executed (.ldImm 14 9) base (fun t => t.getV 14) = some 9 ∧
    executed (.ldReg 0 1) (base.setV 1 9) (fun t => t.getV 0) = some 9 ∧
    executed (.subReg 0 1) (base.setV 1 1) (fun t => t.getV 0) = some 255 ∧
    executed (.ldVxDt 0) (base.setDt 9) (fun t => t.getV 0) = some 9 ∧
    executed (.waitKey 0) (press 15 base) (fun t => t.getV 0) = some 15 ∧
    executed (.loadRegs 15) base (fun t => t.getV 14) = some 0xF0 ∧
    executed (.addI 0) (modern.setI 0x1000) (fun t => t.getV 15) = some 1 := by decide

theorem witness_EachStateIsWrittenByItsInstructions_pc_fault :
    executed .ret midRun (fun t => (t.pc, t.fault)) = some (0x202, none) ∧ midRun.pc = 0x200 ∧
    executed (.jp 0xFFF) base (fun t => (t.pc, t.fault)) = some (0xFFF, none) ∧
    executed (.seImm 0 0) base (fun t => (t.pc, t.fault)) = some (0x202, none) ∧
    executed (.seReg 0 0) base (fun t => (t.pc, t.fault)) = some (0x202, none) ∧
    executed (.waitKey 0) base (fun t => (t.pc, t.fault)) = some (0x1FE, none) ∧
    executed .ret base (fun t => (t.fault.isSome, base.fault)) = some (true, none) ∧
    executed (.sknp 0) (base.setV 0 255) (fun t => (t.fault.isSome, base.fault)) = some (true, none) := by decide

theorem witness_FlagIsWrittenByItsInstructions :
    executed (.addReg 0 1) ((base.setV 0 255).setV 1 1) (fun t => t.getV regF) = some 1 ∧
    executed (.drw 0 0 0) (base.setV 15 1) (fun t => t.getV regF) = some 0 ∧
    executed (.addI 0) (modern.setI 0x1000) (fun t => t.getV regF) = some 1 ∧
    executed (.ldImm 15 9) base (fun t => t.getV regF) = some 9 ∧
    executed (.ldReg 15 0) (base.setV 0 9) (fun t => t.getV regF) = some 9 ∧
    executed (.loadRegs 15) base (fun t => t.getV regF) = some 0xF0 := by decide

theorem witness_PcAfterEveryInstruction :
    executed .ret midRun (fun t => (t.fault, t.pc)) = some (none, 0x202) ∧
    executed .ret (base.setPc 0x202) (fun t => (t.fault.isSome, t.pc)) = some (true, 0x200) := by decide

theorem witness_OnlySixInstructionsReadTheMode :
    (Instr.ldImm 0 1).mnemonic ∉ modeDependent ∧ (Instr.shrReg 0 1).mnemonic ∈ modeDependent ∧
    executed (.ldImm 0 1) base (fun t => t.getV 0) = some 1 := by decide

theorem witness_ModeNeutralUses : (0x0FF : Addr).toNat < 0x100 ∧
    executed (.jpOff 0x0FF) (base.setV 0 1) State.pc = executed (.jpOff 0x0FF) (modern.setV 0 1) State.pc := by decide

theorem witness_ParkedStateIsAFixedPoint : Parked (base.withFetchWord 16 0x1200) :=
  ⟨by decide, by decide, by decide, by decide⟩

theorem witness_ReturnPopsTheStack : midRun.stack = 0x202 :: [] ∧ base.stack = [] := by decide

theorem witness_JumpSetsPc : base.pc.toNat = (0x200 : Addr).toNat := by decide

theorem witness_CallPushesTheReturnAddress :
    (base.setStack (List.replicate 47 0)).stack.length < base.cfg.stackCapacity ∧
    base.cfg.stackCapacity ≤ (base.setStack (List.replicate 48 0)).stack.length := by decide

theorem witness_flagOperands : (14 : Reg) ≠ regF ∧ (15 : Reg) = regF ∧ (1 : Nibble) ≠ 0 := by decide

theorem witness_modesAndOrders :
    base.cfg.compatMode = .legacyShift ∧ modern.cfg.compatMode = .modernShift ∧ base.cfg.vfOrder = .sequential ∧
    (inOrder .snapshotFlagFirst base).cfg.vfOrder ≠ .sequential ∧
    (inOrder .snapshotFlagLast base).cfg.vfOrder = .snapshotFlagLast := by decide

theorem witness_AddSetsSumAndCarry_SubtractSetsDifferenceAndNoBorrow : (0 : Reg) ≠ regF ∧ (14 : Reg) ≠ regF := by decide

theorem witness_ShiftsByOneFollowTheMode :
    base.cfg.compatMode = .legacyShift ∧ modern.cfg.compatMode = .modernShift ∧ (0 : Reg) ≠ regF ∧ (14 : Reg) ≠ regF := by
  decide

theorem witness_AddToIndex_StoreRegisters_LoadRegisters_modes :
    base.cfg.compatMode = .legacyShift ∧ modern.cfg.compatMode = .modernShift ∧ (15 : Reg) ≤ 15 := by decide

theorem witness_TimerInstructionsMoveOneByte :
    base.lifecycle = .running ∧ 254 < ((base.setV 0 255).getV 0).toNat ∧
    executed (.ldSt 0) ((base.setV 0 5).setSt 9) State.st = some 5 ∧
    executed (.ldDt 0) (base.setSt 9) State.st = some 9 := by decide

theorem witness_FlagAsOperandSequential :
    executed (.addReg 14 15) base (fun t => t.getV 15) = some 0 ∧
    executed (.subReg 15 14) base (fun t => t.getV 15) = some 1 ∧
    executed (.subnReg 15 15) base (fun t => t.getV 15) = some 0 ∧
    executed (.shrReg 14 15) base (fun t => t.getV 15) = some 0 ∧
    executed (.shlReg 15 14) modern (fun t => t.getV 15) = some 0 := by decide

theorem witness_FlagAsOperandSnapshot :
    Instr.shlReg 15 15 ∈ flagAndResultInstrs 15 15 ∧
    executed (.addReg 15 1) (inOrder .snapshotFlagFirst ((base.setV 15 0xF0).setV 1 0x20)) (fun t => t.getV 15) =
      some 0x10 ∧
    executed (.addReg 15 1) (inOrder .snapshotFlagLast ((base.setV 15 0xF0).setV 1 0x20)) (fun t => t.getV 15) =
      some 1 := by decide

theorem witness_JumpWithOffsetFollowsTheMode : (15 : Reg).val = (0xFFF : Addr).toNat / 256 := by decide

theorem witness_DrawXorsEachPixel :
    min (0 : Nibble).val (32 - (base.getV 0).toNat % 32) = 0 ∧
    (base.setI 0xFFF).i.toNat + min (1 : Nibble).val (32 - (base.getV 0).toNat % 32) ≤ 4096 ∧
    spritePixel (base.setI 0) 0 0 5 0 0 = true ∧ displayCell (lightCell 0 base).display (0 * 64 + 0) = true ∧
    displayCell base.display (0 * 64 + 0) = false := by decide

theorem witness_DrawOutsideMemoryFaults :
    0 < min (2 : Nibble).val (32 - (base.getV 0).toNat % 32) ∧
    4096 < (base.setI 0xFFF).i.toNat + min (2 : Nibble).val (32 - (base.getV 0).toNat % 32) := by decide

theorem witness_DrawingTwiceRestoresTheDisplay :
    (0 : Reg) ≠ regF ∧ base.fault = none ∧
    executed (.drw 0 0 5) base (fun t => (t.fault, displayCell t.display 0)) = some (none, true) := by decide

theorem witness_KeySkipsTestOneKey :
    (15 : Key).val = ((base.setV 0 15).getV 0).toNat ∧ 15 < ((base.setV 0 16).getV 0).toNat := by decide

theorem witness_KeyWaitRewindsOrCompletes :
    (∀ k : Key, base.keys[k] = false) ∧ (press 15 base).keys[(15 : Key)] = true ∧
    (∀ j : Key, j < 15 → (press 15 base).keys[j] = false) := by decide

theorem witness_DecimalDigitsAreStored :
    (base.setI 0xFFD).i.toNat + 2 ≤ 4095 ∧ 4095 < (base.setI 0xFFE).i.toNat + 2 := by decide

theorem witness_StoreAndLoadRegisters :
    (base.setI 0xFF0).i.toNat + (15 : Reg).val ≤ 4095 ∧ 4095 < (base.setI 0xFF1).i.toNat + (15 : Reg).val := by decide

theorem witness_LoadAfterStoreGivesTheRegistersBack :
    executed (.storeRegs 1) ((base.setI 0x300).setV 1 9) (fun t =>
      executed (.loadRegs 1) (t.setI 0x300) (fun w => w.getV 1)) = some (some 9) := by decide

theorem witness_StoreIsSeenByTheNextFetch :
    1 ≤ (1 : Reg).val ∧ (base.setI 0x200).i = base.pc ∧ (base.setI 0x200).i.toNat + 1 ≤ 4095 ∧
    executed (.storeRegs 1) (((base.setI 0x200).setV 0 0x12).setV 1 0x34) fetchWord = some 0x1234 := by decide

theorem witness_TicksCountTheTimersDown :
    base.lifecycle = .running ∧ (base.setLifecycle .paused).lifecycle ≠ .running := by decide

theorem witness_SoundFollowsTheTimer : base.st = midRun.st := by decide

theorem witness_KeypadAndRendererOperations :
    (14 : Key) ≠ 15 ∧ (63 < 64 ∧ 31 < 32) ∧ pixelOn (lightCell 2047 base).display 63 31 = true := by decide

theorem witness_LoadGivesTheResetTable :
    (List.replicate 3584 (0 : Byte)).length ≤ 3584 ∧ 79 < 80 ∧ 3583 < (List.replicate 3584 (0 : Byte)).length ∧
    (80 ≤ 0x1FF ∧ 0x1FF < 0x200 ∨ 0x200 + 3584 ≤ 0x1FF) := by
  simp only [List.length_replicate]; decide

/-- The filling above the ROM: the first byte after a ROM of two bytes, and the last of memory. -/
theorem witness_LoadGivesTheResetTable_above :
    0x200 + ([0x12, 0x00] : List Byte).length ≤ 0x202 ∧
    (load (.bytes [0x12, 0x00]) .legacyShift [(0x202, 7), (0xFFF, 9)] base).2.readByte 0x202 = 7 ∧
    (load (.bytes [0x12, 0x00]) .legacyShift [(0x202, 7), (0xFFF, 9)] base).2.readByte 0xFFF = 9 := by decide

theorem witness_FailedLoadChangesNothing : 3584 < (List.replicate 3585 (0 : Byte)).length := by
  simp only [List.length_replicate]; decide

theorem witness_ResetReturnsToTheLoadedState :
    midRun.lifecycle = .running ∧ midRun.cfg.rom.length ≤ 3584 ∧ midRun.cfg.resetKeepsMem = false ∧
    (({ midRun with cfg := { midRun.cfg with resetKeepsMem := true } } : State).setLifecycle .paused).lifecycle =
      .paused ∧
    ({ midRun with cfg := { midRun.cfg with resetKeepsMem := true } } : State).cfg.resetKeepsMem = true ∧
    (base.setLifecycle .uninitialized).lifecycle = .uninitialized ∧ (base.setLifecycle .halted).lifecycle = .halted := by
  decide

theorem witness_LifecycleTable : base.lifecycle = .running ∧ (pauseRun base).lifecycle = .paused := by decide

theorem witness_FirstStepFetchesAtTheEntryPoint :
    (load (.bytes [0x12, 0x00]) .modernShift [] base).1 = .ok ∧
    ((hostReset midRun).readByte 0x200, midRun.lifecycle) = (0, .running) := by decide

end Sys2Proof.Tests
end

section
/-! The compatibility mode and the execute phase: replacing `COMPAT_MODE` commutes with fetching, with every shared operation, and with
every instruction outside `modeDependent` (30_encoding.md R102). -/

namespace Sys2Proof.Machine

/-- The result of a step with the next state put in the mode `m`. -/
def resultInMode (m : CompatMode) : Result → Result
  | .next t => .next (t.withMode m)
  | .fault f => .fault f
  | .refused r => .refused r

@[simp] theorem resultInMode_next (m : CompatMode) (t : State) : resultInMode m (.next t) = .next (t.withMode m) := rfl

/-! ### What reads the state: the mode is not seen -/

@[simp] theorem State.withMode_pc (s : State) (m : CompatMode) : (s.withMode m).pc = s.pc := rfl
@[simp] theorem State.withMode_getV (s : State) (m : CompatMode) (r : Reg) : (s.withMode m).getV r = s.getV r := rfl
@[simp] theorem State.withMode_vfOrder (s : State) (m : CompatMode) : (s.withMode m).cfg.vfOrder = s.cfg.vfOrder := rfl

/-- The load image does not depend on the mode, so memory reads alike in both. -/
@[simp] theorem State.withMode_readByte (s : State) (m : CompatMode) (a : Nat) : (s.withMode m).readByte a = s.readByte a := rfl

theorem fetchWord_withMode (s : State) (m : CompatMode) : fetchWord (s.withMode m) = fetchWord s := rfl

theorem memRead_withMode (a : Nat) (s : State) (m : CompatMode) : memRead a (s.withMode m) = memRead a s := rfl

theorem readBytes_withMode (a n : Nat) (s : State) (m : CompatMode) :
    readBytes a n (s.withMode m) = readBytes a n s := by
  induction n generalizing a with
  | zero => rfl
  | succ n ih => simp only [readBytes, memRead_withMode, ih]

theorem effectiveAddr_withMode (s : State) (m : CompatMode) (k : Nat) :
    effectiveAddr (s.withMode m) k = effectiveAddr s k := rfl

theorem lowestKeyDown_withMode (s : State) (m : CompatMode) : lowestKeyDown (s.withMode m) = lowestKeyDown s := rfl

/-! ### What writes the state: the mode is carried along -/

theorem pushWord_withMode (w : Word) (s : State) (m : CompatMode) :
    pushWord w (s.withMode m) = (pushWord w s).map fun t => t.withMode m := by
  rcases Nat.lt_or_ge s.stack.length s.cfg.stackCapacity with hroom | hfull
  · rw [pushWord_of_room hroom, pushWord_of_room (s := s.withMode m) hroom]
    rfl
  · rw [pushWord_of_full hfull, pushWord_of_full (s := s.withMode m) hfull]
    rfl

theorem popWord_withMode (s : State) (m : CompatMode) :
    popWord (s.withMode m) = (popWord s).map fun p => (p.1, p.2.withMode m) := by
  cases hs : s.stack with
  | nil => rw [popWord_of_nil hs, popWord_of_nil (s := s.withMode m) hs]; rfl
  | cons w rest => rw [popWord_of_cons hs, popWord_of_cons (s := s.withMode m) hs]; rfl

theorem writeBytes_withMode (a : Nat) (l : List Byte) (s : State) (m : CompatMode) :
    writeBytes a l (s.withMode m) = (writeBytes a l s).map fun t => t.withMode m := by
  induction l generalizing a s with
  | nil => rfl
  | cons b bs ih =>
    rcases Nat.lt_or_ge a memSize with ha | ha
    · simp only [writeBytes, memWrite_inside _ _ ha]
      exact ih (a + 1) (s.setMem (Memory.write (loadImage s.cfg) s.mem a b))
    · simp only [writeBytes, memWrite_outside _ _ ha]
      rfl

theorem skipIf_withMode (c : Bool) (s : State) (m : CompatMode) :
    skipIf c (s.withMode m) = (skipIf c s).withMode m := by
  cases c <;> rfl

/-- `writeFlagAndResult` carries the mode along when the result does not read it. -/
theorem writeFlagAndResult_withMode (x : Reg) (flag : Byte) {result : State → Byte} (s : State) (m : CompatMode)
    (h : ∀ u : State, result (u.withMode m) = result u) :
    writeFlagAndResult x flag result (s.withMode m) = (writeFlagAndResult x flag result s).withMode m := by
  have hflagged : result ((s.withMode m).setV regF flag) = result (s.setV regF flag) := h (s.setV regF flag)
  unfold writeFlagAndResult
  rw [State.withMode_vfOrder, hflagged, h s]
  cases s.cfg.vfOrder <;> rfl

/-! ### The instructions with more than one outcome -/

theorem execRet_withMode (s : State) (m : CompatMode) : execRet (s.withMode m) = resultInMode m (execRet s) := by
  unfold execRet
  rw [popWord_withMode]
  cases popWord s <;> rfl

theorem execCall_withMode (nnn : Addr) (s : State) (m : CompatMode) :
    execCall nnn (s.withMode m) = resultInMode m (execCall nnn s) := by
  unfold execCall
  rw [State.withMode_pc, pushWord_withMode]
  cases pushWord s.pc s <;> rfl

theorem execDrw_withMode (x y : Reg) (n : Nibble) (s : State) (m : CompatMode) :
    execDrw x y n (s.withMode m) = resultInMode m (execDrw x y n s) := by
  simp only [execDrw, State.withMode_getV, effectiveAddr_withMode, readBytes_withMode]
  cases readBytes (effectiveAddr s 0) (rowsDrawn n (anchorRow (s.getV y))) s <;> rfl

theorem execSkp_withMode (x : Reg) (s : State) (m : CompatMode) :
    execSkp x (s.withMode m) = resultInMode m (execSkp x s) := by
  unfold execSkp
  rw [State.withMode_getV]
  cases keyOperand (s.getV x) with
  | none => rfl
  | some k => exact congrArg _ (skipIf_withMode (s.keyDown k) s m)

theorem execSknp_withMode (x : Reg) (s : State) (m : CompatMode) :
    execSknp x (s.withMode m) = resultInMode m (execSknp x s) := by
  unfold execSknp
  rw [State.withMode_getV]
  cases keyOperand (s.getV x) with
  | none => rfl
  | some k => exact congrArg _ (skipIf_withMode (!s.keyDown k) s m)

theorem execWaitKey_withMode (x : Reg) (s : State) (m : CompatMode) :
    execWaitKey x (s.withMode m) = resultInMode m (execWaitKey x s) := by
  unfold execWaitKey
  rw [lowestKeyDown_withMode]
  cases lowestKeyDown s <;> rfl

theorem execBcd_withMode (x : Reg) (s : State) (m : CompatMode) :
    execBcd x (s.withMode m) = resultInMode m (execBcd x s) := by
  unfold execBcd
  rw [effectiveAddr_withMode, State.withMode_getV, writeBytes_withMode]
  cases writeBytes (effectiveAddr s 0) (decimalDigits (s.getV x)) s <;> rfl

/-! ### Every instruction but the six -/

/-- An instruction outside `modeDependent` has the same result in both modes, but for the mode itself (R102). -/
theorem exec_withMode {i : Instr} (hi : i.mnemonic ∉ modeDependent) (s : State) (m : CompatMode) :
    exec i (s.withMode m) = resultInMode m (exec i s) := by
  cases i with
  | shrReg | shlReg | jpOff | addI | storeRegs | loadRegs => simp [Instr.mnemonic, modeDependent] at hi
  | ret => exact execRet_withMode s m
  | call nnn => exact execCall_withMode nnn s m
  | drw x y n => exact execDrw_withMode x y n s m
  | skp x => exact execSkp_withMode x s m
  | sknp x => exact execSknp_withMode x s m
  | waitKey x => exact execWaitKey_withMode x s m
  | bcd x => exact execBcd_withMode x s m
  | seImm | sneImm | seReg | sneReg => exact congrArg _ (skipIf_withMode _ s m)
  | addReg | subReg | subnReg => exact congrArg _ (writeFlagAndResult_withMode _ _ s m fun _ => rfl)
  | cls | jp | ldImm | addImm | ldReg | orReg | andReg | xorReg | ldI | rnd => rfl
  | ldVxDt | ldDt | ldSt | ldFont => rfl
  | unassigned0 | unassigned5 | unassigned8 | unassigned9 | unassignedE | unassignedF => rfl

/-- Settles O19: fetching does not see the mode, and the execute phase commutes with replacing it for every instruction but the six. -/
theorem onlySixInstructionsReadTheMode : Obligations.OnlySixInstructionsReadTheMode := by
  intro s m
  refine ⟨by rw [fetchWord_withMode], fun i t hi h => ?_⟩
  rw [exec_withMode hi, h, resultInMode_next]

end Sys2Proof.Machine
end

section
/-! The skips on a comparison, 3XNN, 4XNN, 5XY0 and 9XY0, and the unassigned words beside the last two (42_nibble3_4_5_skips.md R130 to
R132, 45_nibble9_A_B_C.md R150). -/

namespace Sys2Proof.Machine

/-! ### The words -/

/-- An instruction that decodes from its own word has, as a number, that word. -/
theorem encodes_of_encode_toNat {w : Nat} {i : Instr} (hw : (encode i).toNat = w) (hrt : decodeWord (encode i) = i) :
    Encodes w i := by
  have hword : BitVec.ofNat 16 w = encode i := by rw [← hw, BitVec.ofNat_toNat, BitVec.setWidth_eq]
  exact ⟨hw, by rw [hword, hrt]⟩

theorem encodes_seImm (x : Reg) (nn : Byte) : Encodes (0x3000 + 0x100 * x.val + nn.toNat) (.seImm x nn) :=
  encodes_of_encode_toNat (by rw [encode, wordXNN_toNat (by decide)]; omega) (Laws.RoundTrip.seImm x nn rfl)

theorem encodes_sneImm (x : Reg) (nn : Byte) : Encodes (0x4000 + 0x100 * x.val + nn.toNat) (.sneImm x nn) :=
  encodes_of_encode_toNat (by rw [encode, wordXNN_toNat (by decide)]; omega) (Laws.RoundTrip.sneImm x nn rfl)

theorem encodes_seReg (x y : Reg) : Encodes (0x5000 + 0x100 * x.val + 0x10 * y.val) (.seReg x y) :=
  encodes_of_encode_toNat (by rw [encode, wordXYN_toNat (by decide), Fin.val_zero]; omega) (Laws.RoundTrip.seReg x y rfl)

theorem encodes_sneReg (x y : Reg) : Encodes (0x9000 + 0x100 * x.val + 0x10 * y.val) (.sneReg x y) :=
  encodes_of_encode_toNat (by rw [encode, wordXYN_toNat (by decide), Fin.val_zero]; omega) (Laws.RoundTrip.sneReg x y rfl)

theorem encodes_unassigned5 (x y : Reg) {n : Nibble} (hn : n ≠ 0) :
    Encodes (0x5000 + 0x100 * x.val + 0x10 * y.val + n.val) (.unassigned5 x y n) :=
  encodes_of_encode_toNat (by rw [encode, wordXYN_toNat (by decide)]; omega)
    (Laws.RoundTrip.unassigned5 x y n (bne_iff_ne.mpr hn))

theorem encodes_unassigned9 (x y : Reg) {n : Nibble} (hn : n ≠ 0) :
    Encodes (0x9000 + 0x100 * x.val + 0x10 * y.val + n.val) (.unassigned9 x y n) :=
  encodes_of_encode_toNat (by rw [encode, wordXYN_toNat (by decide)]; omega)
    (Laws.RoundTrip.unassigned9 x y n (bne_iff_ne.mpr hn))

/-! ### The execute phase -/

theorem skipIf_beq (a b : Byte) (s : State) : skipIf (a == b) s = if a = b then s.setPc (s.pc + 2) else s := by
  by_cases h : a = b
  · rw [if_pos h, beq_iff_eq.mpr h, skipIf_true, skipNext]
  · rw [if_neg h, beq_eq_false_iff_ne.mpr h, skipIf_false]

theorem skipIf_bne (a b : Byte) (s : State) : skipIf (a != b) s = if a = b then s else s.setPc (s.pc + 2) := by
  by_cases h : a = b
  · rw [if_pos h, bne_eq_false_iff_eq.mpr h, skipIf_false]
  · rw [if_neg h, bne_iff_ne.mpr h, skipIf_true, skipNext]

theorem exec_seImm (x : Reg) (nn : Byte) (s : State) :
    exec (.seImm x nn) s = .next (if s.getV x = nn then s.setPc (s.pc + 2) else s) :=
  congrArg _ (skipIf_beq (s.getV x) nn s)

theorem exec_sneImm (x : Reg) (nn : Byte) (s : State) :
    exec (.sneImm x nn) s = .next (if s.getV x = nn then s else s.setPc (s.pc + 2)) :=
  congrArg _ (skipIf_bne (s.getV x) nn s)

theorem exec_seReg (x y : Reg) (s : State) :
    exec (.seReg x y) s = .next (if s.getV x = s.getV y then s.setPc (s.pc + 2) else s) :=
  congrArg _ (skipIf_beq (s.getV x) (s.getV y) s)

theorem exec_sneReg (x y : Reg) (s : State) :
    exec (.sneReg x y) s = .next (if s.getV x = s.getV y then s else s.setPc (s.pc + 2)) :=
  congrArg _ (skipIf_bne (s.getV x) (s.getV y) s)

/-- 5XX0 always skips (R132). -/
theorem exec_seReg_self (x : Reg) (s : State) : exec (.seReg x x) s = .next (s.setPc (s.pc + 2)) := by
  rw [exec_seReg, if_pos rfl]

/-- 9XX0 never skips (R150). -/
theorem exec_sneReg_self (x : Reg) (s : State) : exec (.sneReg x x) s = .next s := by
  rw [exec_sneReg, if_pos rfl]

theorem exec_unassigned5 (x y : Reg) (n : Nibble) (s : State) : exec (.unassigned5 x y n) s = .next s := rfl

theorem exec_unassigned9 (x y : Reg) (n : Nibble) (s : State) : exec (.unassigned9 x y n) s = .next s := rfl

/-! ### The obligations -/

/-- Settles O26: the words by the decoder's round trip, the two outcomes by the two senses of `skipIf`. -/
theorem skipsOnAnImmediate : Obligations.SkipsOnAnImmediate := fun x nn =>
  ⟨encodes_seImm x nn, encodes_sneImm x nn, fun s => ⟨exec_seImm x nn s, exec_sneImm x nn s⟩⟩

/-- Settles O27: as O26 for two registers; with `X = Y` the comparison is of a value with itself, and a low nibble other than 0 makes the
word a no-op. -/
theorem skipsOnTwoRegisters : Obligations.SkipsOnTwoRegisters := by
  intro x y
  refine ⟨encodes_seReg x y, encodes_sneReg x y, fun n hn => ?_, fun s => ⟨exec_seReg x y s, exec_sneReg x y s, ?_⟩⟩
  · exact ⟨encodes_unassigned5 x y hn, encodes_unassigned9 x y hn,
      fun s => ⟨exec_unassigned5 x y n s, exec_unassigned9 x y n s⟩⟩
  · rintro rfl
    exact ⟨exec_seReg_self x s, exec_sneReg_self x s⟩

end Sys2Proof.Machine
end

section
/-! Loading and adding an immediate, 6XNN and 7XNN (43_nibble6_7_immediate.md R135, R136). -/

namespace Sys2Proof.Machine

/-! ### The words -/

theorem encodes_ldImm (x : Reg) (nn : Byte) : Encodes (0x6000 + 0x100 * x.val + nn.toNat) (.ldImm x nn) :=
  encodes_of (by rw [encode, wordXNN_toNat (by decide)]; omega) (Laws.RoundTrip.ldImm x nn rfl)

theorem encodes_addImm (x : Reg) (nn : Byte) : Encodes (0x7000 + 0x100 * x.val + nn.toNat) (.addImm x nn) :=
  encodes_of (by rw [encode, wordXNN_toNat (by decide)]; omega) (Laws.RoundTrip.addImm x nn rfl)

/-! ### The execute phase -/

theorem exec_ldImm (x : Reg) (nn : Byte) (s : State) : exec (.ldImm x nn) s = .next (s.setV x nn) := rfl

theorem exec_addImm (x : Reg) (nn : Byte) (s : State) :
    exec (.addImm x nn) s = .next (s.setV x (trunc8 ((s.getV x).toNat + nn.toNat))) := rfl

theorem trunc8_toNat (v : Nat) : (trunc8 v).toNat = v % 256 := BitVec.toNat_ofNat v 8

/-- An execute phase that is one register write gives that register its value and changes nothing else, VF no more than any other
register (R38). -/
theorem exec_of_setV {i : Instr} {s : State} {x : Reg} {b : Byte} (h : exec i s = .next (s.setV x b)) :
    ∃ t, exec i s = .next t ∧ t.getV x = b ∧ t.pc = s.pc ∧ Frame (.reg x) s t :=
  ⟨s.setV x b, h, State.getV_setV_same s x b, State.setV_pc s x b, frame_setV s b rfl⟩

/-! ### The obligations -/

/-- Settles O28: the word by the decoder's round trip, the effect as that of one register write. -/
theorem loadImmediateSetsTheRegister : Obligations.LoadImmediateSetsTheRegister := fun x nn =>
  ⟨encodes_ldImm x nn, fun s => exec_of_setV (exec_ldImm x nn s)⟩

/-- Settles O29: as O28, the value written being the truncated sum. -/
theorem addImmediateWrapsWithoutAFlag : Obligations.AddImmediateWrapsWithoutAFlag := by
  refine fun x nn => ⟨encodes_addImm x nn, fun s => ?_⟩
  obtain ⟨t, ht, hv, hpc, hframe⟩ := exec_of_setV (exec_addImm x nn s)
  exact ⟨t, ht, by rw [hv, trunc8_toNat], hpc, hframe⟩

end Sys2Proof.Machine
end

section
/-! Copying and the bitwise logic, 8XY0 to 8XY3 (44_nibble8_alu.md R140 to R143). -/

namespace Sys2Proof.Machine

/-! ### The words -/

/-- An instruction of family 8 that decodes from its own word has the word `8XYN`. -/
theorem encodes_xyn8 {i : Instr} {x y : Reg} {n : Nibble} (hw : encode i = wordXYN 0x8 x y n)
    (hd : decodeWord (encode i) = i) : Encodes (0x8000 + n.val + 0x100 * x.val + 0x10 * y.val) i :=
  encodes_of (by rw [hw, wordXYN_toNat (by decide)]; omega) hd

theorem encodes_ldReg (x y : Reg) : Encodes (0x8000 + 0x100 * x.val + 0x10 * y.val) (.ldReg x y) :=
  encodes_xyn8 (n := 0x0) rfl (Laws.RoundTrip.ldReg x y rfl)

theorem encodes_orReg (x y : Reg) : Encodes (0x8001 + 0x100 * x.val + 0x10 * y.val) (.orReg x y) :=
  encodes_xyn8 (n := 0x1) rfl (Laws.RoundTrip.orReg x y rfl)

theorem encodes_andReg (x y : Reg) : Encodes (0x8002 + 0x100 * x.val + 0x10 * y.val) (.andReg x y) :=
  encodes_xyn8 (n := 0x2) rfl (Laws.RoundTrip.andReg x y rfl)

theorem encodes_xorReg (x y : Reg) : Encodes (0x8003 + 0x100 * x.val + 0x10 * y.val) (.xorReg x y) :=
  encodes_xyn8 (n := 0x3) rfl (Laws.RoundTrip.xorReg x y rfl)

/-! ### The execute phase -/

theorem exec_ldReg (x y : Reg) (s : State) : exec (.ldReg x y) s = .next (s.setV x (s.getV y)) := rfl

theorem exec_orReg (x y : Reg) (s : State) : exec (.orReg x y) s = .next (s.setV x (s.getV x ||| s.getV y)) := rfl

theorem exec_andReg (x y : Reg) (s : State) : exec (.andReg x y) s = .next (s.setV x (s.getV x &&& s.getV y)) := rfl

theorem exec_xorReg (x y : Reg) (s : State) : exec (.xorReg x y) s = .next (s.setV x (s.getV x ^^^ s.getV y)) := rfl

/-- Writing a register's own value back changes nothing. -/
@[simp] theorem State.setV_getV_self (s : State) (x : Reg) : s.setV x (s.getV x) = s :=
  congrArg (fun v => { s with v := v }) (Vector.set_getElem_self x.isLt)

/-- 8XX0 changes nothing (R140). -/
theorem exec_ldReg_self (x : Reg) (s : State) : exec (.ldReg x x) s = .next s := by
  rw [exec_ldReg, State.setV_getV_self]

/-- An execute phase that writes one register with a value computed from `V[x]` and `V[y]` bit by bit, that value being `c` when the two
registers are one. -/
theorem exec_of_setV_bitwise {i : Instr} {s : State} {x y : Reg} {b c : Byte} (f : Bool → Bool → Bool)
    (h : exec i s = .next (s.setV x b))
    (hbits : ∀ k, b.getLsbD k = f ((s.getV x).getLsbD k) ((s.getV y).getLsbD k)) (hself : x = y → b = c) :
    ∃ t, exec i s = .next t ∧ (∀ k, (t.getV x).getLsbD k = f ((s.getV x).getLsbD k) ((s.getV y).getLsbD k)) ∧
      t.pc = s.pc ∧ Frame (.reg x) s t ∧ (x = y → t.getV x = c) := by
  obtain ⟨t, ht, hv, hpc, hframe⟩ := exec_of_setV h
  subst hv
  exact ⟨t, ht, hbits, hpc, hframe, hself⟩

/-! ### The obligation -/

/-- Settles O30: the words by the decoder's round trip, each effect as that of one register write; with `X = Y` the value written is that of
copying, OR and AND a register with itself, or 0. -/
theorem copyAndLogicWriteNoFlag : Obligations.CopyAndLogicWriteNoFlag := by
  refine fun x y => ⟨encodes_ldReg x y, encodes_orReg x y, encodes_andReg x y, encodes_xorReg x y, fun s => ⟨?copy,
    exec_of_setV_bitwise or (exec_orReg x y s) (fun _ => BitVec.getLsbD_or) ?orSelf,
    exec_of_setV_bitwise and (exec_andReg x y s) (fun _ => BitVec.getLsbD_and) ?andSelf,
    exec_of_setV_bitwise xor (exec_xorReg x y s) (fun _ => BitVec.getLsbD_xor) ?xorSelf⟩⟩
  case copy =>
    obtain ⟨t, ht, hv, hpc, hframe⟩ := exec_of_setV (exec_ldReg x y s)
    refine ⟨t, ht, hv, hpc, hframe, ?_⟩
    rintro rfl
    exact next_inj (ht.symm.trans (exec_ldReg_self x s))
  case orSelf => rintro rfl; exact BitVec.or_self
  case andSelf => rintro rfl; exact BitVec.and_self
  case xorSelf => rintro rfl; exact BitVec.xor_self

end Sys2Proof.Machine
end

section
/-! Loading the index register, ANNN (45_nibble9_A_B_C.md R151). -/

namespace Sys2Proof.Machine

/-! ### The word -/

theorem encodes_ldI (nnn : Addr) : Encodes (0xA000 + nnn.toNat) (.ldI nnn) :=
  encodes_of (wordNNN_toNat (f := 0xA) (by decide) nnn) (Laws.RoundTrip.ldI nnn rfl)

/-! ### The execute phase -/

theorem exec_ldI (nnn : Addr) (s : State) : exec (.ldI nnn) s = .next (s.setI (addrWord nnn)) := rfl

/-- Widening an address to a word keeps its value: the four bits above it are 0. -/
theorem addrWord_toNat (nnn : Addr) : (addrWord nnn).toNat = nnn.toNat :=
  BitVec.toNat_setWidth_of_le (by decide)

/-! ### The obligation -/

/-- Settles O36: the word by the decoder's round trip, the effect as that of one write to `I`, whose value is the address widened. -/
theorem loadIndexSetsI : Obligations.LoadIndexSetsI := by
  refine fun nnn => ⟨encodes_ldI nnn, fun s => ⟨s.setI (addrWord nnn), exec_ldI nnn s, ?value, ?pc, ?frame⟩⟩
  case value => rw [State.setI_i, addrWord_toNat]
  case pc => exact State.setI_pc s (addrWord nnn)
  case frame => exact frame_setI s (addrWord nnn) rfl

end Sys2Proof.Machine
end

section
/-! The timers, FX07, FX15 and FX18 (48_nibbleF_misc.md R180, R182, R183): what they move, and that no instruction reads `ST` back: replacing
`ST` commutes with every instruction but FX18. -/

namespace Sys2Proof.Machine

/-! ### The words -/

/-- An instruction of family F that decodes from its own word has the word `FXNN`. -/
theorem encodes_xnnF {i : Instr} {x : Reg} {nn : Byte} (hw : encode i = wordXNN 0xF x nn)
    (hd : decodeWord (encode i) = i) : Encodes (0xF000 + nn.toNat + 0x100 * x.val) i :=
  encodes_of (by rw [hw, wordXNN_toNat (by decide)]; omega) hd

theorem encodes_ldVxDt (x : Reg) : Encodes (0xF007 + 0x100 * x.val) (.ldVxDt x) :=
  encodes_xnnF (nn := 0x07) rfl (Laws.RoundTrip.ldVxDt x rfl)

theorem encodes_ldDt (x : Reg) : Encodes (0xF015 + 0x100 * x.val) (.ldDt x) :=
  encodes_xnnF (nn := 0x15) rfl (Laws.RoundTrip.ldDt x rfl)

theorem encodes_ldSt (x : Reg) : Encodes (0xF018 + 0x100 * x.val) (.ldSt x) :=
  encodes_xnnF (nn := 0x18) rfl (Laws.RoundTrip.ldSt x rfl)

/-! ### The execute phase -/

theorem exec_ldVxDt (x : Reg) (s : State) : exec (.ldVxDt x) s = .next (s.setV x s.dt) := rfl

theorem exec_ldDt (x : Reg) (s : State) : exec (.ldDt x) s = .next (s.setDt (s.getV x)) := rfl

theorem exec_ldSt (x : Reg) (s : State) : exec (.ldSt x) s = .next (s.setSt (s.getV x)) := rfl

/-! ### Ticks (60_exceptions.md R213, R214) -/

theorem tickTimers_lifecycle (s : State) : (tickTimers s).lifecycle = s.lifecycle := by
  by_cases h : s.lifecycle = .running
  · rw [tickTimers_running h, State.setSt_lifecycle, State.setDt_lifecycle]
  · rw [tickTimers_other h]

/-- While Running, `n` ticks take `n` from each timer, floored at zero. -/
theorem tickTimes_timers_toNat {s : State} (h : s.lifecycle = .running) (n : Nat) :
    (tickTimes n s).dt.toNat = s.dt.toNat - n ∧ (tickTimes n s).st.toNat = s.st.toNat - n := by
  induction n generalizing s with
  | zero => exact ⟨rfl, rfl⟩
  | succ n ih =>
    obtain ⟨hdt, hst⟩ := ih ((tickTimers_lifecycle s).trans h)
    rw [tickTimes, hdt, hst, tickTimers_running h, State.setSt_dt, State.setDt_dt, State.setSt_st, tickTimer_toNat,
      tickTimer_toNat]
    omega

theorem soundActive_iff_ne_zero {s : State} : soundActive s = true ↔ s.st ≠ 0 := bne_iff_ne

theorem soundActive_iff_toNat_pos {s : State} : soundActive s = true ↔ 0 < s.st.toNat := by
  rw [soundActive_iff_ne_zero]
  bv_omega

/-- While Running, the sound lasts for as many ticks as `ST` counts. -/
theorem soundActive_tickTimes {s : State} (h : s.lifecycle = .running) (n : Nat) :
    soundActive (tickTimes n s) = true ↔ n < s.st.toNat := by
  rw [soundActive_iff_toNat_pos, (tickTimes_timers_toNat h n).2, Nat.sub_pos_iff_lt]

/-! ### Replacing the sound timer -/

/-- The result of a step with `ST` of the next state replaced by `b`. -/
def resultWithSt (b : Byte) : Result → Result
  | .next t => .next (t.setSt b)
  | .fault f => .fault f
  | .refused r => .refused r

@[simp] theorem resultWithSt_next (b : Byte) (t : State) : resultWithSt b (.next t) = .next (t.setSt b) := rfl

theorem effectiveAddr_setSt (s : State) (b : Byte) (k : Nat) : effectiveAddr (s.setSt b) k = effectiveAddr s k := rfl

theorem lowestKeyDown_setSt (s : State) (b : Byte) : lowestKeyDown (s.setSt b) = lowestKeyDown s := rfl

theorem regsUpTo_setSt (x : Reg) (s : State) (b : Byte) : regsUpTo x (s.setSt b) = regsUpTo x s := rfl

theorem pushWord_setSt (w : Word) (s : State) (b : Byte) :
    pushWord w (s.setSt b) = (pushWord w s).map fun t => t.setSt b := by
  rcases Nat.lt_or_ge s.stack.length s.cfg.stackCapacity with hroom | hfull
  · rw [pushWord_of_room hroom, pushWord_of_room (s := s.setSt b) hroom]
    rfl
  · rw [pushWord_of_full hfull, pushWord_of_full (s := s.setSt b) hfull]
    rfl

theorem popWord_setSt (s : State) (b : Byte) :
    popWord (s.setSt b) = (popWord s).map fun p => (p.1, p.2.setSt b) := by
  cases hs : s.stack with
  | nil => rw [popWord_of_nil hs, popWord_of_nil (s := s.setSt b) hs]; rfl
  | cons w rest => rw [popWord_of_cons hs, popWord_of_cons (s := s.setSt b) hs]; rfl

/-! ### The instructions with more than one outcome -/

theorem execRet_setSt (s : State) (b : Byte) : execRet (s.setSt b) = resultWithSt b (execRet s) := by
  unfold execRet
  rw [popWord_setSt]
  cases popWord s <;> rfl

theorem execCall_setSt (nnn : Addr) (s : State) (b : Byte) :
    execCall nnn (s.setSt b) = resultWithSt b (execCall nnn s) := by
  unfold execCall
  rw [State.setSt_pc, pushWord_setSt]
  cases pushWord s.pc s <;> rfl

theorem execDrw_setSt (x y : Reg) (n : Nibble) (s : State) (b : Byte) :
    execDrw x y n (s.setSt b) = resultWithSt b (execDrw x y n s) := by
  simp only [execDrw, State.setSt_getV, effectiveAddr_setSt, readBytes_setSt]
  cases readBytes (effectiveAddr s 0) (rowsDrawn n (anchorRow (s.getV y))) s <;> rfl

theorem execSkp_setSt (x : Reg) (s : State) (b : Byte) : execSkp x (s.setSt b) = resultWithSt b (execSkp x s) := by
  unfold execSkp
  rw [State.setSt_getV]
  cases keyOperand (s.getV x) with
  | none => rfl
  | some k => exact congrArg _ (skipIf_setSt (s.keyDown k) s b)

theorem execSknp_setSt (x : Reg) (s : State) (b : Byte) :
    execSknp x (s.setSt b) = resultWithSt b (execSknp x s) := by
  unfold execSknp
  rw [State.setSt_getV]
  cases keyOperand (s.getV x) with
  | none => rfl
  | some k => exact congrArg _ (skipIf_setSt (!s.keyDown k) s b)

theorem execWaitKey_setSt (x : Reg) (s : State) (b : Byte) :
    execWaitKey x (s.setSt b) = resultWithSt b (execWaitKey x s) := by
  unfold execWaitKey
  rw [lowestKeyDown_setSt]
  cases lowestKeyDown s <;> rfl

theorem execAddI_setSt (x : Reg) (s : State) (b : Byte) :
    execAddI x (s.setSt b) = resultWithSt b (execAddI x s) := by
  simp only [execAddI, State.setSt_cfg]
  cases s.cfg.compatMode <;> rfl

theorem execBcd_setSt (x : Reg) (s : State) (b : Byte) : execBcd x (s.setSt b) = resultWithSt b (execBcd x s) := by
  unfold execBcd
  rw [effectiveAddr_setSt, State.setSt_getV, writeBytes_setSt]
  cases writeBytes (effectiveAddr s 0) (decimalDigits (s.getV x)) s <;> rfl

theorem execStoreRegs_setSt (x : Reg) (s : State) (b : Byte) :
    execStoreRegs x (s.setSt b) = resultWithSt b (execStoreRegs x s) := by
  unfold execStoreRegs
  rw [effectiveAddr_setSt, regsUpTo_setSt, writeBytes_setSt]
  cases writeBytes (effectiveAddr s 0) (regsUpTo x s) s <;> rfl

theorem execLoadRegs_setSt (x : Reg) (s : State) (b : Byte) :
    execLoadRegs x (s.setSt b) = resultWithSt b (execLoadRegs x s) := by
  unfold execLoadRegs
  rw [effectiveAddr_setSt, readBytes_setSt]
  cases readBytes (effectiveAddr s 0) (x.val + 1) s with
  | error a => rfl
  | ok bytes => simp only [setRegsFrom_setSt]; rfl

/-! ### Every instruction but FX18 -/

/-- FX18 overwrites `ST`, so the value there before does not matter. -/
theorem exec_ldSt_setSt (x : Reg) (s : State) (b : Byte) : exec (.ldSt x) (s.setSt b) = exec (.ldSt x) s := rfl

/-- An instruction other than FX18 neither reads nor writes `ST`: with another value there the result is the same, but for that value (R183). -/
theorem exec_setSt {i : Instr} (hi : ∀ x, i ≠ .ldSt x) (s : State) (b : Byte) :
    exec i (s.setSt b) = resultWithSt b (exec i s) := by
  cases i with
  | ldSt x => exact absurd rfl (hi x)
  | ret => exact execRet_setSt s b
  | call nnn => exact execCall_setSt nnn s b
  | drw x y n => exact execDrw_setSt x y n s b
  | skp x => exact execSkp_setSt x s b
  | sknp x => exact execSknp_setSt x s b
  | waitKey x => exact execWaitKey_setSt x s b
  | addI x => exact execAddI_setSt x s b
  | bcd x => exact execBcd_setSt x s b
  | storeRegs x => exact execStoreRegs_setSt x s b
  | loadRegs x => exact execLoadRegs_setSt x s b
  | seImm | sneImm | seReg | sneReg => exact congrArg _ (skipIf_setSt _ s b)
  | addReg | subReg | shrReg | subnReg | shlReg => exact congrArg _ (writeFlagAndResult_setSt _ _ s b fun _ => rfl)
  | cls | jp | ldImm | addImm | ldReg | orReg | andReg | xorReg | ldI | jpOff | rnd => rfl
  | ldVxDt | ldDt | ldFont => rfl
  | unassigned0 | unassigned5 | unassigned8 | unassigned9 | unassignedE | unassignedF => rfl

/-! ### The obligation -/

/-- Settles O43: the words by the decoder's round trip, each effect as that of one write, the ticks by counting each timer down, and that
`ST` is not read back by carrying another value of it through every instruction. -/
theorem timerInstructionsMoveOneByte : Obligations.TimerInstructionsMoveOneByte := by
  refine ⟨fun x => ⟨encodes_ldVxDt x, encodes_ldDt x, encodes_ldSt x, fun s => ⟨exec_of_setV (exec_ldVxDt x s),
    ⟨s.setDt (s.getV x), exec_ldDt x s, State.setDt_dt s _, State.setDt_pc s _, frame_setDt s _ rfl, ?delay⟩,
    ⟨s.setSt (s.getV x), exec_ldSt x s, State.setSt_st s _, State.setSt_pc s _, frame_setSt s _ rfl, ?sound, ?ticks⟩⟩⟩,
    exec_ldSt_setSt, ?notReadBack⟩
  case delay => exact fun hrun n => (tickTimes_timers_toNat (s := s.setDt (s.getV x)) hrun n).1
  case sound => exact soundActive_iff_ne_zero
  case ticks => exact fun hrun n => soundActive_tickTimes (s := s.setSt (s.getV x)) hrun n
  case notReadBack =>
    intro i s t b hi h
    rw [exec_setSt hi, h, resultWithSt_next]

end Sys2Proof.Machine
end

section
/-! The decoder and the encoder are inverse to each other (30_encoding.md R90 to R95): on well-formed instructions one way, on all words
the other. -/

namespace Sys2Proof

/-! ### From the instruction to the word and back -/

/-- The round trip of the per-instruction family, as one lemma over all constructors. -/
theorem decodeWord_encode {i : Instr} (hwf : i.wellFormed = true) : decodeWord (encode i) = i := by
  cases i with
  | cls => exact Laws.RoundTrip.cls hwf
  | ret => exact Laws.RoundTrip.ret hwf
  | jp nnn => exact Laws.RoundTrip.jp nnn hwf
  | call nnn => exact Laws.RoundTrip.call nnn hwf
  | seImm x nn => exact Laws.RoundTrip.seImm x nn hwf
  | sneImm x nn => exact Laws.RoundTrip.sneImm x nn hwf
  | seReg x y => exact Laws.RoundTrip.seReg x y hwf
  | ldImm x nn => exact Laws.RoundTrip.ldImm x nn hwf
  | addImm x nn => exact Laws.RoundTrip.addImm x nn hwf
  | ldReg x y => exact Laws.RoundTrip.ldReg x y hwf
  | orReg x y => exact Laws.RoundTrip.orReg x y hwf
  | andReg x y => exact Laws.RoundTrip.andReg x y hwf
  | xorReg x y => exact Laws.RoundTrip.xorReg x y hwf
  | addReg x y => exact Laws.RoundTrip.addReg x y hwf
  | subReg x y => exact Laws.RoundTrip.subReg x y hwf
  | shrReg x y => exact Laws.RoundTrip.shrReg x y hwf
  | subnReg x y => exact Laws.RoundTrip.subnReg x y hwf
  | shlReg x y => exact Laws.RoundTrip.shlReg x y hwf
  | sneReg x y => exact Laws.RoundTrip.sneReg x y hwf
  | ldI nnn => exact Laws.RoundTrip.ldI nnn hwf
  | jpOff nnn => exact Laws.RoundTrip.jpOff nnn hwf
  | rnd x nn => exact Laws.RoundTrip.rnd x nn hwf
  | drw x y n => exact Laws.RoundTrip.drw x y n hwf
  | skp x => exact Laws.RoundTrip.skp x hwf
  | sknp x => exact Laws.RoundTrip.sknp x hwf
  | ldVxDt x => exact Laws.RoundTrip.ldVxDt x hwf
  | waitKey x => exact Laws.RoundTrip.waitKey x hwf
  | ldDt x => exact Laws.RoundTrip.ldDt x hwf
  | ldSt x => exact Laws.RoundTrip.ldSt x hwf
  | addI x => exact Laws.RoundTrip.addI x hwf
  | ldFont x => exact Laws.RoundTrip.ldFont x hwf
  | bcd x => exact Laws.RoundTrip.bcd x hwf
  | storeRegs x => exact Laws.RoundTrip.storeRegs x hwf
  | loadRegs x => exact Laws.RoundTrip.loadRegs x hwf
  | unassigned0 nnn => exact Laws.RoundTrip.unassigned0 nnn hwf
  | unassigned5 x y n => exact Laws.RoundTrip.unassigned5 x y n hwf
  | unassigned8 x y n => exact Laws.RoundTrip.unassigned8 x y n hwf
  | unassigned9 x y n => exact Laws.RoundTrip.unassigned9 x y n hwf
  | unassignedE x nn => exact Laws.RoundTrip.unassignedE x nn hwf
  | unassignedF x nn => exact Laws.RoundTrip.unassignedF x nn hwf

/-- Decoding the two bytes of a word, the high one first, is decoding the word. -/
theorem decodeBytes_high_low (w : Word) : decodeBytes [highByte w, lowByte w] = .ok (decodeWord w, []) := by
  rw [decodeBytes, wordOfBytes_high_low]

/-- Settles O1: by the round trip of each constructor; the two bytes of a word make it up again. -/
theorem decodeOfEncodeIsTheInstruction : Obligations.DecodeOfEncodeIsTheInstruction := by
  intro i hwf
  rw [decodeBytes_high_low, decodeWord_encode hwf]
  exact ⟨rfl, rfl⟩

/-! ### From the word to the instruction and back -/

variable {w : Word} {f : Nat}

theorem wordNNN_of_family (hf : familyOf w = f) : wordNNN f (fieldNNN w) = w := by
  rw [← hf, word_eq_wordNNN]

theorem wordXNN_of_family (hf : familyOf w = f) : wordXNN f (fieldX w) (fieldNN w) = w := by
  rw [← hf, word_eq_wordXNN]

theorem wordXNN_of_low_byte {nn : Byte} (hf : familyOf w = f) (hnn : fieldNN w = nn) :
    wordXNN f (fieldX w) nn = w := by
  rw [← hnn, wordXNN_of_family hf]

theorem wordXYN_of_family (hf : familyOf w = f) : wordXYN f (fieldX w) (fieldY w) (fieldN w) = w := by
  rw [← hf, word_eq_wordXYN]

theorem wordXYN_of_low_nibble {n : Nibble} (hf : familyOf w = f) (hn : fieldN w = n) :
    wordXYN f (fieldX w) (fieldY w) n = w := by
  rw [← hn, wordXYN_of_family hf]

/-- The instruction `i` stands for the word `w` in full: it is well formed, and `w` is its encoding. -/
def StandsFor (i : Instr) (w : Word) : Prop := i.wellFormed = true ∧ encode i = w

theorem standsFor_decodeFamily0 (hf : familyOf w = 0x0) : StandsFor (decodeFamily0 w) w := by
  have hw := wordNNN_of_family hf
  unfold decodeFamily0
  split
  next hcls => exact ⟨rfl, hcls.symm⟩
  next hcls =>
    split
    next hret => exact ⟨rfl, hret.symm⟩
    next hret =>
      refine ⟨?_, hw⟩
      have hne0 : fieldNNN w ≠ 0x0E0 := fun e => hcls (by rw [← hw, e]; rfl)
      have hneE : fieldNNN w ≠ 0x0EE := fun e => hret (by rw [← hw, e]; rfl)
      rw [Instr.wellFormed, bne_iff_ne.mpr hne0, bne_iff_ne.mpr hneE]
      rfl

theorem standsFor_decodeFamily5 (hf : familyOf w = 0x5) : StandsFor (decodeFamily5 w) w := by
  unfold decodeFamily5
  split
  next hn => exact ⟨rfl, wordXYN_of_low_nibble hf hn⟩
  next hn => exact ⟨bne_iff_ne.mpr hn, wordXYN_of_family hf⟩

theorem standsFor_decodeFamily8 (hf : familyOf w = 0x8) : StandsFor (decodeFamily8 w) w := by
  unfold decodeFamily8
  split
  case h_1 hn => exact ⟨rfl, wordXYN_of_low_nibble hf (Fin.ext hn)⟩
  case h_2 hn => exact ⟨rfl, wordXYN_of_low_nibble hf (Fin.ext hn)⟩
  case h_3 hn => exact ⟨rfl, wordXYN_of_low_nibble hf (Fin.ext hn)⟩
  case h_4 hn => exact ⟨rfl, wordXYN_of_low_nibble hf (Fin.ext hn)⟩
  case h_5 hn => exact ⟨rfl, wordXYN_of_low_nibble hf (Fin.ext hn)⟩
  case h_6 hn => exact ⟨rfl, wordXYN_of_low_nibble hf (Fin.ext hn)⟩
  case h_7 hn => exact ⟨rfl, wordXYN_of_low_nibble hf (Fin.ext hn)⟩
  case h_8 hn => exact ⟨rfl, wordXYN_of_low_nibble hf (Fin.ext hn)⟩
  case h_9 hn => exact ⟨rfl, wordXYN_of_low_nibble hf (Fin.ext hn)⟩
  case h_10 =>
    refine ⟨?_, wordXYN_of_family hf⟩
    simp only [imp_false] at *
    simp only [Instr.wellFormed, Bool.and_eq_true, decide_eq_true_eq, bne_iff_ne, ne_eq, Fin.ext_iff]
    omega

theorem standsFor_decodeFamily9 (hf : familyOf w = 0x9) : StandsFor (decodeFamily9 w) w := by
  unfold decodeFamily9
  split
  next hn => exact ⟨rfl, wordXYN_of_low_nibble hf hn⟩
  next hn => exact ⟨bne_iff_ne.mpr hn, wordXYN_of_family hf⟩

theorem standsFor_decodeFamilyE (hf : familyOf w = 0xE) : StandsFor (decodeFamilyE w) w := by
  unfold decodeFamilyE
  split
  next hnn => exact ⟨rfl, wordXNN_of_low_byte hf hnn⟩
  next h9E =>
    split
    next hnn => exact ⟨rfl, wordXNN_of_low_byte hf hnn⟩
    next hA1 =>
      have hassigned : fieldNN w ∉ assignedE := by simpa [assignedE] using ⟨h9E, hA1⟩
      exact ⟨by simpa [Instr.wellFormed] using hassigned, wordXNN_of_family hf⟩

theorem standsFor_decodeFamilyF (hf : familyOf w = 0xF) : StandsFor (decodeFamilyF w) w := by
  by_cases hassigned : fieldNN w ∈ assignedF
  · simp only [assignedF, List.mem_cons, List.not_mem_nil, or_false] at hassigned
    rcases hassigned with hnn | hnn | hnn | hnn | hnn | hnn | hnn | hnn | hnn <;>
      exact ⟨by rw [decodeFamilyF, hnn]; rfl, by rw [decodeFamilyF, hnn]; exact wordXNN_of_low_byte hf hnn⟩
  · have hdecode : decodeFamilyF w = .unassignedF (fieldX w) (fieldNN w) := by
      simp only [assignedF, List.mem_cons, List.not_mem_nil, or_false, not_or] at hassigned
      simp only [decodeFamilyF, hassigned, if_false]
    rw [hdecode]
    exact ⟨by simpa [Instr.wellFormed] using hassigned, wordXNN_of_family hf⟩

/-- Every word stands for one instruction, the one it decodes to (R93, R95): family by family. -/
theorem standsFor_decodeWord (w : Word) : StandsFor (decodeWord w) w := by
  have hlt := familyOf_lt w
  unfold decodeWord
  split
  next hf => exact standsFor_decodeFamily0 hf
  next hf => exact ⟨rfl, wordNNN_of_family hf⟩
  next hf => exact ⟨rfl, wordNNN_of_family hf⟩
  next hf => exact ⟨rfl, wordXNN_of_family hf⟩
  next hf => exact ⟨rfl, wordXNN_of_family hf⟩
  next hf => exact standsFor_decodeFamily5 hf
  next hf => exact ⟨rfl, wordXNN_of_family hf⟩
  next hf => exact ⟨rfl, wordXNN_of_family hf⟩
  next hf => exact standsFor_decodeFamily8 hf
  next hf => exact standsFor_decodeFamily9 hf
  next hf => exact ⟨rfl, wordNNN_of_family hf⟩
  next hf => exact ⟨rfl, wordNNN_of_family hf⟩
  next hf => exact ⟨rfl, wordXNN_of_family hf⟩
  next hf => exact ⟨rfl, wordXYN_of_family hf⟩
  next hf => exact standsFor_decodeFamilyE hf
  next =>
    simp only [imp_false] at *
    exact standsFor_decodeFamilyF (by omega)

theorem encode_decodeWord (w : Word) : encode (decodeWord w) = w := (standsFor_decodeWord w).2

theorem wellFormed_decodeWord (w : Word) : (decodeWord w).wellFormed = true := (standsFor_decodeWord w).1

/-- Settles O2: by the families of the decoder, each giving back the fields it read. -/
theorem encodeOfDecodeIsTheWord : Obligations.EncodeOfDecodeIsTheWord :=
  fun w => ⟨wellFormed_decodeWord w, encode_decodeWord w⟩

end Sys2Proof
end

section
/-! The opcode table and the unassigned words (30_encoding.md R93, R95): which words satisfy a row's mask and match, and which satisfy
none. -/

namespace Sys2Proof

/-! ### The conditions of the rows on the fields of a word -/

section
variable {w : Word} {f n nn : Nat}

theorem and_family_mask_iff (hf : f < 16) : w &&& 0xF000#16 = BitVec.ofNat 16 (f * 4096) ↔ familyOf w = f := by
  rw [← BitVec.toNat_inj, mask_family, BitVec.toNat_ofNat]
  omega

theorem and_nibble_mask_iff (hf : f < 16) (hn : n < 16) :
    w &&& 0xF00F#16 = BitVec.ofNat 16 (f * 4096 + n) ↔ familyOf w = f ∧ (fieldN w).val = n := by
  rw [← BitVec.toNat_inj, mask_family_nibble, BitVec.toNat_ofNat]
  omega

theorem and_byte_mask_iff (hf : f < 16) (hnn : nn < 256) :
    w &&& 0xF0FF#16 = BitVec.ofNat 16 (f * 4096 + nn) ↔ familyOf w = f ∧ (fieldNN w).toNat = nn := by
  have := (fieldNN w).isLt
  rw [← BitVec.toNat_inj, mask_family_byte, BitVec.toNat_ofNat]
  omega

end

/-! ### An assigned instruction satisfies its own row -/

/-- The six kinds of unassigned instruction (R95). -/
def Instr.unassigned : Instr → Bool
  | .unassigned0 _ | .unassigned5 _ _ _ | .unassigned8 _ _ _ | .unassigned9 _ _ _ => true
  | .unassignedE _ _ | .unassignedF _ _ => true
  | _ => false

/-- The word of `i` satisfies the mask and match of a row that bears the mnemonic of `i`. -/
def MatchesOwnRow (i : Instr) : Prop :=
  ∃ row ∈ opcodeTable, row.mnemonic = i.mnemonic ∧ encode i &&& row.mask = row.bits

section
variable {i : Instr} {f : Nat} (k : Nat)

theorem matchesOwnRow_of_family (hk : k < opcodeTable.length) (hf : f < 16)
    (hrow : opcodeTable[k] = ⟨i.mnemonic, 0xF000, BitVec.ofNat 16 (f * 4096)⟩) (hw : familyOf (encode i) = f) :
    MatchesOwnRow i :=
  ⟨opcodeTable[k], List.getElem_mem hk, by rw [hrow], by rw [hrow]; exact (and_family_mask_iff hf).mpr hw⟩

theorem matchesOwnRow_of_nibble {x y : Reg} {n : Nibble} (hk : k < opcodeTable.length) (hf : f < 16)
    (hrow : opcodeTable[k] = ⟨i.mnemonic, 0xF00F, BitVec.ofNat 16 (f * 4096 + n.val)⟩)
    (hw : encode i = wordXYN f x y n) : MatchesOwnRow i := by
  refine ⟨opcodeTable[k], List.getElem_mem hk, by rw [hrow], ?_⟩
  rw [hrow, hw]
  exact (and_nibble_mask_iff hf n.isLt).mpr ⟨familyOf_wordXYN hf x y n, congrArg Fin.val (fieldN_wordXYN hf x y n)⟩

theorem matchesOwnRow_of_byte {x : Reg} {nn : Byte} (hk : k < opcodeTable.length) (hf : f < 16)
    (hrow : opcodeTable[k] = ⟨i.mnemonic, 0xF0FF, BitVec.ofNat 16 (f * 4096 + nn.toNat)⟩)
    (hw : encode i = wordXNN f x nn) : MatchesOwnRow i := by
  refine ⟨opcodeTable[k], List.getElem_mem hk, by rw [hrow], ?_⟩
  rw [hrow, hw]
  exact (and_byte_mask_iff hf nn.isLt).mpr ⟨familyOf_wordXNN hf x nn, congrArg BitVec.toNat (fieldNN_wordXNN hf x nn)⟩

end

/-- Every assigned instruction satisfies its own row of R93; the row is named by its place in the table. -/
theorem matchesOwnRow_of_assigned {i : Instr} (hi : i.unassigned = false) : MatchesOwnRow i := by
  cases i with
  | unassigned0 | unassigned5 | unassigned8 | unassigned9 | unassignedE | unassignedF => cases hi
  | cls => exact ⟨opcodeTable[0], List.getElem_mem _, rfl, rfl⟩
  | ret => exact ⟨opcodeTable[1], List.getElem_mem _, rfl, rfl⟩
  | jp nnn => exact matchesOwnRow_of_family (f := 0x1) 2 (by decide) (by decide) rfl (familyOf_wordNNN (by decide) nnn)
  | call nnn => exact matchesOwnRow_of_family (f := 0x2) 3 (by decide) (by decide) rfl (familyOf_wordNNN (by decide) nnn)
  | seImm x nn => exact matchesOwnRow_of_family (f := 0x3) 4 (by decide) (by decide) rfl (familyOf_wordXNN (by decide) x nn)
  | sneImm x nn => exact matchesOwnRow_of_family (f := 0x4) 5 (by decide) (by decide) rfl (familyOf_wordXNN (by decide) x nn)
  | seReg => exact matchesOwnRow_of_nibble (f := 0x5) (n := 0x0) 6 (by decide) (by decide) rfl rfl
  | ldImm x nn => exact matchesOwnRow_of_family (f := 0x6) 7 (by decide) (by decide) rfl (familyOf_wordXNN (by decide) x nn)
  | addImm x nn => exact matchesOwnRow_of_family (f := 0x7) 8 (by decide) (by decide) rfl (familyOf_wordXNN (by decide) x nn)
  | ldReg => exact matchesOwnRow_of_nibble (f := 0x8) (n := 0x0) 9 (by decide) (by decide) rfl rfl
  | orReg => exact matchesOwnRow_of_nibble (f := 0x8) (n := 0x1) 10 (by decide) (by decide) rfl rfl
  | andReg => exact matchesOwnRow_of_nibble (f := 0x8) (n := 0x2) 11 (by decide) (by decide) rfl rfl
  | xorReg => exact matchesOwnRow_of_nibble (f := 0x8) (n := 0x3) 12 (by decide) (by decide) rfl rfl
  | addReg => exact matchesOwnRow_of_nibble (f := 0x8) (n := 0x4) 13 (by decide) (by decide) rfl rfl
  | subReg => exact matchesOwnRow_of_nibble (f := 0x8) (n := 0x5) 14 (by decide) (by decide) rfl rfl
  | shrReg => exact matchesOwnRow_of_nibble (f := 0x8) (n := 0x6) 15 (by decide) (by decide) rfl rfl
  | subnReg => exact matchesOwnRow_of_nibble (f := 0x8) (n := 0x7) 16 (by decide) (by decide) rfl rfl
  | shlReg => exact matchesOwnRow_of_nibble (f := 0x8) (n := 0xE) 17 (by decide) (by decide) rfl rfl
  | sneReg => exact matchesOwnRow_of_nibble (f := 0x9) (n := 0x0) 18 (by decide) (by decide) rfl rfl
  | ldI nnn => exact matchesOwnRow_of_family (f := 0xA) 19 (by decide) (by decide) rfl (familyOf_wordNNN (by decide) nnn)
  | jpOff nnn => exact matchesOwnRow_of_family (f := 0xB) 20 (by decide) (by decide) rfl (familyOf_wordNNN (by decide) nnn)
  | rnd x nn => exact matchesOwnRow_of_family (f := 0xC) 21 (by decide) (by decide) rfl (familyOf_wordXNN (by decide) x nn)
  | drw x y n => exact matchesOwnRow_of_family (f := 0xD) 22 (by decide) (by decide) rfl (familyOf_wordXYN (by decide) x y n)
  | skp => exact matchesOwnRow_of_byte (f := 0xE) (nn := 0x9E) 23 (by decide) (by decide) rfl rfl
  | sknp => exact matchesOwnRow_of_byte (f := 0xE) (nn := 0xA1) 24 (by decide) (by decide) rfl rfl
  | ldVxDt => exact matchesOwnRow_of_byte (f := 0xF) (nn := 0x07) 25 (by decide) (by decide) rfl rfl
  | waitKey => exact matchesOwnRow_of_byte (f := 0xF) (nn := 0x0A) 26 (by decide) (by decide) rfl rfl
  | ldDt => exact matchesOwnRow_of_byte (f := 0xF) (nn := 0x15) 27 (by decide) (by decide) rfl rfl
  | ldSt => exact matchesOwnRow_of_byte (f := 0xF) (nn := 0x18) 28 (by decide) (by decide) rfl rfl
  | addI => exact matchesOwnRow_of_byte (f := 0xF) (nn := 0x1E) 29 (by decide) (by decide) rfl rfl
  | ldFont => exact matchesOwnRow_of_byte (f := 0xF) (nn := 0x29) 30 (by decide) (by decide) rfl rfl
  | bcd => exact matchesOwnRow_of_byte (f := 0xF) (nn := 0x33) 31 (by decide) (by decide) rfl rfl
  | storeRegs => exact matchesOwnRow_of_byte (f := 0xF) (nn := 0x55) 32 (by decide) (by decide) rfl rfl
  | loadRegs => exact matchesOwnRow_of_byte (f := 0xF) (nn := 0x65) 33 (by decide) (by decide) rfl rfl

theorem opcodeTable_mnemonics_nodup : (opcodeTable.map OpcodeRow.mnemonic).Nodup := by decide

/-- No row bears the name of an unassigned space. -/
theorem mnemonic_ne_of_unassigned {i : Instr} (hi : i.unassigned = true) {row : OpcodeRow} (hrow : row ∈ opcodeTable) :
    row.mnemonic ≠ i.mnemonic := by
  have hrows : ∀ m ∈ ["UNASSIGNED_0", "UNASSIGNED_5", "UNASSIGNED_8", "UNASSIGNED_9", "UNASSIGNED_E", "UNASSIGNED_F"],
      m ∉ opcodeTable.map OpcodeRow.mnemonic := by decide
  have hname : i.mnemonic ∉ opcodeTable.map OpcodeRow.mnemonic := by
    cases i with
    | unassigned0 => exact hrows "UNASSIGNED_0" (by decide)
    | unassigned5 => exact hrows "UNASSIGNED_5" (by decide)
    | unassigned8 => exact hrows "UNASSIGNED_8" (by decide)
    | unassigned9 => exact hrows "UNASSIGNED_9" (by decide)
    | unassignedE => exact hrows "UNASSIGNED_E" (by decide)
    | unassignedF => exact hrows "UNASSIGNED_F" (by decide)
    | _ => cases hi
  exact fun e => hname (e ▸ List.mem_map_of_mem hrow)

/-! ### A word that satisfies a row decodes to it -/

section
variable {w : Word}

/-- `w` decodes to an instruction of the row when it satisfies the row's mask and match. -/
def RowSelects (w : Word) (row : OpcodeRow) : Prop := w &&& row.mask = row.bits → (decodeWord w).mnemonic = row.mnemonic

theorem rowSelects_of_family {m : String} {f : Nat} (hf : f < 16)
    (hdecode : familyOf w = f → (decodeWord w).mnemonic = m) : RowSelects w ⟨m, 0xF000, BitVec.ofNat 16 (f * 4096)⟩ :=
  fun h => hdecode ((and_family_mask_iff hf).mp h)

theorem rowSelects_of_nibble {m : String} {f n : Nat} (hf : f < 16) (hn : n < 16)
    (hdecode : familyOf w = f → (fieldN w).val = n → (decodeWord w).mnemonic = m) :
    RowSelects w ⟨m, 0xF00F, BitVec.ofNat 16 (f * 4096 + n)⟩ :=
  fun h => hdecode ((and_nibble_mask_iff hf hn).mp h).1 ((and_nibble_mask_iff hf hn).mp h).2

theorem rowSelects_of_byte {m : String} {f : Nat} {nn : Byte} (hf : f < 16)
    (hdecode : familyOf w = f → fieldNN w = nn → (decodeWord w).mnemonic = m) :
    RowSelects w ⟨m, 0xF0FF, BitVec.ofNat 16 (f * 4096 + nn.toNat)⟩ :=
  fun h => hdecode ((and_byte_mask_iff hf nn.isLt).mp h).1 (BitVec.eq_of_toNat_eq ((and_byte_mask_iff hf nn.isLt).mp h).2)

theorem rowSelects_of_word {m : String} {b : Word} (hdecode : (decodeWord b).mnemonic = m) :
    RowSelects w ⟨m, 0xFFFF, b⟩ := by
  intro h
  rw [show w = b from (mask_all w).symm.trans h]
  exact hdecode

theorem decodeWord_of_family0 (hf : familyOf w = 0x0) : decodeWord w = decodeFamily0 w := by rw [decodeWord, hf]; rfl
theorem decodeWord_of_family5 (hf : familyOf w = 0x5) : decodeWord w = decodeFamily5 w := by rw [decodeWord, hf]; rfl
theorem decodeWord_of_family8 (hf : familyOf w = 0x8) : decodeWord w = decodeFamily8 w := by rw [decodeWord, hf]; rfl
theorem decodeWord_of_family9 (hf : familyOf w = 0x9) : decodeWord w = decodeFamily9 w := by rw [decodeWord, hf]; rfl
theorem decodeWord_of_familyE (hf : familyOf w = 0xE) : decodeWord w = decodeFamilyE w := by rw [decodeWord, hf]; rfl
theorem decodeWord_of_familyF (hf : familyOf w = 0xF) : decodeWord w = decodeFamilyF w := by rw [decodeWord, hf]; rfl

/-- The rows of families 0 to 7. -/
theorem rowSelects_low (w : Word) : ∀ row ∈ opcodeRowsLow, RowSelects w row := by
  simp only [opcodeRowsLow, List.forall_mem_cons, List.not_mem_nil, IsEmpty.forall_iff, implies_true, and_true]
  refine ⟨rowSelects_of_word rfl, rowSelects_of_word rfl, ?_, ?_, ?_, ?_, ?_, ?_, ?_⟩
  · exact rowSelects_of_family (f := 0x1) (by decide) fun hf => by rw [decodeWord, hf]; rfl
  · exact rowSelects_of_family (f := 0x2) (by decide) fun hf => by rw [decodeWord, hf]; rfl
  · exact rowSelects_of_family (f := 0x3) (by decide) fun hf => by rw [decodeWord, hf]; rfl
  · exact rowSelects_of_family (f := 0x4) (by decide) fun hf => by rw [decodeWord, hf]; rfl
  · exact rowSelects_of_nibble (f := 0x5) (n := 0x0) (by decide) (by decide) fun hf hn => by
      rw [decodeWord_of_family5 hf, decodeFamily5, if_pos (Fin.ext hn)]; rfl
  · exact rowSelects_of_family (f := 0x6) (by decide) fun hf => by rw [decodeWord, hf]; rfl
  · exact rowSelects_of_family (f := 0x7) (by decide) fun hf => by rw [decodeWord, hf]; rfl

theorem rowSelects_of_nibble8 {m : String} {n : Nat} (hn : n < 16)
    (hdecode : (fieldN w).val = n → (decodeFamily8 w).mnemonic = m) :
    RowSelects w ⟨m, 0xF00F, BitVec.ofNat 16 (0x8 * 4096 + n)⟩ :=
  rowSelects_of_nibble (by decide) hn fun hf hnib => by rw [decodeWord_of_family8 hf]; exact hdecode hnib

/-- The rows of family 8. -/
theorem rowSelects_alu (w : Word) : ∀ row ∈ opcodeRowsAlu, RowSelects w row := by
  simp only [opcodeRowsAlu, List.forall_mem_cons, List.not_mem_nil, IsEmpty.forall_iff, implies_true, and_true]
  refine ⟨?_, ?_, ?_, ?_, ?_, ?_, ?_, ?_, ?_⟩
  · exact rowSelects_of_nibble8 (n := 0x0) (by decide) fun hn => by rw [decodeFamily8, hn]; rfl
  · exact rowSelects_of_nibble8 (n := 0x1) (by decide) fun hn => by rw [decodeFamily8, hn]; rfl
  · exact rowSelects_of_nibble8 (n := 0x2) (by decide) fun hn => by rw [decodeFamily8, hn]; rfl
  · exact rowSelects_of_nibble8 (n := 0x3) (by decide) fun hn => by rw [decodeFamily8, hn]; rfl
  · exact rowSelects_of_nibble8 (n := 0x4) (by decide) fun hn => by rw [decodeFamily8, hn]; rfl
  · exact rowSelects_of_nibble8 (n := 0x5) (by decide) fun hn => by rw [decodeFamily8, hn]; rfl
  · exact rowSelects_of_nibble8 (n := 0x6) (by decide) fun hn => by rw [decodeFamily8, hn]; rfl
  · exact rowSelects_of_nibble8 (n := 0x7) (by decide) fun hn => by rw [decodeFamily8, hn]; rfl
  · exact rowSelects_of_nibble8 (n := 0xE) (by decide) fun hn => by rw [decodeFamily8, hn]; rfl

theorem rowSelects_of_byteE {m : String} {nn : Byte} (hdecode : fieldNN w = nn → (decodeFamilyE w).mnemonic = m) :
    RowSelects w ⟨m, 0xF0FF, BitVec.ofNat 16 (0xE * 4096 + nn.toNat)⟩ :=
  rowSelects_of_byte (by decide) fun hf hnn => by rw [decodeWord_of_familyE hf]; exact hdecode hnn

theorem rowSelects_of_byteF {m : String} {nn : Byte} (hdecode : fieldNN w = nn → (decodeFamilyF w).mnemonic = m) :
    RowSelects w ⟨m, 0xF0FF, BitVec.ofNat 16 (0xF * 4096 + nn.toNat)⟩ :=
  rowSelects_of_byte (by decide) fun hf hnn => by rw [decodeWord_of_familyF hf]; exact hdecode hnn

/-- The rows of families 9 to F. -/
theorem rowSelects_high (w : Word) : ∀ row ∈ opcodeRowsHigh, RowSelects w row := by
  simp only [opcodeRowsHigh, List.forall_mem_cons, List.not_mem_nil, IsEmpty.forall_iff, implies_true, and_true]
  refine ⟨?_, ?_, ?_, ?_, ?_, ?_, ?_, ?_, ?_, ?_, ?_, ?_, ?_, ?_, ?_, ?_⟩
  · exact rowSelects_of_nibble (f := 0x9) (n := 0x0) (by decide) (by decide) fun hf hn => by
      rw [decodeWord_of_family9 hf, decodeFamily9, if_pos (Fin.ext hn)]; rfl
  · exact rowSelects_of_family (f := 0xA) (by decide) fun hf => by rw [decodeWord, hf]; rfl
  · exact rowSelects_of_family (f := 0xB) (by decide) fun hf => by rw [decodeWord, hf]; rfl
  · exact rowSelects_of_family (f := 0xC) (by decide) fun hf => by rw [decodeWord, hf]; rfl
  · exact rowSelects_of_family (f := 0xD) (by decide) fun hf => by rw [decodeWord, hf]; rfl
  · exact rowSelects_of_byteE (nn := 0x9E) fun hnn => by rw [decodeFamilyE, hnn]; rfl
  · exact rowSelects_of_byteE (nn := 0xA1) fun hnn => by rw [decodeFamilyE, hnn]; rfl
  · exact rowSelects_of_byteF (nn := 0x07) fun hnn => by rw [decodeFamilyF, hnn]; rfl
  · exact rowSelects_of_byteF (nn := 0x0A) fun hnn => by rw [decodeFamilyF, hnn]; rfl
  · exact rowSelects_of_byteF (nn := 0x15) fun hnn => by rw [decodeFamilyF, hnn]; rfl
  · exact rowSelects_of_byteF (nn := 0x18) fun hnn => by rw [decodeFamilyF, hnn]; rfl
  · exact rowSelects_of_byteF (nn := 0x1E) fun hnn => by rw [decodeFamilyF, hnn]; rfl
  · exact rowSelects_of_byteF (nn := 0x29) fun hnn => by rw [decodeFamilyF, hnn]; rfl
  · exact rowSelects_of_byteF (nn := 0x33) fun hnn => by rw [decodeFamilyF, hnn]; rfl
  · exact rowSelects_of_byteF (nn := 0x55) fun hnn => by rw [decodeFamilyF, hnn]; rfl
  · exact rowSelects_of_byteF (nn := 0x65) fun hnn => by rw [decodeFamilyF, hnn]; rfl

theorem rowSelects_of_mem (w : Word) {row : OpcodeRow} (hrow : row ∈ opcodeTable) : RowSelects w row := by
  simp only [opcodeTable, List.mem_append] at hrow
  obtain (hlow | halu) | hhigh := hrow
  · exact rowSelects_low w row hlow
  · exact rowSelects_alu w row halu
  · exact rowSelects_high w row hhigh

/-- An assigned word satisfies the row it decodes to. -/
theorem matchesOwnRow_of_word (hi : (decodeWord w).unassigned = false) :
    ∃ row ∈ opcodeTable, row.mnemonic = (decodeWord w).mnemonic ∧ w &&& row.mask = row.bits := by
  obtain ⟨row, hrow, hname, hmatch⟩ := matchesOwnRow_of_assigned hi
  exact ⟨row, hrow, hname, by rwa [encode_decodeWord] at hmatch⟩

/-- Settles O3: a word that satisfies a row decodes to it, row by row; a word that decodes to a row satisfies the row of its instruction,
which is that row since no two rows bear the same mnemonic. -/
theorem decodeFollowsMaskAndMatch : Obligations.DecodeFollowsMaskAndMatch := by
  refine ⟨rfl, fun w row hrow => ⟨rowSelects_of_mem w hrow, fun hname => ?_⟩⟩
  cases hi : (decodeWord w).unassigned with
  | true => exact absurd hname.symm (mnemonic_ne_of_unassigned hi hrow)
  | false =>
    obtain ⟨own, hown, hownName, hmatch⟩ := matchesOwnRow_of_word hi
    have hsame : own = row :=
      List.inj_on_of_nodup_map opcodeTable_mnemonics_nodup hown hrow (hownName.trans hname)
    rwa [hsame] at hmatch

end

/-! ### The unassigned spaces (R95) -/

section
variable {w : Word} {i : Instr}

theorem eq_unassigned0_of_mnemonic (h : i.mnemonic = "UNASSIGNED_0") : ∃ nnn, i = .unassigned0 nnn := by
  cases i with
  | unassigned0 nnn => exact ⟨nnn, rfl⟩
  | _ => simp [Instr.mnemonic] at h

theorem eq_unassigned5_of_mnemonic (h : i.mnemonic = "UNASSIGNED_5") : ∃ x y n, i = .unassigned5 x y n := by
  cases i with
  | unassigned5 x y n => exact ⟨x, y, n, rfl⟩
  | _ => simp [Instr.mnemonic] at h

theorem eq_unassigned8_of_mnemonic (h : i.mnemonic = "UNASSIGNED_8") : ∃ x y n, i = .unassigned8 x y n := by
  cases i with
  | unassigned8 x y n => exact ⟨x, y, n, rfl⟩
  | _ => simp [Instr.mnemonic] at h

theorem eq_unassigned9_of_mnemonic (h : i.mnemonic = "UNASSIGNED_9") : ∃ x y n, i = .unassigned9 x y n := by
  cases i with
  | unassigned9 x y n => exact ⟨x, y, n, rfl⟩
  | _ => simp [Instr.mnemonic] at h

theorem eq_unassignedE_of_mnemonic (h : i.mnemonic = "UNASSIGNED_E") : ∃ x nn, i = .unassignedE x nn := by
  cases i with
  | unassignedE x nn => exact ⟨x, nn, rfl⟩
  | _ => simp [Instr.mnemonic] at h

theorem eq_unassignedF_of_mnemonic (h : i.mnemonic = "UNASSIGNED_F") : ∃ x nn, i = .unassignedF x nn := by
  cases i with
  | unassignedF x nn => exact ⟨x, nn, rfl⟩
  | _ => simp [Instr.mnemonic] at h

theorem standsFor_of_decodeWord_eq (h : decodeWord w = i) : StandsFor i w := h ▸ standsFor_decodeWord w

theorem mnemonic_unassigned0_iff :
    (decodeWord w).mnemonic = "UNASSIGNED_0" ↔ familyOf w = 0x0 ∧ w ≠ 0x00E0 ∧ w ≠ 0x00EE := by
  constructor
  · intro h
    obtain ⟨nnn, hi⟩ := eq_unassigned0_of_mnemonic h
    obtain ⟨-, hw⟩ := standsFor_of_decodeWord_eq hi
    refine ⟨by rw [← hw]; exact familyOf_wordNNN (by decide) nnn, ?_, ?_⟩ <;>
      (rintro rfl; cases hi)
  · rintro ⟨hf, hcls, hret⟩
    rw [decodeWord_of_family0 hf, decodeFamily0, if_neg hcls, if_neg hret]
    rfl

theorem mnemonic_unassigned5_iff :
    (decodeWord w).mnemonic = "UNASSIGNED_5" ↔ familyOf w = 0x5 ∧ fieldN w ≠ 0 := by
  constructor
  · intro h
    obtain ⟨x, y, n, hi⟩ := eq_unassigned5_of_mnemonic h
    obtain ⟨hwf, hw⟩ := standsFor_of_decodeWord_eq hi
    rw [← hw, encode, familyOf_wordXYN (by decide), fieldN_wordXYN (by decide)]
    exact ⟨rfl, bne_iff_ne.mp hwf⟩
  · rintro ⟨hf, hn⟩
    rw [decodeWord_of_family5 hf, decodeFamily5, if_neg hn]
    rfl

theorem mnemonic_unassigned8_iff :
    (decodeWord w).mnemonic = "UNASSIGNED_8" ↔
      familyOf w = 0x8 ∧ (fieldN w).val ∈ [0x8, 0x9, 0xA, 0xB, 0xC, 0xD, 0xF] := by
  constructor
  · intro h
    obtain ⟨x, y, n, hi⟩ := eq_unassigned8_of_mnemonic h
    obtain ⟨hwf, hw⟩ := standsFor_of_decodeWord_eq hi
    rw [← hw, encode, familyOf_wordXYN (by decide), fieldN_wordXYN (by decide)]
    refine ⟨rfl, ?_⟩
    simp only [Instr.wellFormed, Bool.and_eq_true, decide_eq_true_eq, bne_iff_ne, ne_eq, Fin.ext_iff] at hwf
    simp only [List.mem_cons, List.not_mem_nil, or_false]
    omega
  · rintro ⟨hf, hn⟩
    rw [decodeWord_of_family8 hf, decodeFamily8]
    simp only [List.mem_cons, List.not_mem_nil, or_false] at hn
    rcases hn with hn | hn | hn | hn | hn | hn | hn <;> (rw [hn]; rfl)

theorem mnemonic_unassigned9_iff :
    (decodeWord w).mnemonic = "UNASSIGNED_9" ↔ familyOf w = 0x9 ∧ fieldN w ≠ 0 := by
  constructor
  · intro h
    obtain ⟨x, y, n, hi⟩ := eq_unassigned9_of_mnemonic h
    obtain ⟨hwf, hw⟩ := standsFor_of_decodeWord_eq hi
    rw [← hw, encode, familyOf_wordXYN (by decide), fieldN_wordXYN (by decide)]
    exact ⟨rfl, bne_iff_ne.mp hwf⟩
  · rintro ⟨hf, hn⟩
    rw [decodeWord_of_family9 hf, decodeFamily9, if_neg hn]
    rfl

theorem mnemonic_unassignedE_iff :
    (decodeWord w).mnemonic = "UNASSIGNED_E" ↔ familyOf w = 0xE ∧ fieldNN w ∉ assignedE := by
  constructor
  · intro h
    obtain ⟨x, nn, hi⟩ := eq_unassignedE_of_mnemonic h
    obtain ⟨hwf, hw⟩ := standsFor_of_decodeWord_eq hi
    rw [← hw, encode, familyOf_wordXNN (by decide), fieldNN_wordXNN (by decide)]
    exact ⟨rfl, by simpa [Instr.wellFormed] using hwf⟩
  · rintro ⟨hf, hnn⟩
    simp only [assignedE, List.mem_cons, List.not_mem_nil, or_false, not_or] at hnn
    rw [decodeWord_of_familyE hf, decodeFamilyE, if_neg hnn.1, if_neg hnn.2]
    rfl

theorem mnemonic_unassignedF_iff :
    (decodeWord w).mnemonic = "UNASSIGNED_F" ↔ familyOf w = 0xF ∧ fieldNN w ∉ assignedF := by
  constructor
  · intro h
    obtain ⟨x, nn, hi⟩ := eq_unassignedF_of_mnemonic h
    obtain ⟨hwf, hw⟩ := standsFor_of_decodeWord_eq hi
    rw [← hw, encode, familyOf_wordXNN (by decide), fieldNN_wordXNN (by decide)]
    exact ⟨rfl, by simpa [Instr.wellFormed] using hwf⟩
  · rintro ⟨hf, hnn⟩
    simp only [assignedF, List.mem_cons, List.not_mem_nil, or_false, not_or] at hnn
    simp only [decodeWord_of_familyF hf, decodeFamilyF, hnn, if_false]
    rfl

/-- The low byte of a word, as a number, is in a list of bytes exactly when `NN` is. -/
theorem low_byte_mem_iff (l : List Byte) : w.toNat % 256 ∈ l.map BitVec.toNat ↔ fieldNN w ∈ l := by
  rw [show w.toNat % 256 = (fieldNN w).toNat from (BitVec.toNat_ofNat w.toNat 8).symm]
  exact List.mem_map_of_injective fun _ _ => BitVec.eq_of_toNat_eq

/-- Settles O4: kind by kind; the word of an unassigned instruction has the fields its condition asks for, and a word with those fields
falls through the decoder's family. -/
theorem unassignedSpacesByFamily : Obligations.UnassignedSpacesByFamily := by
  intro w
  have hnib : fieldN w ≠ 0 ↔ w.toNat % 16 ≠ 0 := not_congr Fin.ext_iff
  have hlowE := low_byte_mem_iff (w := w) assignedE
  have hlowF := low_byte_mem_iff (w := w) assignedF
  refine ⟨mnemonic_unassigned0_iff.trans ?_, mnemonic_unassigned5_iff.trans (and_congr_right' hnib), mnemonic_unassigned8_iff,
    mnemonic_unassigned9_iff.trans (and_congr_right' hnib), mnemonic_unassignedE_iff.trans (and_congr_right' (not_congr hlowE.symm)),
    mnemonic_unassignedF_iff.trans (and_congr_right' (not_congr hlowF.symm))⟩
  simp only [← BitVec.toNat_inj, ne_eq]
  rfl

end

/-- Settles O5: each pair of bytes is decoded as written. -/
theorem writtenOutWordsDecode : Obligations.WrittenOutWordsDecode := by
  unfold Obligations.WrittenOutWordsDecode
  decide

end Sys2Proof
end

section
/-! Clear, return, jump, call, jump with offset and the random byte: 00E0, 00EE, 1NNN, 2NNN, BNNN and CXNN (40_nibble0_cls_ret.md,
41_nibble1_2_jump_call.md, 45_nibble9_A_B_C.md R152, R153). -/

namespace Sys2Proof.Machine

/-! ### The words -/

theorem encodes_cls : Encodes 0x00E0 .cls := ⟨rfl, rfl⟩

theorem encodes_ret : Encodes 0x00EE .ret := ⟨rfl, rfl⟩

theorem encodes_jp (nnn : Addr) : Encodes (0x1000 + nnn.toNat) (.jp nnn) :=
  encodes_of (wordNNN_toNat (f := 0x1) (by decide) nnn) (Laws.RoundTrip.jp nnn rfl)

theorem encodes_call (nnn : Addr) : Encodes (0x2000 + nnn.toNat) (.call nnn) :=
  encodes_of (wordNNN_toNat (f := 0x2) (by decide) nnn) (Laws.RoundTrip.call nnn rfl)

theorem encodes_jpOff (nnn : Addr) : Encodes (0xB000 + nnn.toNat) (.jpOff nnn) :=
  encodes_of (wordNNN_toNat (f := 0xB) (by decide) nnn) (Laws.RoundTrip.jpOff nnn rfl)

theorem encodes_rnd (x : Reg) (nn : Byte) : Encodes (0xC000 + 0x100 * x.val + nn.toNat) (.rnd x nn) :=
  encodes_of (by rw [encode, wordXNN_toNat (by decide)]; omega) (Laws.RoundTrip.rnd x nn rfl)

/-- The instruction word of a fault record, from the number of the word. -/
theorem Encodes.encode_eq {w : Nat} {i : Instr} (h : Encodes w i) : encode i = BitVec.ofNat 16 w := by
  rw [← h.1, BitVec.ofNat_toNat, BitVec.setWidth_eq]

/-! ### The execute phase -/

theorem exec_cls (s : State) : exec .cls s = .next (s.setDisplay clearedDisplay) := rfl

theorem exec_ret_of_cons {s : State} {w : Word} {rest : List Word} (h : s.stack = w :: rest) :
    exec .ret s = .next ((s.setStack rest).setPc w) := by
  rw [exec, execRet, popWord_of_cons h]

theorem exec_ret_of_nil {s : State} (h : s.stack = []) : exec .ret s = .next (faulted s .stackUnderflow 0x00EE 0) := by
  rw [exec, execRet, popWord_of_nil h, State.sp, h, List.length_nil,
    ← raiseFault_eq_faulted .stackUnderflow .ret 0 s encodes_ret.encode_eq]

/-- The address of 1NNN and 2NNN as a word. -/
theorem addrWord_eq_ofNat (nnn : Addr) : addrWord nnn = BitVec.ofNat 16 nnn.toNat := by
  have := nnn.isLt
  apply BitVec.eq_of_toNat_eq
  rw [addrWord_toNat, BitVec.toNat_ofNat]
  omega

theorem exec_jp (nnn : Addr) (s : State) : exec (.jp nnn) s = .next (s.setPc (addrWord nnn)) := rfl

theorem exec_call_of_room (nnn : Addr) {s : State} (h : s.stack.length < s.cfg.stackCapacity) :
    exec (.call nnn) s = .next ((s.setStack (s.pc :: s.stack)).setPc (addrWord nnn)) := by
  rw [exec, execCall, pushWord_of_room h]

theorem exec_call_of_full (nnn : Addr) {s : State} (h : s.cfg.stackCapacity ≤ s.stack.length) :
    exec (.call nnn) s = .next (faulted s .stackOverflow (0x2000 + nnn.toNat) s.stack.length) := by
  rw [exec, execCall, pushWord_of_full h, State.sp,
    ← raiseFault_eq_faulted .stackOverflow (.call nnn) s.stack.length s (encodes_call nnn).encode_eq]

/-- The target of BNNN: `NNN` and the register the mode names. -/
def offsetTarget (nnn : Addr) (s : State) : Word :=
  trunc16 (nnn.toNat + (s.getV (offsetReg s.cfg.compatMode nnn)).toNat)

theorem exec_jpOff (nnn : Addr) (s : State) : exec (.jpOff nnn) s = .next (s.setPc (offsetTarget nnn s)) := rfl

/-- The sum of BNNN is below 65536, so nothing of it is dropped (the spec's decision D9). -/
theorem offsetTarget_toNat (nnn : Addr) (s : State) :
    (offsetTarget nnn s).toNat = nnn.toNat + (s.getV (offsetReg s.cfg.compatMode nnn)).toNat := by
  have := nnn.isLt
  have := (s.getV (offsetReg s.cfg.compatMode nnn)).isLt
  rw [offsetTarget, trunc16, BitVec.toNat_ofNat]
  omega

theorem exec_rnd (x : Reg) (nn : Byte) (s : State) :
    exec (.rnd x nn) s = .next ((s.setV x (Config.randomByte s.draws &&& nn)).setDraws (s.draws + 1)) := rfl

/-! ### Replacing `PC` -/

@[simp] theorem State.setPc_setPc (s : State) (v w : Word) : (s.setPc v).setPc w = s.setPc w := rfl

@[simp] theorem State.setPc_pc_self (s : State) : s.setPc s.pc = s := rfl

/-! ### The display with every cell off -/

theorem displayCell_clearedDisplay (k : Nat) : displayCell clearedDisplay k = false := by
  simp [displayCell, pixelOn, clearedDisplay]

/-! ### The obligations -/

/-- Settles O22: the display written is the one with every cell off. -/
theorem clearTurnsEveryCellOff : Obligations.ClearTurnsEveryCellOff :=
  ⟨encodes_cls, fun s => ⟨s.setDisplay clearedDisplay, exec_cls s, fun k _ => displayCell_clearedDisplay k, rfl,
    frame_setDisplay s clearedDisplay rfl⟩⟩

/-- Settles O23: by the two forms of the stack. -/
theorem returnPopsTheStack : Obligations.ReturnPopsTheStack := by
  refine ⟨encodes_ret, fun s => ⟨fun w rest hs => ?_, exec_ret_of_nil⟩⟩
  exact ⟨(s.setStack rest).setPc w, exec_ret_of_cons hs, rfl, rfl,
    (frame_setStack s rest rfl).trans (frame_setPc _ (s.setStack rest) w)⟩

/-- Settles O24: one write to `PC`; when the target is the address of the jump, the write undoes the fetch's advance. -/
theorem jumpSetsPc : Obligations.JumpSetsPc := by
  refine fun nnn => ⟨encodes_jp nnn, fun s => ⟨by rw [exec_jp, addrWord_eq_ofNat], fun htarget => ?_⟩⟩
  have hpc : addrWord nnn = s.pc := BitVec.eq_of_toNat_eq (by rw [addrWord_toNat, htarget])
  rw [exec_jp, hpc, State.setPc_setPc, State.setPc_pc_self]

/-- Settles O25: by whether the stack has room. -/
theorem callPushesTheReturnAddress : Obligations.CallPushesTheReturnAddress := by
  refine fun nnn => ⟨encodes_call nnn, fun s => ⟨fun hroom => ?_, exec_call_of_full nnn⟩⟩
  exact ⟨(s.setStack (s.pc :: s.stack)).setPc (addrWord nnn), exec_call_of_room nnn hroom, addrWord_toNat nnn, rfl,
    (frame_setStack s _ rfl).trans (frame_setPc _ (s.setStack _) _)⟩

/-- Settles O37: the target is the sum, in full; the mode names its register. -/
theorem jumpWithOffsetFollowsTheMode : Obligations.JumpWithOffsetFollowsTheMode := by
  refine fun nnn => ⟨encodes_jpOff nnn, fun s => ⟨offsetTarget nnn s, exec_jpOff nnn s, fun hmode => ?_, fun hmode x hx => ?_⟩⟩
  · rw [offsetTarget_toNat, hmode, offsetReg]
  · have hreg : addrX nnn = x := Fin.ext hx.symm
    rw [offsetTarget_toNat, hmode, offsetReg, hreg]

/-- A byte masked with `m` has no bit outside `m`. -/
theorem and_and_not_self (b m : Byte) : b &&& m &&& ~~~m = 0 := by
  rw [BitVec.and_assoc, BitVec.and_not_self]
  exact BitVec.and_zero

/-- Settles O38: one register write and one count; the byte drawn is left free. -/
theorem randomByteIsMasked : Obligations.RandomByteIsMasked := by
  refine fun x nn => ⟨encodes_rnd x nn, fun s => ⟨(s.setV x (Config.randomByte s.draws &&& nn)).setDraws (s.draws + 1),
    exec_rnd x nn s, ?value, ?mask, rfl, rfl, ?frame⟩⟩
  case value => rw [State.setDraws_getV, State.getV_setV_same]
  case mask => rw [State.setDraws_getV, State.getV_setV_same, and_and_not_self]
  case frame => exact (frame_setV s _ rfl).trans (frame_setDraws _ _ rfl)

end Sys2Proof.Machine
end

section
/-! The instructions that write a flag and a result, 8XY4 to 8XY7 and 8XYE (44_nibble8_alu.md R144 to R149; 93_implementation_defined.md U9):
their values as numbers, and what each order of the two writes leaves. -/

namespace Sys2Proof.Machine

/-! ### The words -/

theorem encodes_addReg (x y : Reg) : Encodes (0x8004 + 0x100 * x.val + 0x10 * y.val) (.addReg x y) :=
  encodes_xyn8 (n := 0x4) rfl (Laws.RoundTrip.addReg x y rfl)

theorem encodes_subReg (x y : Reg) : Encodes (0x8005 + 0x100 * x.val + 0x10 * y.val) (.subReg x y) :=
  encodes_xyn8 (n := 0x5) rfl (Laws.RoundTrip.subReg x y rfl)

theorem encodes_shrReg (x y : Reg) : Encodes (0x8006 + 0x100 * x.val + 0x10 * y.val) (.shrReg x y) :=
  encodes_xyn8 (n := 0x6) rfl (Laws.RoundTrip.shrReg x y rfl)

theorem encodes_subnReg (x y : Reg) : Encodes (0x8007 + 0x100 * x.val + 0x10 * y.val) (.subnReg x y) :=
  encodes_xyn8 (n := 0x7) rfl (Laws.RoundTrip.subnReg x y rfl)

theorem encodes_shlReg (x y : Reg) : Encodes (0x800E + 0x100 * x.val + 0x10 * y.val) (.shlReg x y) :=
  encodes_xyn8 (n := 0xE) rfl (Laws.RoundTrip.shlReg x y rfl)

/-! ### Flags and results as numbers -/

theorem boolByte_decide_toNat (p : Prop) [Decidable p] : (boolByte (decide p)).toNat = if p then 1 else 0 := by
  by_cases h : p <;> simp [h]

theorem carryFlag_toNat (a b : Byte) : (carryFlag a b).toNat = if 255 < a.toNat + b.toNat then 1 else 0 :=
  boolByte_decide_toNat _

theorem noBorrowFlag_toNat (a b : Byte) : (noBorrowFlag a b).toNat = if b.toNat ≤ a.toNat then 1 else 0 :=
  boolByte_decide_toNat _

/-- Bit `k` of a byte, as a number. -/
theorem boolByte_getLsbD_toNat (a : Byte) (k : Nat) : (boolByte (a.getLsbD k)).toNat = a.toNat / 2 ^ k % 2 := by
  rw [BitVec.getLsbD, Nat.testBit_eq_decide_div_mod_eq, boolByte_decide_toNat]
  split <;> omega

theorem shiftRightFlag_toNat (a : Byte) : (shiftRightFlag a).toNat = a.toNat % 2 := by
  rw [shiftRightFlag, boolByte_getLsbD_toNat, Nat.pow_zero, Nat.div_one]

theorem shiftLeftFlag_toNat (a : Byte) : (shiftLeftFlag a).toNat = a.toNat / 128 := by
  have := a.isLt
  rw [shiftLeftFlag, boolByte_getLsbD_toNat]
  omega

theorem sub_toNat (a b : Byte) : (a - b).toNat = (256 + a.toNat - b.toNat) % 256 := by
  have := b.isLt
  rw [BitVec.toNat_sub]
  omega

theorem shiftRight_one_toNat (a : Byte) : (a >>> 1).toNat = a.toNat / 2 := by
  rw [BitVec.toNat_ushiftRight, Nat.shiftRight_eq_div_pow, Nat.pow_one]

theorem shiftLeft_one_toNat (a : Byte) : (a <<< 1).toNat = 2 * a.toNat % 256 := by
  rw [BitVec.toNat_shiftLeft, Nat.shiftLeft_eq, Nat.pow_one, Nat.mul_comm]

/-- A flag of one bit, shifted right, is gone. -/
theorem shiftRightFlag_shiftRight (a : Byte) : (shiftRightFlag a >>> 1).toNat = 0 := by
  rw [shiftRight_one_toNat, shiftRightFlag_toNat]
  omega

theorem shiftLeftFlag_shiftLeft (a : Byte) : (shiftLeftFlag a <<< 1).toNat = 2 * (a.toNat / 128) := by
  have := a.isLt
  rw [shiftLeft_one_toNat, shiftLeftFlag_toNat]
  omega

/-! ### The two writes -/

section
variable {x : Reg} {flag : Byte} {result : State → Byte} {s : State}

/-- With `X` not VF, and a result that does not depend on VF, the three orders agree. -/
theorem writeFlagAndResult_values (hx : x ≠ regF) (hresult : result (s.setV regF flag) = result s) :
    (writeFlagAndResult x flag result s).getV regF = flag ∧ (writeFlagAndResult x flag result s).getV x = result s := by
  refine ⟨getV_writeFlagAndResult_flag flag result s hx, ?_⟩
  unfold writeFlagAndResult
  split
  · rw [State.getV_setV_same, hresult]
  · rw [State.getV_setV_same]
  · rw [State.getV_setV_ne _ _ hx, State.getV_setV_same]

/-- Under Sequential the result is computed with the flag already in VF, and is written last. -/
theorem getV_writeFlagAndResult_sequential (hseq : s.cfg.vfOrder = .sequential) :
    (writeFlagAndResult x flag result s).getV x = result (s.setV regF flag) := by
  rw [writeFlagAndResult, hseq, State.getV_setV_same]

/-- Under the two snapshot orders the result is that of the registers before any write; with `X` = VF the later write stays. -/
theorem writeFlagAndResult_snapshot (hsnap : s.cfg.vfOrder ≠ .sequential) :
    (x ≠ regF → (writeFlagAndResult x flag result s).getV regF = flag ∧
      (writeFlagAndResult x flag result s).getV x = result s) ∧
    (x = regF → s.cfg.vfOrder = .snapshotFlagFirst → (writeFlagAndResult x flag result s).getV regF = result s) ∧
    (x = regF → s.cfg.vfOrder = .snapshotFlagLast → (writeFlagAndResult x flag result s).getV regF = flag) := by
  refine ⟨fun hx => ⟨getV_writeFlagAndResult_flag flag result s hx, ?_⟩, ?_, ?_⟩
  · unfold writeFlagAndResult
    split
    next hseq => exact absurd hseq hsnap
    next => rw [State.getV_setV_same]
    next => rw [State.getV_setV_ne _ _ hx, State.getV_setV_same]
  · rintro rfl hfirst
    rw [writeFlagAndResult, hfirst, State.getV_setV_same]
  · rintro rfl hlast
    rw [writeFlagAndResult, hlast, State.getV_setV_same]

end

/-! ### The execute phase -/

theorem exec_addReg (x y : Reg) (s : State) :
    exec (.addReg x y) s = .next (writeFlagAndResult x (carryFlag (s.getV x) (s.getV y))
      (fun _ => trunc8 ((s.getV x).toNat + (s.getV y).toNat)) s) := rfl

theorem exec_subReg (x y : Reg) (s : State) :
    exec (.subReg x y) s = .next (writeFlagAndResult x (noBorrowFlag (s.getV x) (s.getV y))
      (fun u => u.getV x - u.getV y) s) := rfl

theorem exec_subnReg (x y : Reg) (s : State) :
    exec (.subnReg x y) s = .next (writeFlagAndResult x (noBorrowFlag (s.getV y) (s.getV x))
      (fun u => u.getV y - u.getV x) s) := rfl

theorem exec_shrReg (x y : Reg) (s : State) :
    exec (.shrReg x y) s = .next (writeFlagAndResult x (shiftRightFlag (s.getV (shiftSource s.cfg.compatMode x y)))
      (fun u => u.getV (shiftSource s.cfg.compatMode x y) >>> 1) s) := rfl

theorem exec_shlReg (x y : Reg) (s : State) :
    exec (.shlReg x y) s = .next (writeFlagAndResult x (shiftLeftFlag (s.getV (shiftSource s.cfg.compatMode x y)))
      (fun u => u.getV (shiftSource s.cfg.compatMode x y) <<< 1) s) := rfl

/-- A flag and a result are written whatever the operands are; `post` is what is claimed of the two values. -/
theorem exec_of_writeFlagAndResult {i : Instr} {s : State} {x : Reg} {flag : Byte} {result : State → Byte} {post : State → Prop}
    (h : exec i s = .next (writeFlagAndResult x flag result s)) (hpost : post (writeFlagAndResult x flag result s)) :
    ∃ t, exec i s = .next t ∧ t.pc = s.pc ∧ Frame (.regAndFlag x) s t ∧ post t :=
  ⟨_, h, writeFlagAndResult_pc x flag result s, frame_writeFlagAndResult x flag result s, hpost⟩

/-! ### Operands other than VF -/

/-- Settles O31: the sum is taken before any write, so the two values do not disturb each other. -/
theorem addSetsSumAndCarry : Obligations.AddSetsSumAndCarry := by
  refine fun x y => ⟨encodes_addReg x y, fun s => exec_of_writeFlagAndResult (exec_addReg x y s) fun hx _ => ?_⟩
  obtain ⟨hflag, hresult⟩ := writeFlagAndResult_values (flag := carryFlag (s.getV x) (s.getV y))
    (result := fun _ => trunc8 ((s.getV x).toNat + (s.getV y).toNat)) hx rfl
  exact ⟨by rw [hflag, carryFlag_toNat], by rw [hresult, trunc8_toNat]⟩

/-- Settles O32: neither operand is VF, so the difference read after the flag is written is that of the registers before. -/
theorem subtractSetsDifferenceAndNoBorrow : Obligations.SubtractSetsDifferenceAndNoBorrow := by
  refine fun x y => ⟨encodes_subReg x y, encodes_subnReg x y, fun s =>
    ⟨exec_of_writeFlagAndResult (exec_subReg x y s) fun hx hy => ?_,
      exec_of_writeFlagAndResult (exec_subnReg x y s) fun hx hy => ?_⟩⟩
  · obtain ⟨hflag, hresult⟩ := writeFlagAndResult_values (s := s) (flag := noBorrowFlag (s.getV x) (s.getV y))
      (result := fun u => u.getV x - u.getV y) hx (by simp only [State.getV_setV_ne _ _ hx, State.getV_setV_ne _ _ hy])
    exact ⟨by rw [hflag, noBorrowFlag_toNat], by rw [hresult, sub_toNat]⟩
  · obtain ⟨hflag, hresult⟩ := writeFlagAndResult_values (s := s) (flag := noBorrowFlag (s.getV y) (s.getV x))
      (result := fun u => u.getV y - u.getV x) hx (by simp only [State.getV_setV_ne _ _ hx, State.getV_setV_ne _ _ hy])
    exact ⟨by rw [hflag, noBorrowFlag_toNat], by rw [hresult, sub_toNat]⟩

/-- 8XY6, when neither the destination nor the register `r` that is shifted is VF. -/
theorem shiftRight_values {x r : Reg} {s t : State} (hx : x ≠ regF) (hr : r ≠ regF)
    (ht : t = writeFlagAndResult x (shiftRightFlag (s.getV r)) (fun u => u.getV r >>> 1) s) :
    (t.getV regF).toNat = (s.getV r).toNat % 2 ∧ (t.getV x).toNat = (s.getV r).toNat / 2 := by
  obtain ⟨hflag, hresult⟩ := writeFlagAndResult_values (s := s) (flag := shiftRightFlag (s.getV r))
    (result := fun u => u.getV r >>> 1) hx (by simp only [State.getV_setV_ne _ _ hr])
  rw [ht, hflag, hresult, shiftRightFlag_toNat, shiftRight_one_toNat]
  exact ⟨rfl, rfl⟩

/-- 8XYE, when neither the destination nor the register `r` that is shifted is VF. -/
theorem shiftLeft_values {x r : Reg} {s t : State} (hx : x ≠ regF) (hr : r ≠ regF)
    (ht : t = writeFlagAndResult x (shiftLeftFlag (s.getV r)) (fun u => u.getV r <<< 1) s) :
    (t.getV regF).toNat = (s.getV r).toNat / 128 ∧ (t.getV x).toNat = 2 * (s.getV r).toNat % 256 := by
  obtain ⟨hflag, hresult⟩ := writeFlagAndResult_values (s := s) (flag := shiftLeftFlag (s.getV r))
    (result := fun u => u.getV r <<< 1) hx (by simp only [State.getV_setV_ne _ _ hr])
  rw [ht, hflag, hresult, shiftLeftFlag_toNat, shiftLeft_one_toNat]
  exact ⟨rfl, rfl⟩

/-- Settles O33: the mode names the register that is shifted; it is not VF, so writing the flag does not change it. -/
theorem shiftsByOneFollowTheMode : Obligations.ShiftsByOneFollowTheMode := by
  refine fun x y => ⟨encodes_shrReg x y, encodes_shlReg x y, fun s =>
    ⟨exec_of_writeFlagAndResult (exec_shrReg x y s) ⟨fun hmode hx hy => ?_, fun hmode hx => ?_⟩,
      exec_of_writeFlagAndResult (exec_shlReg x y s) ⟨fun hmode hx hy => ?_, fun hmode hx => ?_⟩⟩⟩
  · rw [hmode]; exact shiftRight_values hx hy rfl
  · rw [hmode]; exact shiftRight_values hx hx rfl
  · rw [hmode]; exact shiftLeft_values hx hy rfl
  · rw [hmode]; exact shiftLeft_values hx hx rfl

/-! ### VF as an operand under Sequential (R149) -/

section
variable {s t : State} {x y : Reg}

theorem addReg_flagOperand (hseq : s.cfg.vfOrder = .sequential) (h : exec (.addReg x y) s = .next t) :
    (x ≠ regF → y = regF →
      (t.getV x).toNat = ((s.getV x).toNat + (s.getV regF).toNat) % 256 ∧
      (t.getV regF).toNat = if 255 < (s.getV x).toNat + (s.getV regF).toNat then 1 else 0) ∧
    (x = regF → y ≠ regF → (t.getV regF).toNat = ((s.getV regF).toNat + (s.getV y).toNat) % 256) ∧
    (x = regF → y = regF → (t.getV regF).toNat = 2 * (s.getV regF).toNat % 256) := by
  rw [← next_inj h]
  refine ⟨?_, ?_, ?_⟩
  · rintro hx rfl
    rw [getV_writeFlagAndResult_sequential hseq, getV_writeFlagAndResult_flag _ _ _ hx, trunc8_toNat, carryFlag_toNat]
    exact ⟨rfl, rfl⟩
  · rintro rfl -
    rw [getV_writeFlagAndResult_sequential hseq, trunc8_toNat]
  · rintro rfl rfl
    rw [getV_writeFlagAndResult_sequential hseq, trunc8_toNat, Nat.two_mul]

theorem subReg_flagOperand (hseq : s.cfg.vfOrder = .sequential) (h : exec (.subReg x y) s = .next t) :
    (x ≠ regF → y = regF →
      (t.getV x).toNat =
        (256 + (s.getV x).toNat - if (s.getV regF).toNat ≤ (s.getV x).toNat then 1 else 0) % 256 ∧
      (t.getV regF).toNat = if (s.getV regF).toNat ≤ (s.getV x).toNat then 1 else 0) ∧
    (x = regF → y ≠ regF → (t.getV regF).toNat =
      (256 + (if (s.getV y).toNat ≤ (s.getV regF).toNat then 1 else 0) - (s.getV y).toNat) % 256) ∧
    (x = regF → y = regF → (t.getV regF).toNat = 0) := by
  rw [← next_inj h]
  refine ⟨?_, ?_, ?_⟩
  · rintro hx rfl
    rw [getV_writeFlagAndResult_sequential hseq, getV_writeFlagAndResult_flag _ _ _ hx, State.getV_setV_ne _ _ hx,
      State.getV_setV_same, sub_toNat, noBorrowFlag_toNat]
    exact ⟨rfl, rfl⟩
  · rintro rfl hy
    rw [getV_writeFlagAndResult_sequential hseq, State.getV_setV_same, State.getV_setV_ne _ _ hy, sub_toNat,
      noBorrowFlag_toNat]
  · rintro rfl rfl
    rw [getV_writeFlagAndResult_sequential hseq, BitVec.sub_self]
    rfl

theorem subnReg_flagOperand (hseq : s.cfg.vfOrder = .sequential) (h : exec (.subnReg x y) s = .next t) :
    (x ≠ regF → y = regF →
      (t.getV x).toNat =
        (256 + (if (s.getV x).toNat ≤ (s.getV regF).toNat then 1 else 0) - (s.getV x).toNat) % 256 ∧
      (t.getV regF).toNat = if (s.getV x).toNat ≤ (s.getV regF).toNat then 1 else 0) ∧
    (x = regF → y ≠ regF → (t.getV regF).toNat =
      (256 + (s.getV y).toNat - if (s.getV regF).toNat ≤ (s.getV y).toNat then 1 else 0) % 256) ∧
    (x = regF → y = regF → (t.getV regF).toNat = 0) := by
  rw [← next_inj h]
  refine ⟨?_, ?_, ?_⟩
  · rintro hx rfl
    rw [getV_writeFlagAndResult_sequential hseq, getV_writeFlagAndResult_flag _ _ _ hx, State.getV_setV_ne _ _ hx,
      State.getV_setV_same, sub_toNat, noBorrowFlag_toNat]
    exact ⟨rfl, rfl⟩
  · rintro rfl hy
    rw [getV_writeFlagAndResult_sequential hseq, State.getV_setV_same, State.getV_setV_ne _ _ hy, sub_toNat,
      noBorrowFlag_toNat]
  · rintro rfl rfl
    rw [getV_writeFlagAndResult_sequential hseq, BitVec.sub_self]
    rfl

theorem shrReg_flagOperand (hseq : s.cfg.vfOrder = .sequential) (h : exec (.shrReg x y) s = .next t) :
    (s.cfg.compatMode = .legacyShift →
      (x ≠ regF → y = regF → (t.getV x).toNat = 0 ∧ (t.getV regF).toNat = (s.getV regF).toNat % 2) ∧
      (x = regF → y ≠ regF → (t.getV regF).toNat = (s.getV y).toNat / 2) ∧
      (x = regF → y = regF → (t.getV regF).toNat = 0)) ∧
    (s.cfg.compatMode = .modernShift → x = regF → (t.getV regF).toNat = 0) := by
  rw [← next_inj h]
  refine ⟨fun hmode => ?_, fun hmode => ?_⟩ <;> rw [hmode]
  · refine ⟨?_, ?_, ?_⟩
    · rintro hx rfl
      rw [getV_writeFlagAndResult_sequential hseq, getV_writeFlagAndResult_flag _ _ _ hx, shiftSource, State.getV_setV_same,
        shiftRightFlag_shiftRight, shiftRightFlag_toNat]
      exact ⟨rfl, rfl⟩
    · rintro rfl hy
      rw [getV_writeFlagAndResult_sequential hseq, shiftSource, State.getV_setV_ne _ _ hy, shiftRight_one_toNat]
    · rintro rfl rfl
      rw [getV_writeFlagAndResult_sequential hseq, shiftSource, State.getV_setV_same, shiftRightFlag_shiftRight]
  · rintro rfl
    rw [getV_writeFlagAndResult_sequential hseq, shiftSource, State.getV_setV_same, shiftRightFlag_shiftRight]

theorem shlReg_flagOperand (hseq : s.cfg.vfOrder = .sequential) (h : exec (.shlReg x y) s = .next t) :
    (s.cfg.compatMode = .legacyShift →
      (x ≠ regF → y = regF → (t.getV x).toNat = 2 * ((s.getV regF).toNat / 128) ∧
        (t.getV regF).toNat = (s.getV regF).toNat / 128) ∧
      (x = regF → y ≠ regF → (t.getV regF).toNat = 2 * (s.getV y).toNat % 256) ∧
      (x = regF → y = regF → (t.getV regF).toNat = 2 * ((s.getV regF).toNat / 128))) ∧
    (s.cfg.compatMode = .modernShift → x = regF → (t.getV regF).toNat = 2 * ((s.getV regF).toNat / 128)) := by
  rw [← next_inj h]
  refine ⟨fun hmode => ?_, fun hmode => ?_⟩ <;> rw [hmode]
  · refine ⟨?_, ?_, ?_⟩
    · rintro hx rfl
      rw [getV_writeFlagAndResult_sequential hseq, getV_writeFlagAndResult_flag _ _ _ hx, shiftSource, State.getV_setV_same,
        shiftLeftFlag_shiftLeft, shiftLeftFlag_toNat]
      exact ⟨rfl, rfl⟩
    · rintro rfl hy
      rw [getV_writeFlagAndResult_sequential hseq, shiftSource, State.getV_setV_ne _ _ hy, shiftLeft_one_toNat]
    · rintro rfl rfl
      rw [getV_writeFlagAndResult_sequential hseq, shiftSource, State.getV_setV_same, shiftLeftFlag_shiftLeft]
  · rintro rfl
    rw [getV_writeFlagAndResult_sequential hseq, shiftSource, State.getV_setV_same, shiftLeftFlag_shiftLeft]

end

/-- Settles O34: instruction by instruction; an operand that is VF reads the flag, one that is not reads what was there before. -/
theorem flagAsOperandSequential : Obligations.FlagAsOperandSequential := by
  intro s t x y hseq
  exact ⟨addReg_flagOperand hseq, subReg_flagOperand hseq, subnReg_flagOperand hseq, shrReg_flagOperand hseq,
    shlReg_flagOperand hseq⟩

/-! ### VF as an operand under the snapshot orders (U9) -/

/-- The five instructions write the flag and the result that `snapshotFlag` and `snapshotResult` name. -/
theorem exists_writeFlagAndResult {x y : Reg} {i : Instr} (hi : i ∈ flagAndResultInstrs x y) (s : State) :
    ∃ flag result, exec i s = .next (writeFlagAndResult x flag result s) ∧ flag.toNat = snapshotFlag i s ∧
      (result s).toNat = snapshotResult i s := by
  simp only [flagAndResultInstrs, List.mem_cons, List.not_mem_nil, or_false] at hi
  obtain rfl | rfl | rfl | rfl | rfl := hi
  · exact ⟨_, _, exec_addReg x y s, carryFlag_toNat _ _, trunc8_toNat _⟩
  · exact ⟨_, _, exec_subReg x y s, noBorrowFlag_toNat _ _, sub_toNat _ _⟩
  · exact ⟨_, _, exec_shrReg x y s, shiftRightFlag_toNat _, shiftRight_one_toNat _⟩
  · exact ⟨_, _, exec_subnReg x y s, noBorrowFlag_toNat _ _, sub_toNat _ _⟩
  · exact ⟨_, _, exec_shlReg x y s, shiftLeftFlag_toNat _, shiftLeft_one_toNat _⟩

/-- Settles O35: the five instructions differ in flag and result alone, and the orders in which write comes last. -/
theorem flagAsOperandSnapshot : Obligations.FlagAsOperandSnapshot := by
  intro s x y i hi hsnap
  obtain ⟨flag, result, hexec, hflag, hresult⟩ := exists_writeFlagAndResult hi s
  obtain ⟨hother, hfirst, hlast⟩ := writeFlagAndResult_snapshot (x := x) (flag := flag) (result := result) hsnap
  refine ⟨_, hexec, fun hx => ?_, fun hx ho => ?_, fun hx ho => ?_⟩
  · rw [(hother hx).1, (hother hx).2]
    exact ⟨hflag, hresult⟩
  · rw [hfirst hx ho, hresult]
  · rw [hlast hx ho, hflag]

end Sys2Proof.Machine
end

section
/-! Drawing, DXYN (46_nibbleD_draw.md R160 to R164): the state a draw inside memory leaves, cell by cell, and the fault of one outside. -/

namespace Sys2Proof.Machine

/-! ### The word -/

theorem encodes_drw (x y : Reg) (n : Nibble) :
    Encodes (0xD000 + 0x100 * x.val + 0x10 * y.val + n.val) (.drw x y n) :=
  encodes_of (by rw [encode, wordXYN_toNat (by decide)]; omega) (Laws.RoundTrip.drw x y n rfl)

/-! ### The execute phase -/

/-- How many rows DXYN reads and draws in `s` (R161). -/
def spriteRows (y : Reg) (n : Nibble) (s : State) : Nat := rowsDrawn n (anchorRow (s.getV y))

/-- Every row DXYN reads lies inside memory, or it reads none. -/
def SpriteInside (y : Reg) (n : Nibble) (s : State) : Prop :=
  spriteRows y n s = 0 ∨ s.i.toNat + spriteRows y n s ≤ memSize

/-- What DXYN has drawn at its end. -/
def drawnCanvas (x y : Reg) (n : Nibble) (s : State) : Canvas :=
  drawRows (anchorColumn (s.getV x)) (anchorRow (s.getV y)) (bytesAt s s.i.toNat (spriteRows y n s))
    { cells := s.display, hit := false }

/-- The next state of a DXYN that raises no fault. -/
def drawnState (x y : Reg) (n : Nibble) (s : State) : State :=
  ((s.setDisplay (drawnCanvas x y n s).cells).setV regF (collisionFlag (drawnCanvas x y n s).hit)).setDrawPending true

section
variable {x y : Reg} {n : Nibble} {s : State}

theorem exec_drw_inside (h : SpriteInside y n s) : exec (.drw x y n) s = .next (drawnState x y n s) := by
  have hread : readBytes (effectiveAddr s 0) (rowsDrawn n (anchorRow (s.getV y))) s =
      .ok (bytesAt s s.i.toNat (spriteRows y n s)) := readBytes_inside s h
  simp only [exec, execDrw, hread]
  rfl

theorem exec_drw_outside (hrows : 0 < spriteRows y n s) (h : memSize < s.i.toNat + spriteRows y n s) :
    exec (.drw x y n) s = .next (faulted s .memoryOutOfRange (0xD000 + 0x100 * x.val + 0x10 * y.val + n.val)
      (max s.i.toNat memSize)) := by
  have hread : readBytes (effectiveAddr s 0) (rowsDrawn n (anchorRow (s.getV y))) s =
      .error (max s.i.toNat memSize) := readBytes_outside s (Nat.ne_of_gt hrows) h
  simp only [exec, execDrw, hread]
  rw [raiseFault_eq_faulted _ _ _ s (encodes_drw x y n).encode_eq]

/-- A DXYN that leaves no fault recorded has read inside memory. -/
theorem spriteInside_of_fault_eq_none {t : State} (h : exec (.drw x y n) s = .next t) (ht : t.fault = none) :
    SpriteInside y n s := by
  by_contra hout
  obtain ⟨hrows, hlast⟩ := not_or.mp hout
  rw [exec_drw_outside (Nat.pos_of_ne_zero hrows) (Nat.lt_of_not_le hlast)] at h
  rw [← next_inj h] at ht
  cases ht

theorem frame_drawnState (x y : Reg) (n : Nibble) (s : State) :
    Frame { regs := fun r => r = regF, display := true, drawPending := true } s (drawnState x y n s) :=
  ((frame_setDisplay s _ rfl).trans (frame_setV _ _ rfl)).trans (frame_setDrawPending _ _ rfl)

end

/-! ### Cells -/

theorem displayCell_eq_pixelOn (d : DisplayBuffer) {col : Nat} (hcol : col < 64) (row : Nat) :
    displayCell d (row * 64 + col) = pixelOn d col row := by
  rw [displayCell, show (row * 64 + col) % 64 = col by omega, show (row * 64 + col) / 64 = row by omega]

theorem row_lt_of_pixelOn {d : DisplayBuffer} {col row : Nat} (h : pixelOn d col row = true) : row < 32 := by
  by_contra hrow
  rw [pixelOn, dif_neg hrow] at h
  cases h

/-- The sprite bits of the rows that were read are those the claims speak of: below the grid nothing is read. -/
theorem rowsPixel_bytesAt (s : State) (x0 y0 : Nat) (n : Nibble) (col : Nat) {row : Nat} (hrow : row < 32) :
    rowsPixel x0 y0 (bytesAt s s.i.toNat (rowsDrawn n y0)) col row = spritePixel s x0 y0 n.val col row := by
  unfold rowsPixel spritePixel
  by_cases hin : y0 ≤ row ∧ row < y0 + n.val
  · have hk : row - y0 < (bytesAt s s.i.toNat (rowsDrawn n y0)).length := by
      rw [bytesAt_length, rowsDrawn]
      omega
    rw [List.getElem?_eq_getElem hk, Option.getD_some, bytesAt_getElem]
    congr 1
    simp only [decide_eq_decide]
    omega
  · have hout : ¬ (x0 ≤ col ∧ col < x0 + 8 ∧ y0 ≤ row ∧ row < y0 + n.val) := fun h => hin ⟨h.2.2.1, h.2.2.2⟩
    rw [decide_eq_false hout, Bool.false_and]
    by_cases hy : y0 ≤ row
    · have hk : (bytesAt s s.i.toNat (rowsDrawn n y0)).length ≤ row - y0 := by
        rw [bytesAt_length, rowsDrawn]
        omega
      rw [List.getElem?_eq_none hk, Option.getD_none]
      exact (congrArg _ BitVec.getLsbD_zero).trans (Bool.and_false _)
    · rw [decide_eq_false fun h => hy h.2.2, Bool.false_and]

section
variable (x y : Reg) (n : Nibble) (s : State)

theorem drawnCanvas_spec :
    (∀ col row, col < 64 → pixelOn (drawnCanvas x y n s).cells col row = (pixelOn s.display col row ^^
      rowsPixel (anchorColumn (s.getV x)) (anchorRow (s.getV y)) (bytesAt s s.i.toNat (spriteRows y n s)) col row)) ∧
    ((drawnCanvas x y n s).hit = true ↔ ∃ col < 64, ∃ row,
      rowsPixel (anchorColumn (s.getV x)) (anchorRow (s.getV y)) (bytesAt s s.i.toNat (spriteRows y n s)) col row = true ∧
        pixelOn s.display col row = true) := by
  have hcol : anchorColumn (s.getV x) < 64 := Nat.mod_lt _ (by decide)
  have hrow : anchorRow (s.getV y) < 32 := Nat.mod_lt _ (by decide)
  have hfit : anchorRow (s.getV y) + (bytesAt s s.i.toNat (spriteRows y n s)).length ≤ 32 := by
    rw [bytesAt_length, spriteRows, rowsDrawn]
    omega
  obtain ⟨hcells, hhit⟩ := drawRows_spec { cells := s.display, hit := false } hcol hfit
  exact ⟨hcells, hhit.trans (or_iff_right Bool.false_ne_true)⟩

/-- Each cell is XORed with the sprite bit that falls on it (R160). -/
theorem pixelOn_drawnState {col row : Nat} (hcol : col < 64) (hrow : row < 32) :
    pixelOn (drawnState x y n s).display col row = (pixelOn s.display col row ^^
      spritePixel s (anchorColumn (s.getV x)) (anchorRow (s.getV y)) n.val col row) := by
  rw [← rowsPixel_bytesAt s _ _ n col hrow]
  exact (drawnCanvas_spec x y n s).1 col row hcol

/-- A collision is a cell that was on under a sprite bit of 1 (R160). -/
theorem drawnCanvas_hit_iff :
    (drawnCanvas x y n s).hit = true ↔ ∃ col row, col < 64 ∧ row < 32 ∧
      spritePixel s (anchorColumn (s.getV x)) (anchorRow (s.getV y)) n.val col row = true ∧
        pixelOn s.display col row = true := by
  rw [(drawnCanvas_spec x y n s).2]
  constructor
  · rintro ⟨col, hcol, row, hbit, hon⟩
    have hrow := row_lt_of_pixelOn hon
    exact ⟨col, row, hcol, hrow, by rwa [← rowsPixel_bytesAt s _ _ n col hrow], hon⟩
  · rintro ⟨col, row, hcol, hrow, hbit, hon⟩
    exact ⟨col, hcol, row, by rwa [← rowsPixel_bytesAt s _ _ n col hrow] at hbit, hon⟩

theorem drawnState_getV_regF : (drawnState x y n s).getV regF = collisionFlag (drawnCanvas x y n s).hit := by
  rw [drawnState, State.setDrawPending_getV, State.getV_setV_same]

end

/-! ### The obligations -/

/-- Settles O39: the state a draw inside memory leaves, with its cells, its collision flag and its frame. -/
theorem drawXorsEachPixel : Obligations.DrawXorsEachPixel := by
  refine fun x y n => ⟨encodes_drw x y n, fun s hin =>
    ⟨drawnState x y n s, exec_drw_inside hin, ?cells, ?collision, ?noCollision, rfl, rfl, frame_drawnState x y n s⟩⟩
  case cells =>
    intro col row hcol hrow
    rw [displayCell_eq_pixelOn _ hcol, displayCell_eq_pixelOn _ hcol]
    exact pixelOn_drawnState x y n s hcol hrow
  case collision =>
    rintro ⟨col, row, hcol, hrow, hbit, hon⟩
    rw [displayCell_eq_pixelOn _ hcol] at hon
    rw [drawnState_getV_regF, (drawnCanvas_hit_iff x y n s).mpr ⟨col, row, hcol, hrow, hbit, hon⟩]
    rfl
  case noCollision =>
    intro hoff
    have hmiss : (drawnCanvas x y n s).hit = false := by
      rw [Bool.eq_false_iff, ne_eq, drawnCanvas_hit_iff]
      rintro ⟨col, row, hcol, hrow, hbit, hon⟩
      rw [← displayCell_eq_pixelOn _ hcol, hoff col row hcol hrow hbit] at hon
      cases hon
    rw [drawnState_getV_regF, hmiss]
    rfl

/-- Settles O40: a read that leaves memory answers the lowest offending address before anything is drawn. -/
theorem drawOutsideMemoryFaults : Obligations.DrawOutsideMemoryFaults :=
  fun _ _ _ _ hrows hlast => exec_drw_outside hrows hlast

/-- What DXYN reads besides the display is not changed by a DXYN with operands other than VF. -/
theorem spritePixel_drawnState (x y : Reg) (n : Nibble) (s : State) (x0 y0 m col row : Nat) :
    spritePixel (drawnState x y n s) x0 y0 m col row = spritePixel s x0 y0 m col row := rfl

/-- Settles O41: the second draw reads the same operands, the same rows and the same anchor, and XORs every cell with the same bit. -/
theorem drawingTwiceRestoresTheDisplay : Obligations.DrawingTwiceRestoresTheDisplay := by
  intro x y n s t hx hy hs h ht
  have hin := spriteInside_of_fault_eq_none h ht
  obtain rfl : drawnState x y n s = t := next_inj ((exec_drw_inside hin).symm.trans h)
  have hframe := frame_drawnState x y n s
  have hvx : (drawnState x y n s).getV x = s.getV x := hframe.regs x hx
  have hvy : (drawnState x y n s).getV y = s.getV y := hframe.regs y hy
  have hin' : SpriteInside y n (drawnState x y n s) := by
    rw [SpriteInside, spriteRows, hvy, hframe.i rfl]
    exact hin
  refine ⟨_, exec_drw_inside hin', DisplayBuffer_ext fun col row hcol hrow => ?_,
    ((frame_drawnState x y n _).fault rfl).trans ht⟩
  rw [pixelOn_drawnState _ _ _ _ hcol hrow, pixelOn_drawnState _ _ _ _ hcol hrow, hvx, hvy, spritePixel_drawnState,
    Bool.xor_assoc, Bool.xor_self, Bool.xor_false]

end Sys2Proof.Machine
end

section
/-! The key skips and the key wait, EX9E, EXA1 and FX0A, and the index register, FX1E and FX29 (47_nibbleE_keys.md,
48_nibbleF_misc.md R181, R184, R185). -/

namespace Sys2Proof.Machine

/-! ### The words -/

/-- An instruction of family E that decodes from its own word has the word `EXNN`. -/
theorem encodes_xnnE {i : Instr} {x : Reg} {nn : Byte} (hw : encode i = wordXNN 0xE x nn)
    (hd : decodeWord (encode i) = i) : Encodes (0xE000 + nn.toNat + 0x100 * x.val) i :=
  encodes_of (by rw [hw, wordXNN_toNat (by decide)]; omega) hd

theorem encodes_skp (x : Reg) : Encodes (0xE09E + 0x100 * x.val) (.skp x) :=
  encodes_xnnE (nn := 0x9E) rfl (Laws.RoundTrip.skp x rfl)

theorem encodes_sknp (x : Reg) : Encodes (0xE0A1 + 0x100 * x.val) (.sknp x) :=
  encodes_xnnE (nn := 0xA1) rfl (Laws.RoundTrip.sknp x rfl)

theorem encodes_waitKey (x : Reg) : Encodes (0xF00A + 0x100 * x.val) (.waitKey x) :=
  encodes_xnnF (nn := 0x0A) rfl (Laws.RoundTrip.waitKey x rfl)

theorem encodes_addI (x : Reg) : Encodes (0xF01E + 0x100 * x.val) (.addI x) :=
  encodes_xnnF (nn := 0x1E) rfl (Laws.RoundTrip.addI x rfl)

theorem encodes_ldFont (x : Reg) : Encodes (0xF029 + 0x100 * x.val) (.ldFont x) :=
  encodes_xnnF (nn := 0x29) rfl (Laws.RoundTrip.ldFont x rfl)

/-! ### Keys -/

theorem keyOperand_of_eq {b : Byte} {k : Key} (h : k.val = b.toNat) : keyOperand b = some k := by
  rw [keyOperand_of_lt (h ▸ k.isLt)]
  exact congrArg some (Fin.ext h.symm)

theorem skipIf_eq_ite (c : Bool) (s : State) : skipIf c s = if c = true then s.setPc (s.pc + 2) else s := rfl

theorem skipIf_not_eq_ite (c : Bool) (s : State) : skipIf (!c) s = if c = true then s else s.setPc (s.pc + 2) := by
  cases c <;> rfl

section
variable {x : Reg} {s : State}

theorem exec_skp_of_key {k : Key} (hk : k.val = (s.getV x).toNat) :
    exec (.skp x) s = .next (if s.keys[k] = true then s.setPc (s.pc + 2) else s) := by
  rw [exec, execSkp, keyOperand_of_eq hk]
  exact congrArg _ (skipIf_eq_ite (s.keyDown k) s)

theorem exec_sknp_of_key {k : Key} (hk : k.val = (s.getV x).toNat) :
    exec (.sknp x) s = .next (if s.keys[k] = true then s else s.setPc (s.pc + 2)) := by
  rw [exec, execSknp, keyOperand_of_eq hk]
  exact congrArg _ (skipIf_not_eq_ite (s.keyDown k) s)

theorem exec_skp_of_no_key (h : 15 < (s.getV x).toNat) :
    exec (.skp x) s = .next (faulted s .keyIndexOutOfRange (0xE09E + 0x100 * x.val) (s.getV x).toNat) := by
  rw [exec, execSkp, keyOperand_of_ge h, ← raiseFault_eq_faulted _ _ _ s (encodes_skp x).encode_eq]

theorem exec_sknp_of_no_key (h : 15 < (s.getV x).toNat) :
    exec (.sknp x) s = .next (faulted s .keyIndexOutOfRange (0xE0A1 + 0x100 * x.val) (s.getV x).toNat) := by
  rw [exec, execSknp, keyOperand_of_ge h, ← raiseFault_eq_faulted _ _ _ s (encodes_sknp x).encode_eq]

/-- The key found is the only one that is down with every lower one up. -/
theorem lowestKeyDown_eq_some {k : Key} (hk : s.keys[k] = true) (hlow : ∀ j : Key, j < k → s.keys[j] = false) :
    lowestKeyDown s = some k := by
  cases hfound : lowestKeyDown s with
  | none => exact absurd (hk.symm.trans (lowestKeyDown_none.mp hfound k)) Bool.noConfusion
  | some j =>
    obtain ⟨hj, hbelow⟩ := lowestKeyDown_some hfound
    rcases lt_trichotomy j k with hjk | rfl | hkj
    · exact absurd (hj.symm.trans (hlow j hjk)) Bool.noConfusion
    · rfl
    · exact absurd (hk.symm.trans (hbelow k hkj)) Bool.noConfusion

theorem exec_waitKey_of_up (x : Reg) (h : ∀ k : Key, s.keys[k] = false) :
    exec (.waitKey x) s = .next (s.setPc (s.pc - 2)) := by
  rw [exec, execWaitKey, lowestKeyDown_none.mpr h, rewindPc]

theorem exec_waitKey_of_down (x : Reg) {k : Key} (h : lowestKeyDown s = some k) :
    exec (.waitKey x) s = .next (s.setV x (trunc8 k.val)) := by
  rw [exec, execWaitKey, h]

end

/-- The number of a key fits a byte. -/
theorem trunc8_key_toNat (k : Key) : (trunc8 k.val).toNat = k.val := by
  rw [trunc8_toNat]
  omega

/-- Settles O42: by whether `V[X]` names a key. -/
theorem keySkipsTestOneKey : Obligations.KeySkipsTestOneKey := fun x =>
  ⟨encodes_skp x, encodes_sknp x, fun _ => ⟨fun _ hk => ⟨exec_skp_of_key hk, exec_sknp_of_key hk⟩,
    fun h => ⟨exec_skp_of_no_key h, exec_sknp_of_no_key h⟩⟩⟩

/-- Settles O44: with no key down the search finds none; else it finds the lowest one. -/
theorem keyWaitRewindsOrCompletes : Obligations.KeyWaitRewindsOrCompletes := by
  refine fun x => ⟨encodes_waitKey x, fun s => ⟨exec_waitKey_of_up x, fun k hk hlow => ?_⟩⟩
  obtain ⟨t, ht, hv, hpc, hframe⟩ := exec_of_setV (exec_waitKey_of_down x (lowestKeyDown_eq_some hk hlow))
  exact ⟨t, ht, by rw [hv, trunc8_key_toNat], hpc, hframe⟩

/-! ### The index register -/

theorem trunc16_toNat (v : Nat) : (trunc16 v).toNat = v % 65536 := BitVec.toNat_ofNat v 16

theorem exec_addI_legacy (x : Reg) {s : State} (h : s.cfg.compatMode = .legacyShift) :
    exec (.addI x) s = .next (s.setI (trunc16 (s.i.toNat + (s.getV x).toNat))) := by
  simp only [exec, execAddI, h]

theorem exec_addI_modern (x : Reg) {s : State} (h : s.cfg.compatMode = .modernShift) :
    exec (.addI x) s = .next ((s.setI (trunc16 (s.i.toNat + (s.getV x).toNat))).setV regF
      (indexFlag (trunc16 (s.i.toNat + (s.getV x).toNat)))) := by
  simp only [exec, execAddI, h, State.setI_i]

theorem indexFlag_toNat (w : Word) : (indexFlag w).toNat = if 0xFFF < w.toNat then 1 else 0 :=
  boolByte_decide_toNat _

/-- Settles O45: by the mode. -/
theorem addToIndexFollowsTheMode : Obligations.AddToIndexFollowsTheMode := by
  refine fun x => ⟨encodes_addI x, fun s => ?_⟩
  cases hmode : s.cfg.compatMode with
  | legacyShift =>
    refine ⟨_, exec_addI_legacy x hmode, trunc16_toNat _, rfl, fun _ => frame_setI s _ rfl, ?_⟩
    rintro ⟨⟩
  | modernShift =>
    refine ⟨_, exec_addI_modern x hmode, trunc16_toNat _, rfl, ?_, fun _ => ⟨?_, ?_⟩⟩
    · rintro ⟨⟩
    · rw [State.getV_setV_same, indexFlag_toNat]
      rfl
    · exact (frame_setI s _ rfl).trans (frame_setV _ _ rfl)

theorem exec_ldFont (x : Reg) (s : State) :
    exec (.ldFont x) s = .next (s.setI (trunc16 ((s.getV x).toNat * 5))) := rfl

/-- Settles O46: five times a byte fits a word. -/
theorem fontAddressIsFiveTimesTheDigit : Obligations.FontAddressIsFiveTimesTheDigit := by
  refine fun x => ⟨encodes_ldFont x, fun s => ⟨_, exec_ldFont x s, ?_, rfl, frame_setI s _ rfl⟩⟩
  have := (s.getV x).isLt
  rw [State.setI_i, trunc16_toNat]
  omega

end Sys2Proof.Machine
end

section
/-! Transfers between registers and memory, FX33, FX55 and FX65 (48_nibbleF_misc.md R186 to R189; 20_memory.md R64, R72). -/

namespace Sys2Proof.Machine

/-! ### The words -/

theorem encodes_bcd (x : Reg) : Encodes (0xF033 + 0x100 * x.val) (.bcd x) :=
  encodes_xnnF (nn := 0x33) rfl (Laws.RoundTrip.bcd x rfl)

theorem encodes_storeRegs (x : Reg) : Encodes (0xF055 + 0x100 * x.val) (.storeRegs x) :=
  encodes_xnnF (nn := 0x55) rfl (Laws.RoundTrip.storeRegs x rfl)

theorem encodes_loadRegs (x : Reg) : Encodes (0xF065 + 0x100 * x.val) (.loadRegs x) :=
  encodes_xnnF (nn := 0x65) rfl (Laws.RoundTrip.loadRegs x rfl)

/-! ### The execute phase -/

theorem effectiveAddr_eq (s : State) (k : Nat) : effectiveAddr s k = s.i.toNat + k := rfl

theorem decimalDigits_length (v : Byte) : (decimalDigits v).length = 3 := rfl

theorem decimalDigits_ne_nil (v : Byte) : decimalDigits v ≠ [] := List.cons_ne_nil _ _

theorem WrittenBytes.pc {a : Nat} {l : List Byte} {s t : State} (h : WrittenBytes a l s t) : t.pc = s.pc := by
  rw [h.frame, State.setMem_pc]

section
variable (x : Reg) {s : State}

theorem exec_bcd_inside (h : s.i.toNat + 2 ≤ 4095) :
    ∃ t, exec (.bcd x) s = .next t ∧ WrittenBytes (effectiveAddr s 0) (decimalDigits (s.getV x)) s t := by
  have hin : effectiveAddr s 0 + (decimalDigits (s.getV x)).length ≤ memSize := by
    rw [decimalDigits_length, effectiveAddr_eq, memSize]
    omega
  obtain ⟨t, ht, hw⟩ := writeBytes_inside s (.inr hin)
  exact ⟨t, by rw [exec, execBcd, ht], hw⟩

theorem exec_bcd_outside (h : 4095 < s.i.toNat + 2) :
    exec (.bcd x) s = .next (faulted s .memoryOutOfRange (0xF033 + 0x100 * x.val) (max s.i.toNat 4096)) := by
  have hout : memSize < effectiveAddr s 0 + (decimalDigits (s.getV x)).length := by
    rw [decimalDigits_length, effectiveAddr_eq, memSize]
    omega
  rw [exec, execBcd, writeBytes_outside s (decimalDigits_ne_nil _) hout]
  exact congrArg _ (raiseFault_eq_faulted _ _ _ s (encodes_bcd x).encode_eq)

theorem exec_storeRegs_inside (h : s.i.toNat + x.val ≤ 4095) :
    ∃ t, exec (.storeRegs x) s = .next (t.setI (indexAfterTransfer s.cfg.compatMode x s.i)) ∧
      WrittenBytes (effectiveAddr s 0) (regsUpTo x s) s t := by
  have hin : effectiveAddr s 0 + (regsUpTo x s).length ≤ memSize := by
    rw [regsUpTo_length, effectiveAddr_eq, memSize]
    omega
  obtain ⟨t, ht, hw⟩ := writeBytes_inside s (.inr hin)
  exact ⟨t, by rw [exec, execStoreRegs, ht], hw⟩

theorem exec_storeRegs_outside (h : 4095 < s.i.toNat + x.val) :
    exec (.storeRegs x) s = .next (faulted s .memoryOutOfRange (0xF055 + 0x100 * x.val) (max s.i.toNat 4096)) := by
  have hout : memSize < effectiveAddr s 0 + (regsUpTo x s).length := by
    rw [regsUpTo_length, effectiveAddr_eq, memSize]
    omega
  have hne : regsUpTo x s ≠ [] := List.ne_nil_of_length_pos (by rw [regsUpTo_length]; omega)
  rw [exec, execStoreRegs, writeBytes_outside s hne hout]
  exact congrArg _ (raiseFault_eq_faulted _ _ _ s (encodes_storeRegs x).encode_eq)

theorem exec_loadRegs_inside (h : s.i.toNat + x.val ≤ 4095) :
    exec (.loadRegs x) s = .next ((setRegsFrom 0 (bytesAt s (effectiveAddr s 0) (x.val + 1)) s).setI
      (indexAfterTransfer s.cfg.compatMode x s.i)) := by
  have hin : effectiveAddr s 0 + (x.val + 1) ≤ memSize := by
    rw [effectiveAddr_eq, memSize]
    omega
  rw [exec, execLoadRegs, readBytes_inside s (.inr hin)]

theorem exec_loadRegs_outside (h : 4095 < s.i.toNat + x.val) :
    exec (.loadRegs x) s = .next (faulted s .memoryOutOfRange (0xF065 + 0x100 * x.val) (max s.i.toNat 4096)) := by
  have hout : memSize < effectiveAddr s 0 + (x.val + 1) := by
    rw [effectiveAddr_eq, memSize]
    omega
  rw [exec, execLoadRegs, readBytes_outside s (Nat.succ_ne_zero _) hout]
  exact congrArg _ (raiseFault_eq_faulted _ _ _ s (encodes_loadRegs x).encode_eq)

/-- In LegacyShift `I` moves past the last byte; inside memory the sum does not wrap (the spec's decision D10). -/
theorem indexAfterTransfer_legacy_toNat (h : s.i.toNat + x.val ≤ 4095) :
    (indexAfterTransfer .legacyShift x s.i).toNat = s.i.toNat + x.val + 1 := by
  rw [indexAfterTransfer, trunc16_toNat]
  omega

end

/-! ### Decimal digits -/

/-- The digits of a byte are below 256, so none is truncated. -/
theorem decimalDigits_toNat (v : Byte) : (trunc8 (v.toNat / 100)).toNat = v.toNat / 100 ∧
    (trunc8 (v.toNat / 10 % 10)).toNat = v.toNat / 10 % 10 ∧ (trunc8 (v.toNat % 10)).toNat = v.toNat % 10 := by
  have := v.isLt
  simp only [trunc8_toNat]
  omega

/-- Settles O47: the three bytes written are the digits, which make the byte up. -/
theorem decimalDigitsAreStored : Obligations.DecimalDigitsAreStored := by
  refine fun x => ⟨encodes_bcd x, fun s => ⟨fun hin => ?_, exec_bcd_outside x⟩⟩
  obtain ⟨t, ht, hw⟩ := exec_bcd_inside x hin
  obtain ⟨hundreds, htens, hones⟩ := decimalDigits_toNat (s.getV x)
  have h0 : (t.readByte (effectiveAddr s 0)).toNat = (s.getV x).toNat / 100 :=
    (congrArg BitVec.toNat (hw.stored 0 (by rw [decimalDigits_length]; decide))).trans hundreds
  have h1 : (t.readByte (effectiveAddr s 1)).toNat = (s.getV x).toNat / 10 % 10 :=
    (congrArg BitVec.toNat (hw.stored 1 (by rw [decimalDigits_length]; decide))).trans htens
  have h2 : (t.readByte (effectiveAddr s 2)).toNat = (s.getV x).toNat % 10 :=
    (congrArg BitVec.toNat (hw.stored 2 (by rw [decimalDigits_length]; decide))).trans hones
  refine ⟨t, ht, h0, h1, h2, by rw [h0, h1, h2]; omega, hw.pc, frame_writtenBytes hw fun q hlo hhi => ⟨hlo, ?_⟩⟩
  rw [decimalDigits_length, effectiveAddr_eq] at hhi
  rw [effectiveAddr_eq]
  omega

/-! ### Storing and loading registers -/

section
variable {x : Reg} {s t : State}

/-- FX55 inside memory leaves each register where it stored it. -/
theorem readByte_of_exec_storeRegs (hin : s.i.toNat + x.val ≤ 4095) (h : exec (.storeRegs x) s = .next t) {r : Reg} (hr : r ≤ x) :
    t.readByte (effectiveAddr s r.val) = s.getV r := by
  obtain ⟨u, hu, hw⟩ := exec_storeRegs_inside x hin
  obtain rfl := next_inj (hu.symm.trans h)
  have hlt : r.val < (regsUpTo x s).length := by
    rw [regsUpTo_length]
    exact Nat.lt_succ_of_le hr
  rw [State.setI_readByte]
  exact (hw.stored r.val hlt).trans (regsUpTo_getElem x s r.val hlt)

/-- FX65 inside memory leaves in each register up to `X` the byte it loaded. -/
theorem getV_of_exec_loadRegs (hin : s.i.toNat + x.val ≤ 4095) (h : exec (.loadRegs x) s = .next t) {r : Reg} (hr : r ≤ x) :
    t.getV r = s.readByte (effectiveAddr s r.val) := by
  obtain rfl := next_inj ((exec_loadRegs_inside x hin).symm.trans h)
  have hlt : 0 ≤ r.val ∧ r.val - 0 < (bytesAt s (effectiveAddr s 0) (x.val + 1)).length := by
    rw [bytesAt_length]
    exact ⟨Nat.zero_le _, Nat.lt_succ_of_le hr⟩
  rw [State.setI_getV, getV_setRegsFrom, dif_pos hlt, bytesAt_getElem]
  rfl

end

/-- Settles O48: the bytes written are the registers, `I` is written by the mode. -/
theorem storeRegistersWritesMemory : Obligations.StoreRegistersWritesMemory := by
  refine fun x => ⟨encodes_storeRegs x, fun s => ⟨fun hin => ?_, exec_storeRegs_outside x⟩⟩
  obtain ⟨t, ht, hw⟩ := exec_storeRegs_inside x hin
  refine ⟨_, ht, fun r hr => readByte_of_exec_storeRegs hin ht hr, fun hmode => ?_, fun hmode => ?_, hw.pc, ?_⟩
  · rw [State.setI_i, hmode, indexAfterTransfer_legacy_toNat x hin]
  · rw [State.setI_i, hmode, indexAfterTransfer]
  · refine Frame.trans (frame_writtenBytes hw fun q hlo hhi => ?_) (frame_setI t _ rfl)
    refine ⟨hlo, ?_⟩
    rw [regsUpTo_length, effectiveAddr_eq] at hhi
    rw [effectiveAddr_eq]
    omega

/-- Settles O49: the registers written are those up to `X`, `I` is written by the mode. -/
theorem loadRegistersReadsMemory : Obligations.LoadRegistersReadsMemory := by
  refine fun x => ⟨encodes_loadRegs x, fun s => ⟨fun hin => ?_, exec_loadRegs_outside x⟩⟩
  have ht := exec_loadRegs_inside x hin
  refine ⟨_, ht, fun r hr => getV_of_exec_loadRegs hin ht hr, fun hmode => ?_, fun hmode => ?_, ?_, ?_⟩
  · rw [State.setI_i, hmode, indexAfterTransfer_legacy_toNat x hin]
  · rw [State.setI_i, hmode, indexAfterTransfer]
  · rw [State.setI_pc, setRegsFrom_frame]
  · refine (frame_setRegsFrom 0 _ s fun r _ hr => ?_).trans (frame_setI _ _ rfl)
    rw [bytesAt_length] at hr
    exact Fin.le_iff_val_le_val.mpr (by omega)

/-- Settles O50: each register is loaded from the address it was stored at. -/
theorem loadAfterStoreGivesTheRegistersBack : Obligations.LoadAfterStoreGivesTheRegistersBack := by
  intro x s t u w hin hstore hi hmem hload r hr
  have haddr : effectiveAddr u r.val = effectiveAddr s r.val := by rw [effectiveAddr_eq, effectiveAddr_eq, hi]
  calc w.getV r = u.readByte (effectiveAddr u r.val) := getV_of_exec_loadRegs (by rwa [hi]) hload hr
    _ = t.readByte (effectiveAddr s r.val) := by rw [hmem, haddr]
    _ = s.getV r := readByte_of_exec_storeRegs hin hstore hr

theorem wordOfBytes_toNat (hi lo : Byte) : (wordOfBytes hi lo).toNat = hi.toNat * 256 + lo.toNat := by
  have := hi.isLt
  have := lo.isLt
  rw [wordOfBytes, BitVec.toNat_ofNat]
  omega

/-- Settles O51: the two bytes fetched are the registers 0 and 1. -/
theorem storeIsSeenByTheNextFetch : Obligations.StoreIsSeenByTheNextFetch := by
  intro x s t hx hi hin h
  have hpc : t.pc = s.pc := by
    obtain ⟨u, hu, hw⟩ := exec_storeRegs_inside x hin
    rw [← next_inj (hu.symm.trans h), State.setI_pc, hw.pc]
  have h0 : t.readByte s.pc.toNat = s.getV 0 := by
    rw [← hi]
    exact readByte_of_exec_storeRegs hin h (Fin.zero_le x)
  have h1 : t.readByte (s.pc.toNat + 1) = s.getV 1 := by
    rw [← hi]
    exact readByte_of_exec_storeRegs hin h (r := 1) (Fin.le_iff_val_le_val.mpr hx)
  rw [fetchWord, hpc, h0, h1, wordOfBytes_toNat]

end Sys2Proof.Machine
end

section
/-! Every instruction completes, where it leaves `PC`, and that it keeps memory in canonical form (10_state.md R27; 30_encoding.md R95,
R97; log 7). -/

namespace Sys2Proof.Machine

/-! ### `PC` after each instruction that branches -/

theorem pc_ite_setPc (c : Prop) [Decidable c] (s : State) (w : Word) :
    (if c then s.setPc w else s).pc = if c then w else s.pc := apply_ite State.pc c _ _

theorem pc_ite_setPc_else (c : Prop) [Decidable c] (s : State) (w : Word) :
    (if c then s else s.setPc w).pc = if c then s.pc else w := apply_ite State.pc c _ _

theorem offsetTarget_eq_pcAfter (nnn : Addr) (s : State) : offsetTarget nnn s = pcAfter (.jpOff nnn) s := by
  have hx : addrX nnn = Fin.ofNat 16 (nnn.toNat / 256) :=
    Fin.ext (Nat.mod_eq_of_lt (addrX nnn).isLt).symm
  unfold offsetTarget offsetReg pcAfter
  cases s.cfg.compatMode with
  | legacyShift => rfl
  | modernShift => rw [hx]; rfl

/-- The number of the key that `V[X]` names. -/
theorem ofNat_val_of_le {b : Byte} (h : ¬ 15 < b.toNat) : (Fin.ofNat 16 b.toNat).val = b.toNat :=
  Nat.mod_eq_of_lt (by omega)

/-! ### Memory after the instructions that do not write it -/

/-- Memory in canonical form stays in it from `s` to `t`. -/
def KeepsCanonical (s t : State) : Prop :=
  Memory.wf (loadImage s.cfg) s.mem = true → Memory.wf (loadImage s.cfg) t.mem = true

theorem keepsCanonical_of_mem_eq {s t : State} (h : t.mem = s.mem) : KeepsCanonical s t := fun hs => by rwa [h]

theorem mem_ite_setPc (c : Prop) [Decidable c] (s : State) (w : Word) : (if c then s.setPc w else s).mem = s.mem := by
  split <;> rfl

theorem mem_ite_setPc_else (c : Prop) [Decidable c] (s : State) (w : Word) : (if c then s else s.setPc w).mem = s.mem := by
  split <;> rfl

/-! ### One lemma for every instruction -/

/-- The instruction answers a next state `t`, which has the `PC` of the table of R27 unless a fault was raised, and keeps memory in
canonical form. -/
structure CompletesAs (i : Instr) (s t : State) : Prop where
  answers : exec i s = .next t
  pc : t.fault = none → t.pc = pcAfter i s
  canonical : KeepsCanonical s t

/-- An instruction that changes no byte of memory. -/
theorem CompletesAs.of_mem_eq {i : Instr} {s t : State} (h : exec i s = .next t) (hpc : t.pc = pcAfter i s)
    (hmem : t.mem = s.mem) : CompletesAs i s t := ⟨h, fun _ => hpc, keepsCanonical_of_mem_eq hmem⟩

/-- An instruction that raises a fault completes; nothing is asked of `PC`. -/
theorem completes_of_faulted {i : Instr} {s : State} {cause : FaultCause} {w info : Nat}
    (h : exec i s = .next (faulted s cause w info)) : ∃ t, CompletesAs i s t :=
  ⟨_, h, fun hnone => (nomatch hnone), keepsCanonical_of_mem_eq rfl⟩

theorem completes_ret (s : State) : ∃ t, CompletesAs .ret s t := by
  cases hs : s.stack with
  | nil => exact completes_of_faulted (exec_ret_of_nil hs)
  | cons w rest => exact ⟨_, .of_mem_eq (exec_ret_of_cons hs) (by rw [State.setPc_pc, pcAfter, hs, List.headD_cons]) rfl⟩

theorem completes_call (nnn : Addr) (s : State) : ∃ t, CompletesAs (.call nnn) s t := by
  rcases Nat.lt_or_ge s.stack.length s.cfg.stackCapacity with hroom | hfull
  · exact ⟨_, .of_mem_eq (exec_call_of_room nnn hroom) (addrWord_eq_ofNat nnn) rfl⟩
  · exact completes_of_faulted (exec_call_of_full nnn hfull)

theorem completes_drw (x y : Reg) (n : Nibble) (s : State) : ∃ t, CompletesAs (.drw x y n) s t := by
  by_cases hin : SpriteInside y n s
  · exact ⟨_, .of_mem_eq (exec_drw_inside hin) rfl rfl⟩
  · obtain ⟨hrows, hlast⟩ := not_or.mp hin
    exact completes_of_faulted (exec_drw_outside (Nat.pos_of_ne_zero hrows) (Nat.lt_of_not_le hlast))

theorem completes_skp (x : Reg) (s : State) : ∃ t, CompletesAs (.skp x) s t := by
  by_cases hx : 15 < (s.getV x).toNat
  · exact completes_of_faulted (exec_skp_of_no_key hx)
  · exact ⟨_, .of_mem_eq (exec_skp_of_key (ofNat_val_of_le hx)) (pc_ite_setPc _ s _) (mem_ite_setPc _ s _)⟩

theorem completes_sknp (x : Reg) (s : State) : ∃ t, CompletesAs (.sknp x) s t := by
  by_cases hx : 15 < (s.getV x).toNat
  · exact completes_of_faulted (exec_sknp_of_no_key hx)
  · exact ⟨_, .of_mem_eq (exec_sknp_of_key (ofNat_val_of_le hx)) (pc_ite_setPc_else _ s _) (mem_ite_setPc_else _ s _)⟩

theorem completes_waitKey (x : Reg) (s : State) : ∃ t, CompletesAs (.waitKey x) s t := by
  cases hfound : lowestKeyDown s with
  | none =>
    have hup : ∀ k : Key, s.keys[k] = false := lowestKeyDown_none.mp hfound
    exact ⟨_, .of_mem_eq (exec_waitKey_of_up x hup) (if_pos hup).symm rfl⟩
  | some k =>
    have hdown : ¬ ∀ k : Key, s.keys[k] = false := fun hup => by
      cases hfound.symm.trans (lowestKeyDown_none.mpr hup)
    exact ⟨_, .of_mem_eq (exec_waitKey_of_down x hfound) (if_neg hdown).symm rfl⟩

theorem completes_addI (x : Reg) (s : State) : ∃ t, CompletesAs (.addI x) s t := by
  cases hmode : s.cfg.compatMode with
  | legacyShift => exact ⟨_, .of_mem_eq (exec_addI_legacy x hmode) rfl rfl⟩
  | modernShift => exact ⟨_, .of_mem_eq (exec_addI_modern x hmode) rfl rfl⟩

theorem completes_bcd (x : Reg) (s : State) : ∃ t, CompletesAs (.bcd x) s t := by
  rcases Nat.lt_or_ge 4095 (s.i.toNat + 2) with hout | hin
  · exact completes_of_faulted (exec_bcd_outside x hout)
  · obtain ⟨t, ht, hw⟩ := exec_bcd_inside x hin
    exact ⟨t, ht, fun _ => hw.pc, hw.canonical⟩

theorem completes_storeRegs (x : Reg) (s : State) : ∃ t, CompletesAs (.storeRegs x) s t := by
  rcases Nat.lt_or_ge 4095 (s.i.toNat + x.val) with hout | hin
  · exact completes_of_faulted (exec_storeRegs_outside x hout)
  · obtain ⟨t, ht, hw⟩ := exec_storeRegs_inside x hin
    exact ⟨_, ht, fun _ => hw.pc, hw.canonical⟩

theorem completes_loadRegs (x : Reg) (s : State) : ∃ t, CompletesAs (.loadRegs x) s t := by
  rcases Nat.lt_or_ge 4095 (s.i.toNat + x.val) with hout | hin
  · exact completes_of_faulted (exec_loadRegs_outside x hout)
  · refine ⟨_, .of_mem_eq (exec_loadRegs_inside x hin) ?_ ?_⟩
    · rw [State.setI_pc, setRegsFrom_frame]
      rfl
    · rw [State.setI_mem, setRegsFrom_frame]

theorem completes_of_writeFlagAndResult {i : Instr} {s : State} {x : Reg} {flag : Byte} {result : State → Byte}
    (h : exec i s = .next (writeFlagAndResult x flag result s)) (hpc : pcAfter i s = s.pc) : ∃ t, CompletesAs i s t :=
  ⟨_, .of_mem_eq h ((writeFlagAndResult_pc x flag result s).trans hpc.symm) (by rw [writeFlagAndResult_frame])⟩

/-- Every instruction completes. -/
theorem completes (i : Instr) (s : State) : ∃ t, CompletesAs i s t := by
  cases i with
  | ret => exact completes_ret s
  | call nnn => exact completes_call nnn s
  | drw x y n => exact completes_drw x y n s
  | skp x => exact completes_skp x s
  | sknp x => exact completes_sknp x s
  | waitKey x => exact completes_waitKey x s
  | addI x => exact completes_addI x s
  | bcd x => exact completes_bcd x s
  | storeRegs x => exact completes_storeRegs x s
  | loadRegs x => exact completes_loadRegs x s
  | jp nnn => exact ⟨_, .of_mem_eq (exec_jp nnn s) (addrWord_eq_ofNat nnn) rfl⟩
  | jpOff nnn => exact ⟨_, .of_mem_eq (exec_jpOff nnn s) (offsetTarget_eq_pcAfter nnn s) rfl⟩
  | seImm x nn => exact ⟨_, .of_mem_eq (exec_seImm x nn s) (pc_ite_setPc _ s _) (mem_ite_setPc _ s _)⟩
  | sneImm x nn => exact ⟨_, .of_mem_eq (exec_sneImm x nn s) (pc_ite_setPc_else _ s _) (mem_ite_setPc_else _ s _)⟩
  | seReg x y => exact ⟨_, .of_mem_eq (exec_seReg x y s) (pc_ite_setPc _ s _) (mem_ite_setPc _ s _)⟩
  | sneReg x y => exact ⟨_, .of_mem_eq (exec_sneReg x y s) (pc_ite_setPc_else _ s _) (mem_ite_setPc_else _ s _)⟩
  | addReg x y => exact completes_of_writeFlagAndResult (exec_addReg x y s) rfl
  | subReg x y => exact completes_of_writeFlagAndResult (exec_subReg x y s) rfl
  | shrReg x y => exact completes_of_writeFlagAndResult (exec_shrReg x y s) rfl
  | subnReg x y => exact completes_of_writeFlagAndResult (exec_subnReg x y s) rfl
  | shlReg x y => exact completes_of_writeFlagAndResult (exec_shlReg x y s) rfl
  | cls | ldImm | addImm | ldReg | orReg | andReg | xorReg | ldI | rnd => exact ⟨_, .of_mem_eq rfl rfl rfl⟩
  | ldVxDt | ldDt | ldSt | ldFont => exact ⟨_, .of_mem_eq rfl rfl rfl⟩
  | unassigned0 | unassigned5 | unassigned8 | unassigned9 | unassignedE | unassignedF => exact ⟨_, .of_mem_eq rfl rfl rfl⟩

/-- The next state of an instruction is the one it completes as. -/
theorem completesAs_of_exec {i : Instr} {s t : State} (h : exec i s = .next t) : CompletesAs i s t := by
  obtain ⟨u, hu⟩ := completes i s
  exact next_inj (hu.answers.symm.trans h) ▸ hu

theorem exists_exec_eq_next (i : Instr) (s : State) : ∃ t, exec i s = .next t := by
  obtain ⟨t, ht⟩ := completes i s
  exact ⟨t, ht.answers⟩

theorem pc_of_exec {i : Instr} {s t : State} (h : exec i s = .next t) (ht : t.fault = none) : t.pc = pcAfter i s :=
  (completesAs_of_exec h).pc ht

/-! ### Faults of the execute phase -/

/-- No frame holds the fault record: it is set by `raiseFault` alone. -/
theorem mayChange_fault (i : Instr) (s : State) : (mayChange i s).fault = false := by
  cases i <;> rfl

/-- An instruction that leaves a record where there was none has raised a fault, for one of the reasons of R201 to R205. -/
theorem raiseFault_of_exec {i : Instr} {s t : State} (hs : s.fault = none) (h : exec i s = .next t) (ht : t.fault ≠ none) :
    ∃ cause info, t = raiseFault cause i info s ∧ FaultReason cause i info s := by
  rcases exec_effect h with hframe | hraise
  · exact absurd ((hframe.fault (mayChange_fault i s)).trans hs) ht
  · exact hraise

theorem raiseFault_pc (cause : FaultCause) (i : Instr) (info : Nat) (s : State) :
    (raiseFault cause i info s).pc = s.pc - 2 := rfl

/-- Settles O18: `PC` of a completed instruction by the table, of a faulting one by the rewind. -/
theorem pcAfterEveryInstruction : Obligations.PcAfterEveryInstruction := by
  refine fun i s t hs h => ⟨pc_of_exec h, fun ht => ?_⟩
  obtain ⟨cause, info, rfl, -⟩ := raiseFault_of_exec hs h ht
  exact raiseFault_pc cause i info s

/-- The reasons of R201 to R205, with the numbers written out. -/
theorem FaultReason.memory {i : Instr} {info : Nat} {s : State} (h : FaultReason .memoryOutOfRange i info s) :
    ((∃ x y n, i = .drw x y n ∧ 0 < min n.val (32 - (s.getV y).toNat % 32) ∧
        4096 < s.i.toNat + min n.val (32 - (s.getV y).toNat % 32)) ∨
      (∃ x, i = .bcd x ∧ 4095 < s.i.toNat + 2) ∨
      ∃ x : Reg, (i = .storeRegs x ∨ i = .loadRegs x) ∧ 4095 < s.i.toNat + x.val) ∧
    info = max s.i.toNat 4096 := by
  obtain ⟨hdrw | ⟨x, rfl, hx⟩ | ⟨x, hi, hx⟩, hinfo⟩ := h
  · exact ⟨.inl hdrw, hinfo⟩
  · rw [memSize] at hx
    exact ⟨.inr (.inl ⟨x, rfl, by omega⟩), hinfo⟩
  · rw [memSize] at hx
    exact ⟨.inr (.inr ⟨x, hi, by omega⟩), hinfo⟩

/-- Settles O10: by the cause of the record. -/
theorem faultCausesByInstruction : Obligations.FaultCausesByInstruction := by
  intro i s t r hs h hr
  obtain ⟨cause, info, rfl, hreason⟩ := raiseFault_of_exec hs h (by rw [hr]; exact Option.some_ne_none r)
  obtain rfl := Option.some.inj hr
  cases cause with
  | stackOverflow => exact .inl ⟨rfl, hreason⟩
  | stackUnderflow => exact .inr (.inl ⟨rfl, hreason⟩)
  | fetchOutOfRange => exact hreason.elim
  | memoryOutOfRange => exact .inr (.inr (.inl ⟨rfl, hreason.memory⟩))
  | keyIndexOutOfRange => exact .inr (.inr (.inr ⟨rfl, hreason⟩))

end Sys2Proof.Machine
end

section
/-! One step (30_encoding.md R95 to R97; 60_exceptions.md R207, R208; 70_reset_and_hazards.md R252). -/

namespace Sys2Proof.Machine

section
variable {s t : State}

theorem stepEnabled_eq_false_iff : stepEnabled s = false ↔ s.lifecycle ≠ .running ∨ s.fault ≠ none := by
  rw [← Bool.not_eq_true, stepEnabled_iff, not_and_or]

/-- The fetch's advance, with the sum as a number. -/
theorem advancePc_eq_setPc_ofNat (s : State) : advancePc s = s.setPc (BitVec.ofNat 16 (s.pc.toNat + 2)) := by
  rw [advancePc, BitVec.ofNat_add, BitVec.ofNat_toNat, BitVec.setWidth_eq]
  rfl

theorem step_of_running (hrun : s.lifecycle = .running) (hs : s.fault = none) (hpc : s.pc.toNat ≤ 4094) :
    step s = exec (decodeWord (fetchWord s)) (advancePc s) :=
  step_of_fetch (stepEnabled_iff.mpr ⟨hrun, hs⟩) hpc

/-- Settles O6: the word decoded is the one fetched. -/
theorem stepRunsTheDecodedInstruction : Obligations.StepRunsTheDecodedInstruction := by
  rintro s i hrun hs hpc rfl
  rw [step_of_running hrun hs hpc, advancePc_eq_setPc_ofNat]
  rfl

/-- Settles O7: a step that is not enabled is none, a fetch above 4094 raises its fault. -/
theorem stepsThatRunNoInstruction : Obligations.StepsThatRunNoInstruction := by
  refine fun s => ⟨fun h => step_of_disabled (stepEnabled_eq_false_iff.mpr h), fun hrun hs hpc => ?_⟩
  rw [step_of_fetch_fault (stepEnabled_iff.mpr ⟨hrun, hs⟩) hpc, fetchFault_eq]

theorem exists_step_eq_next (s : State) : ∃ t, step s = .next t := by
  rcases step_cases (s := s) rfl with ⟨-, h⟩ | ⟨-, -, h⟩ | ⟨-, -, h⟩
  · exact ⟨s, h⟩
  · exact ⟨fetchFault s, h⟩
  · rw [h]
    exact exists_exec_eq_next _ _

/-- Settles O8: by the execute phase, which completes for every instruction. -/
theorem everyStepAnswersANextState : Obligations.EveryStepAnswersANextState :=
  ⟨exists_exec_eq_next, exists_step_eq_next⟩

/-- Settles O9: a fault of the fetch sets the record alone; one of the execute phase also takes back the fetch's advance. The word recorded
is the encoding of the decoded instruction, which is the word fetched. -/
theorem faultingStepChangesOnlyTheRecord : Obligations.FaultingStepChangesOnlyTheRecord := by
  intro s t hs h ht
  rcases step_cases h with ⟨-, hsame⟩ | ⟨-, hpc, hfetch⟩ | ⟨-, hpc, hexec⟩
  · rw [next_inj hsame] at ht
    exact absurd hs ht
  · exact ⟨.fetchOutOfRange, s.pc.toNat, by rw [next_inj hfetch, fetchFault_eq, if_pos hpc]⟩
  · obtain ⟨cause, info, rfl, -⟩ := raiseFault_of_exec (s := advancePc s) hs hexec.symm ht
    exact ⟨cause, info, by rw [raiseFault_advancePc, encode_decodeWord, if_neg (Nat.not_lt.mpr hpc)]⟩

/-- Each of the six kinds of unassigned instruction executes as nothing (R95). -/
theorem exec_of_unassigned {i : Instr} (hi : i.unassigned = true) (s : State) : exec i s = .next s := by
  cases i with
  | unassigned0 | unassigned5 | unassigned8 | unassigned9 | unassignedE | unassignedF => rfl
  | _ => cases hi

/-- Settles O12: an assigned word would satisfy its own row. -/
theorem unassignedWordIsANoOp : Obligations.UnassignedWordIsANoOp := by
  refine ⟨fun s hrun hs hpc hnoRow => ?_, fun s nnn x y n nn => ?_⟩
  · have hi : (decodeWord (fetchWord s)).unassigned = true := by
      by_contra hassigned
      obtain ⟨row, hrow, -, hmatch⟩ := matchesOwnRow_of_word (Bool.eq_false_of_not_eq_true hassigned)
      exact hnoRow row hrow hmatch
    rw [step_of_running hrun hs hpc, exec_of_unassigned hi, advancePc_eq_setPc_ofNat]
  · exact ⟨exec_of_unassigned rfl s, exec_of_unassigned rfl s, exec_of_unassigned rfl s, exec_of_unassigned rfl s,
      exec_of_unassigned rfl s, exec_of_unassigned rfl s⟩

/-- The word of a parked state is a jump to `PC` (R252). -/
theorem decodeWord_of_parked (h : (fetchWord s).toNat = 0x1000 + s.pc.toNat) (hpc : s.pc.toNat ≤ 4094) :
    ∃ nnn : Addr, s.pc.toNat = nnn.toNat ∧ decodeWord (fetchWord s) = .jp nnn := by
  have hnnn : s.pc.toNat = (BitVec.ofNat 12 s.pc.toNat).toNat := by
    rw [BitVec.toNat_ofNat]
    omega
  have hword : fetchWord s = BitVec.ofNat 16 (0x1000 + (BitVec.ofNat 12 s.pc.toNat).toNat) := by
    rw [← hnnn, ← h, BitVec.ofNat_toNat, BitVec.setWidth_eq]
  exact ⟨_, hnnn, by rw [hword]; exact (encodes_jp _).2⟩

/-- Settles O21: the jump to its own address undoes the fetch's advance. -/
theorem parkedStateIsAFixedPoint : Obligations.ParkedStateIsAFixedPoint := by
  rintro s ⟨hs, hrun, hpc, hword⟩
  obtain ⟨nnn, htarget, hdecode⟩ := decodeWord_of_parked hword hpc
  rw [step_of_running hrun hs hpc, hdecode]
  exact ((jumpSetsPc nnn).2 s).2 htarget

end

end Sys2Proof.Machine
end

section
/-! Who writes what, over all instructions (10_state.md R20 to R38), and the uses of the mode-dependent instructions that do not depend on it
(70_reset_and_hazards.md R247). -/

namespace Sys2Proof.Machine

/-! ### The writers of each field -/

section
variable {i : Instr} {s : State}

theorem writers_of_regs {r : Reg} (h : (mayChange i s).regs r) :
    (∃ nn, i = .ldImm r nn ∨ i = .addImm r nn ∨ i = .rnd r nn) ∨
    (∃ y, i = .ldReg r y ∨ i = .orReg r y ∨ i = .andReg r y ∨ i = .xorReg r y) ∨
    i = .ldVxDt r ∨ i = .waitKey r ∨ (∃ x, r ≤ x ∧ i = .loadRegs x) ∨
    (∃ x y, i ∈ flagAndResultInstrs x y ∧ (r = x ∨ r = regF)) ∨
    r = regF ∧ ((∃ x y n, i = .drw x y n) ∨ s.cfg.compatMode = .modernShift ∧ ∃ x, i = .addI x) := by
  cases i with
  | ldImm x nn => obtain rfl := h; exact .inl ⟨nn, .inl rfl⟩
  | addImm x nn => obtain rfl := h; exact .inl ⟨nn, .inr (.inl rfl)⟩
  | rnd x nn => obtain rfl := h; exact .inl ⟨nn, .inr (.inr rfl)⟩
  | ldReg x y => obtain rfl := h; exact .inr (.inl ⟨y, .inl rfl⟩)
  | orReg x y => obtain rfl := h; exact .inr (.inl ⟨y, .inr (.inl rfl)⟩)
  | andReg x y => obtain rfl := h; exact .inr (.inl ⟨y, .inr (.inr (.inl rfl))⟩)
  | xorReg x y => obtain rfl := h; exact .inr (.inl ⟨y, .inr (.inr (.inr rfl))⟩)
  | ldVxDt x => obtain rfl := h; exact .inr (.inr (.inl rfl))
  | waitKey x => obtain rfl := h; exact .inr (.inr (.inr (.inl rfl)))
  | loadRegs x => exact .inr (.inr (.inr (.inr (.inl ⟨x, h, rfl⟩))))
  | addReg x y => exact .inr (.inr (.inr (.inr (.inr (.inl ⟨x, y, by simp [flagAndResultInstrs], h⟩)))))
  | subReg x y => exact .inr (.inr (.inr (.inr (.inr (.inl ⟨x, y, by simp [flagAndResultInstrs], h⟩)))))
  | shrReg x y => exact .inr (.inr (.inr (.inr (.inr (.inl ⟨x, y, by simp [flagAndResultInstrs], h⟩)))))
  | subnReg x y => exact .inr (.inr (.inr (.inr (.inr (.inl ⟨x, y, by simp [flagAndResultInstrs], h⟩)))))
  | shlReg x y => exact .inr (.inr (.inr (.inr (.inr (.inl ⟨x, y, by simp [flagAndResultInstrs], h⟩)))))
  | drw x y n => exact .inr (.inr (.inr (.inr (.inr (.inr ⟨h, .inl ⟨x, y, n, rfl⟩⟩)))))
  | addI x => exact .inr (.inr (.inr (.inr (.inr (.inr ⟨h.1, .inr ⟨h.2, x, rfl⟩⟩)))))
  | _ => cases h

theorem writers_of_display (h : (mayChange i s).display = true) : i = .cls ∨ ∃ x y n, i = .drw x y n := by
  cases i with
  | cls => exact .inl rfl
  | drw x y n => exact .inr ⟨x, y, n, rfl⟩
  | _ => cases h

theorem writers_of_drawPending (h : (mayChange i s).drawPending = true) : ∃ x y n, i = .drw x y n := by
  cases i with
  | drw x y n => exact ⟨x, y, n, rfl⟩
  | _ => cases h

theorem writers_of_dt (h : (mayChange i s).dt = true) : ∃ x, i = .ldDt x := by
  cases i with
  | ldDt x => exact ⟨x, rfl⟩
  | _ => cases h

theorem writers_of_st (h : (mayChange i s).st = true) : ∃ x, i = .ldSt x := by
  cases i with
  | ldSt x => exact ⟨x, rfl⟩
  | _ => cases h

theorem writers_of_stack (h : (mayChange i s).stack = true) : i = .ret ∨ ∃ nnn, i = .call nnn := by
  cases i with
  | ret => exact .inl rfl
  | call nnn => exact .inr ⟨nnn, rfl⟩
  | _ => cases h

theorem writers_of_i (h : (mayChange i s).i = true) :
    (∃ nnn, i = .ldI nnn) ∨ ∃ x, i = .addI x ∨ i = .ldFont x ∨ i = .storeRegs x ∨ i = .loadRegs x := by
  cases i with
  | ldI nnn => exact .inl ⟨nnn, rfl⟩
  | addI x => exact .inr ⟨x, .inl rfl⟩
  | ldFont x => exact .inr ⟨x, .inr (.inl rfl)⟩
  | storeRegs x => exact .inr ⟨x, .inr (.inr (.inl rfl))⟩
  | loadRegs x => exact .inr ⟨x, .inr (.inr (.inr rfl))⟩
  | _ => cases h

theorem writers_of_mem {a : Nat} (h : (mayChange i s).mem a) : ∃ x, i = .bcd x ∨ i = .storeRegs x := by
  cases i with
  | bcd x => exact ⟨x, .inl rfl⟩
  | storeRegs x => exact ⟨x, .inr rfl⟩
  | _ => cases h

theorem writers_of_draws (h : (mayChange i s).draws = true) : ∃ x nn, i = .rnd x nn := by
  cases i with
  | rnd x nn => exact ⟨x, nn, rfl⟩
  | _ => cases h

/-- The instructions that leave `PC` other than at `A + 2`, without a fault (R27). -/
theorem writers_of_pc (h : pcAfter i s ≠ s.pc) :
    i = .ret ∨ (∃ nnn, i = .jp nnn ∨ i = .call nnn ∨ i = .jpOff nnn) ∨
    (∃ x nn, i = .seImm x nn ∨ i = .sneImm x nn) ∨ (∃ x y, i = .seReg x y ∨ i = .sneReg x y) ∨
    ∃ x, i = .skp x ∨ i = .sknp x ∨ i = .waitKey x := by
  cases i with
  | ret => exact .inl rfl
  | jp nnn => exact .inr (.inl ⟨nnn, .inl rfl⟩)
  | call nnn => exact .inr (.inl ⟨nnn, .inr (.inl rfl)⟩)
  | jpOff nnn => exact .inr (.inl ⟨nnn, .inr (.inr rfl)⟩)
  | seImm x nn => exact .inr (.inr (.inl ⟨x, nn, .inl rfl⟩))
  | sneImm x nn => exact .inr (.inr (.inl ⟨x, nn, .inr rfl⟩))
  | seReg x y => exact .inr (.inr (.inr (.inl ⟨x, y, .inl rfl⟩)))
  | sneReg x y => exact .inr (.inr (.inr (.inl ⟨x, y, .inr rfl⟩)))
  | skp x => exact .inr (.inr (.inr (.inr ⟨x, .inl rfl⟩)))
  | sknp x => exact .inr (.inr (.inr (.inr ⟨x, .inr (.inl rfl)⟩)))
  | waitKey x => exact .inr (.inr (.inr (.inr ⟨x, .inr (.inr rfl)⟩)))
  | _ => exact absurd rfl h

/-- The instructions that raise faults (60_exceptions.md R201 to R205). -/
theorem writers_of_fault {cause : FaultCause} {info : Nat} (h : FaultReason cause i info s) :
    i = .ret ∨ (∃ nnn, i = .call nnn) ∨ (∃ x y n, i = .drw x y n) ∨
    ∃ x, i = .bcd x ∨ i = .storeRegs x ∨ i = .loadRegs x ∨ i = .skp x ∨ i = .sknp x := by
  cases cause with
  | stackOverflow => exact .inr (.inl h.1)
  | stackUnderflow => exact .inl h.1
  | fetchOutOfRange => exact h.elim
  | memoryOutOfRange =>
    obtain ⟨⟨x, y, n, rfl, -⟩ | ⟨x, rfl, -⟩ | ⟨x, rfl | rfl, -⟩, -⟩ := h
    · exact .inr (.inr (.inl ⟨x, y, n, rfl⟩))
    · exact .inr (.inr (.inr ⟨x, .inl rfl⟩))
    · exact .inr (.inr (.inr ⟨x, .inr (.inl rfl)⟩))
    · exact .inr (.inr (.inr ⟨x, .inr (.inr (.inl rfl))⟩))
  | keyIndexOutOfRange =>
    obtain ⟨x, rfl | rfl, -⟩ := h
    · exact .inr (.inr (.inr ⟨x, .inr (.inr (.inr (.inl rfl)))⟩))
    · exact .inr (.inr (.inr ⟨x, .inr (.inr (.inr (.inr rfl)))⟩))

/-- A register that an instruction has changed is one of its frame. -/
theorem mayChange_regs_of_ne {t : State} {r : Reg} (h : exec i s = .next t) (hne : t.getV r ≠ s.getV r) :
    (mayChange i s).regs r := by
  rcases exec_effect h with hframe | ⟨cause, info, rfl, -⟩
  · by_contra hr
    exact hne (hframe.regs r hr)
  · exact absurd rfl hne

end

/-- The writers of a register in the words of the table, which names the destination of a flag-writing instruction apart from VF. -/
theorem namedWriters_of_regs {i : Instr} {s : State} {r : Reg} (h : (mayChange i s).regs r) :
    (∃ nn, i = .ldImm r nn ∨ i = .addImm r nn ∨ i = .rnd r nn) ∨
    (∃ y, i = .ldReg r y ∨ i = .orReg r y ∨ i = .andReg r y ∨ i = .xorReg r y ∨ i ∈ flagAndResultInstrs r y) ∨
    i = .ldVxDt r ∨ i = .waitKey r ∨ (∃ x, r ≤ x ∧ i = .loadRegs x) ∨
    r = regF ∧ ((∃ x y, i ∈ flagAndResultInstrs x y) ∨ (∃ x y n, i = .drw x y n) ∨ ∃ x, i = .addI x) := by
  obtain himm | ⟨y, hcopy⟩ | hdt | hkey | hload | ⟨x, y, hi, rfl | rfl⟩ | ⟨rfl, hdrw | ⟨-, haddI⟩⟩ := writers_of_regs h
  · exact .inl himm
  · obtain rfl | rfl | rfl | rfl := hcopy
    · exact .inr (.inl ⟨y, .inl rfl⟩)
    · exact .inr (.inl ⟨y, .inr (.inl rfl)⟩)
    · exact .inr (.inl ⟨y, .inr (.inr (.inl rfl))⟩)
    · exact .inr (.inl ⟨y, .inr (.inr (.inr (.inl rfl)))⟩)
  · exact .inr (.inr (.inl hdt))
  · exact .inr (.inr (.inr (.inl hkey)))
  · exact .inr (.inr (.inr (.inr (.inl hload))))
  · exact .inr (.inl ⟨y, .inr (.inr (.inr (.inr hi)))⟩)
  · exact .inr (.inr (.inr (.inr (.inr ⟨rfl, .inl ⟨x, y, hi⟩⟩))))
  · exact .inr (.inr (.inr (.inr (.inr ⟨rfl, .inr (.inl hdrw)⟩))))
  · exact .inr (.inr (.inr (.inr (.inr ⟨rfl, .inr (.inr haddI)⟩))))

/-- A field that is not as before is named by the frame. -/
theorem eq_true_of_not_kept {named : Bool} {kept : Prop} (h : named = false → kept) (hne : ¬ kept) : named = true :=
  Bool.eq_true_of_not_eq_false (mt h hne)

/-- Settles O16: a field that has changed is in the frame of the instruction, or is the record or the `PC` of a fault. -/
theorem eachStateIsWrittenByItsInstructions : Obligations.EachStateIsWrittenByItsInstructions := by
  intro i s t h
  have hregs : ∀ r, t.getV r ≠ s.getV r → (mayChange i s).regs r := fun r => mayChange_regs_of_ne h
  have hpc : t.pc ≠ s.pc → t.fault = none → pcAfter i s ≠ s.pc := fun hne ht => pc_of_exec h ht ▸ hne
  rcases exec_effect h with hframe | ⟨cause, info, rfl, hreason⟩
  · exact ⟨hframe.keys, hframe.lifecycle, hframe.cfg, fun r hne => namedWriters_of_regs (hregs r hne),
      fun hne ht => writers_of_pc (hpc hne ht), fun hne => absurd (hframe.fault (mayChange_fault i s)) hne,
      fun hne => writers_of_display (eq_true_of_not_kept hframe.display hne),
      fun hne => writers_of_drawPending (eq_true_of_not_kept hframe.drawPending hne),
      fun hne => writers_of_dt (eq_true_of_not_kept hframe.dt hne),
      fun hne => writers_of_st (eq_true_of_not_kept hframe.st hne),
      fun hne => writers_of_stack (eq_true_of_not_kept hframe.stack hne),
      fun hne => writers_of_i (eq_true_of_not_kept hframe.i hne),
      fun a hne => writers_of_mem (by_contra fun ha => hne (hframe.mem a ha)),
      fun hne => writers_of_draws (eq_true_of_not_kept hframe.draws hne)⟩
  · exact ⟨rfl, rfl, rfl, fun r hne => absurd rfl hne, fun hne ht => writers_of_pc (hpc hne ht),
      fun _ => writers_of_fault hreason, fun hne => absurd rfl hne, fun hne => absurd rfl hne, fun hne => absurd rfl hne,
      fun hne => absurd rfl hne, fun hne => absurd rfl hne, fun hne => absurd rfl hne, fun a hne => absurd rfl hne,
      fun hne => absurd rfl hne⟩

/-- Settles O17: the writers of registers, for `V[F]`; FX65 writes it as the last register alone. -/
theorem flagIsWrittenByItsInstructions : Obligations.FlagIsWrittenByItsInstructions := by
  intro i s t h hne
  obtain himm | hcopy | hdt | hkey | ⟨x, hx, rfl⟩ | ⟨x, y, hi, -⟩ | ⟨-, hdrw | haddI⟩ :=
    writers_of_regs (mayChange_regs_of_ne h hne)
  · exact .inr (.inr (.inr (.inl himm)))
  · exact .inr (.inr (.inr (.inr (.inl hcopy))))
  · exact .inr (.inr (.inr (.inr (.inr (.inl hdt)))))
  · exact .inr (.inr (.inr (.inr (.inr (.inr (.inl hkey))))))
  · have hlast : x = regF := le_antisymm (Fin.le_last x) hx
    exact .inr (.inr (.inr (.inr (.inr (.inr (.inr (by rw [hlast])))))))
  · exact .inl ⟨x, y, hi⟩
  · exact .inr (.inl hdrw)
  · exact .inr (.inr (.inl haddI))

/-! ### Uses that do not depend on the mode (R247) -/

theorem shiftSource_self (mode : CompatMode) (x : Reg) : shiftSource mode x x = x := by
  cases mode <;> rfl

theorem exec_shrReg_self (x : Reg) (s : State) : exec (.shrReg x x) s =
    .next (writeFlagAndResult x (shiftRightFlag (s.getV x)) (fun u => u.getV x >>> 1) s) := by
  rw [exec_shrReg, shiftSource_self]

theorem exec_shlReg_self (x : Reg) (s : State) : exec (.shlReg x x) s =
    .next (writeFlagAndResult x (shiftLeftFlag (s.getV x)) (fun u => u.getV x <<< 1) s) := by
  rw [exec_shlReg, shiftSource_self]

/-- With `NNN[11:8] = 0` both modes add `V[0]`. -/
theorem offsetReg_of_lt (mode : CompatMode) {nnn : Addr} (h : nnn.toNat < 0x100) : offsetReg mode nnn = 0 := by
  cases mode with
  | legacyShift => rfl
  | modernShift => exact Fin.ext (Nat.div_eq_of_lt h)

theorem offsetTarget_withMode {nnn : Addr} (h : nnn.toNat < 0x100) (s : State) (m : CompatMode) :
    offsetTarget nnn (s.withMode m) = offsetTarget nnn s := by
  rw [offsetTarget, offsetTarget, offsetReg_of_lt _ h, offsetReg_of_lt _ h, State.withMode_getV]

/-- Settles O20: with `X = Y` both modes shift the same register, and with `NNN[11:8] = 0` both add the same one. -/
theorem modeNeutralUses : Obligations.ModeNeutralUses := by
  refine fun s m => ⟨fun x => ⟨_, _, exec_shrReg_self x s, ?_, exec_shlReg_self x s, ?_⟩,
    fun nnn hnnn => ⟨_, exec_jpOff nnn s, ?_⟩⟩
  · rw [exec_shrReg_self, State.withMode_getV, writeFlagAndResult_withMode _ _ s m fun _ => rfl]
  · rw [exec_shlReg_self, State.withMode_getV, writeFlagAndResult_withMode _ _ s m fun _ => rfl]
  · rw [exec_jpOff, offsetTarget_withMode hnnn]
    rfl

end Sys2Proof.Machine
end

section
/-! The invariant (10_state.md R25, R26; 60_exceptions.md R201 to R207): it holds right after a load, and every step and every operation of the
environment keeps it. -/

namespace Sys2Proof.Machine

/-! ### The state right after a load -/

theorem State.inv_loaded {c : Config} (hc : c.WellFormed) (n : Nat) : (State.loaded c n).Inv where
  config := hc
  memory := Memory.wf_loaded c n
  stackBound := Nat.zero_le _
  returnAddresses w hw := nomatch hw
  pcBound := (by decide : (0x200 : Word).toNat ≤ 0x10FE)
  faultRecord r hr := nomatch hr

/-- Settles O13: the configuration of `State.reset` is within the spec's constraints. -/
theorem invariantHoldsAtReset : Obligations.InvariantHoldsAtReset :=
  State.inv_loaded (by decide) 0

/-! ### What the invariant does not speak of -/

/-- The invariant is about configuration, memory, stack, `PC`, `I` and the fault record alone. -/
theorem State.Inv.congr {s t : State} (h : s.Inv) (hcfg : t.cfg = s.cfg) (hmem : t.mem = s.mem) (hstack : t.stack = s.stack)
    (hpc : t.pc = s.pc) (hi : t.i = s.i) (hfault : t.fault = s.fault) : t.Inv where
  config := hcfg ▸ h.config
  memory := by rw [hcfg, hmem]; exact h.memory
  stackBound := by rw [hcfg, hstack]; exact h.stackBound
  returnAddresses := by rw [hstack]; exact h.returnAddresses
  pcBound := by rw [hpc]; exact h.pcBound
  faultRecord r hr := by
    have hdescribes := h.faultRecord r (hfault ▸ hr)
    simp only [FaultRecord.Describes, hcfg, hstack, hpc, hi] at hdescribes ⊢
    exact hdescribes

/-- Recording a fault that describes the state keeps the invariant: nothing else changes (R207). -/
theorem State.Inv.setFault {s : State} (h : s.Inv) {r : FaultRecord} (hr : r.Describes s) : (s.setFault (some r)).Inv where
  config := h.config
  memory := h.memory
  stackBound := h.stackBound
  returnAddresses := h.returnAddresses
  pcBound := h.pcBound
  faultRecord r' hr' := by
    obtain rfl := Option.some.inj hr'
    exact hr

/-! ### Faults -/

/-- A fault raised in the execute phase describes the state before the step. -/
theorem describes_of_faultReason {cause : FaultCause} {i : Instr} {info : Nat} {s : State} (h : s.Inv) (w : Word)
    (hreason : FaultReason cause i info (advancePc s)) :
    FaultRecord.Describes { cause := cause, pc := s.pc, opcode := some w, info := info } s := by
  refine ⟨rfl, ?_⟩
  cases cause with
  | stackOverflow =>
    obtain ⟨-, hfull, hinfo⟩ := hreason
    have hlen : s.stack.length = s.cfg.stackCapacity := Nat.le_antisymm h.stackBound hfull
    exact ⟨rfl, hinfo.trans hlen, hlen⟩
  | stackUnderflow => exact ⟨rfl, hreason.2.2, hreason.2.1⟩
  | fetchOutOfRange => exact hreason.elim
  | memoryOutOfRange =>
    have hinfo : info = max s.i.toNat 4096 := hreason.memory.2
    exact ⟨rfl, (by omega : 4095 < info), (by omega : s.i.toNat ≤ info)⟩
  | keyIndexOutOfRange =>
    obtain ⟨x, -, hx, rfl⟩ := hreason
    exact ⟨rfl, hx, ((advancePc s).getV x).isLt⟩

theorem describes_fetchFault {s : State} (hpc : 4094 < s.pc.toNat) :
    FaultRecord.Describes { cause := .fetchOutOfRange, pc := s.pc, opcode := none, info := s.pc.toNat } s :=
  ⟨rfl, rfl, rfl, hpc⟩

/-! ### The stack -/

/-- An instruction leaves the stack alone, pops one entry, or pushes `A + 2` where there is room. -/
theorem stack_of_exec {i : Instr} {s t : State} (h : exec i s = .next t) :
    t.stack = s.stack ∨ (∃ w, s.stack = w :: t.stack) ∨
      (t.stack = s.pc :: s.stack ∧ s.stack.length < s.cfg.stackCapacity) := by
  rcases exec_effect h with hframe | ⟨cause, info, rfl, -⟩
  · cases hstack : (mayChange i s).stack with
    | false => exact .inl (hframe.stack hstack)
    | true =>
      obtain rfl | ⟨nnn, rfl⟩ := writers_of_stack hstack
      · cases hs : s.stack with
        | nil =>
          rw [exec_ret_of_nil hs] at h
          rw [← next_inj h]
          exact .inl hs
        | cons w rest =>
          rw [exec_ret_of_cons hs] at h
          rw [← next_inj h]
          exact .inr (.inl ⟨w, rfl⟩)
      · rcases Nat.lt_or_ge s.stack.length s.cfg.stackCapacity with hroom | hfull
        · rw [exec_call_of_room nnn hroom] at h
          rw [← next_inj h]
          exact .inr (.inr ⟨rfl, hroom⟩)
        · rw [exec_call_of_full nnn hfull] at h
          rw [← next_inj h]
          exact .inl rfl
  · exact .inl rfl

/-- The clauses of the invariant on the stack. -/
theorem stackClauses_of_exec {i : Instr} {s t : State} (h : exec i s = .next t) (hbound : s.stack.length ≤ s.cfg.stackCapacity)
    (haddrs : ∀ w ∈ s.stack, w.toNat ≤ 0x1000) (hpc : s.pc.toNat ≤ 0x1000) :
    t.stack.length ≤ s.cfg.stackCapacity ∧ ∀ w ∈ t.stack, w.toNat ≤ 0x1000 := by
  obtain hsame | ⟨w, hpop⟩ | ⟨hpush, hroom⟩ := stack_of_exec h
  · rw [hsame]
    exact ⟨hbound, haddrs⟩
  · rw [hpop] at hbound haddrs
    exact ⟨Nat.le_of_succ_le hbound, fun v hv => haddrs v (List.mem_cons_of_mem w hv)⟩
  · rw [hpush]
    exact ⟨hroom, List.forall_mem_cons.mpr ⟨hpc, haddrs⟩⟩

/-! ### The program counter -/

/-- An address of 12 bits as a word. -/
theorem ofNat_addr_toNat_le (nnn : Addr) : (BitVec.ofNat 16 nnn.toNat).toNat ≤ 0x10FE := by
  have := nnn.isLt
  rw [BitVec.toNat_ofNat]
  omega

/-- BNNN reaches furthest, to 0xFFF + 0xFF (the spec's decision D9). -/
theorem offsetTarget_toNat_le (nnn : Addr) (s : State) : (offsetTarget nnn s).toNat ≤ 0x10FE := by
  have := nnn.isLt
  have := (s.getV (offsetReg s.cfg.compatMode nnn)).isLt
  rw [offsetTarget_toNat]
  omega

/-- Every target of the table of R27 is at most 0x10FE, for an instruction that was fetched from memory. -/
theorem pcAfter_toNat_le (i : Instr) {s : State} (hlo : 2 ≤ s.pc.toNat) (hhi : s.pc.toNat ≤ 0x1000)
    (haddrs : ∀ w ∈ s.stack, w.toNat ≤ 0x1000) : (pcAfter i s).toNat ≤ 0x10FE := by
  have hstay : s.pc.toNat ≤ 0x10FE := by omega
  have hskip : (s.pc + 2).toNat ≤ 0x10FE := by bv_omega
  have hback : (s.pc - 2).toNat ≤ 0x10FE := by bv_omega
  cases i with
  | ret =>
    cases hs : s.stack with
    | nil =>
      rw [pcAfter, hs]
      decide
    | cons w rest =>
      rw [pcAfter, hs, List.headD_cons]
      exact Nat.le_trans (haddrs w (hs ▸ List.mem_cons_self)) (by decide)
  | jp nnn => exact ofNat_addr_toNat_le nnn
  | call nnn => exact ofNat_addr_toNat_le nnn
  | jpOff nnn =>
    rw [← offsetTarget_eq_pcAfter]
    exact offsetTarget_toNat_le nnn s
  | seImm | sneImm | seReg | sneReg | skp | sknp | waitKey =>
    simp only [pcAfter]
    split <;> assumption
  | _ => exact hstay

/-! ### The step -/

theorem advancePc_toNat {s : State} (hpc : s.pc.toNat ≤ 4094) : (advancePc s).pc.toNat = s.pc.toNat + 2 := by
  rw [advancePc, State.setPc_pc]
  bv_omega

/-- The execute phase of an instruction fetched from memory keeps the invariant: a fault describes the state before the step, and without
one each clause is that of its own field. -/
theorem inv_of_exec {i : Instr} {s t : State} (hinv : s.Inv) (hs : s.fault = none) (hpc : s.pc.toNat ≤ 4094)
    (h : exec i (advancePc s) = .next t) : t.Inv := by
  rcases exec_effect h with hframe | ⟨cause, info, rfl, hreason⟩
  · have hadvanced := advancePc_toNat hpc
    have ht : t.fault = none := (hframe.fault (mayChange_fault i _)).trans hs
    have hcfg : t.cfg = s.cfg := hframe.cfg
    obtain ⟨hbound, haddrs⟩ := stackClauses_of_exec h hinv.stackBound hinv.returnAddresses (by omega)
    exact {
      config := hcfg ▸ hinv.config
      memory := by rw [hcfg]; exact (completesAs_of_exec h).canonical hinv.memory
      stackBound := by rw [hcfg]; exact hbound
      returnAddresses := haddrs
      pcBound := by
        rw [pc_of_exec h ht]
        exact pcAfter_toNat_le i (by omega) (by omega) hinv.returnAddresses
      faultRecord := fun r hr => nomatch ht.symm.trans hr }
  · rw [raiseFault_advancePc]
    exact hinv.setFault (describes_of_faultReason hinv _ hreason)

/-- Settles O14: by the three kinds of step. -/
theorem everyStepKeepsTheInvariant : Obligations.EveryStepKeepsTheInvariant := by
  intro s t hinv h
  rcases step_cases h with ⟨-, hsame⟩ | ⟨-, hpc, hfetch⟩ | ⟨henabled, hpc, hexec⟩
  · rw [next_inj hsame]
    exact hinv
  · rw [next_inj hfetch, fetchFault_eq]
    exact hinv.setFault (describes_fetchFault hpc)
  · exact inv_of_exec hinv (stepEnabled_iff.mp henabled).2 hpc hexec.symm

/-! ### The operations of the environment -/

theorem inv_load {s : State} (h : s.Inv) (src : RomSource) (mode : CompatMode) (fill : List Host.Cell) :
    (load src mode fill s).2.Inv := by
  cases src with
  | unreadable => exact h
  | bytes rom =>
    rcases Nat.lt_or_ge romMax rom.length with hlarge | hfits
    · rw [load_too_large mode fill s hlarge]
      exact h
    · rw [load_ok mode fill s hfits]
      obtain ⟨hcapacity, -⟩ := h.config
      exact State.inv_loaded (c := { s.cfg with compatMode := mode, rom := rom, memFill := fill }) ⟨hcapacity, hfits⟩ s.draws

theorem inv_hostReset {s : State} (h : s.Inv) : (hostReset s).Inv := by
  by_cases hact : s.lifecycle = .running ∨ s.lifecycle = .paused
  · have hmem : Memory.wf (loadImage s.cfg) (if s.cfg.resetKeepsMem then s.mem else []) = true := by
      split
      · exact h.memory
      · rfl
    rw [hostReset_active hact]
    exact { State.inv_loaded h.config s.draws with memory := hmem }
  · rw [hostReset_inactive hact]
    exact h

theorem inv_tickTimers {s : State} (h : s.Inv) : (tickTimers s).Inv := by
  by_cases hrun : s.lifecycle = .running
  · rw [tickTimers_running hrun]
    exact h.congr rfl rfl rfl rfl rfl rfl
  · rw [tickTimers_other hrun]
    exact h

theorem inv_ite_setLifecycle {s : State} (h : s.Inv) (c : Prop) [Decidable c] (l : Lifecycle) :
    (if c then s.setLifecycle l else s).Inv := by
  split
  · exact h.congr rfl rfl rfl rfl rfl rfl
  · exact h

/-- Settles O15: operation by operation; load and reset start over within the same constraints, the others change nothing the invariant
speaks of. -/
theorem hostOperationsKeepTheInvariant : Obligations.HostOperationsKeepTheInvariant := by
  intro op s h
  cases op with
  | load src mode fill => exact inv_load h src mode fill
  | reset => exact inv_hostReset h
  | tickTimers => exact inv_tickTimers h
  | setKey k down => exact h.congr rfl rfl rfl rfl rfl rfl
  | clearDrawPending => exact h.congr rfl rfl rfl rfl rfl rfl
  | pause => exact inv_ite_setLifecycle h _ _
  | resume => exact inv_ite_setLifecycle h _ _
  | quit => exact inv_ite_setLifecycle h _ _

end Sys2Proof.Machine
end

section
/-! The operations of the environment (60_exceptions.md R208, R213 to R220; 70_reset_and_hazards.md R240 to R243). -/

namespace Sys2Proof.Machine

/-! ### Timers (R213, R214) -/

/-- A tick changes the two timers alone. -/
theorem frame_tickTimers (s : State) : Frame { dt := true, st := true } s (tickTimers s) := by
  by_cases hrun : s.lifecycle = .running
  · rw [tickTimers_running hrun]
    exact (frame_setDt s _ rfl).trans (frame_setSt _ _ rfl)
  · rw [tickTimers_other hrun]
    exact Frame.refl _ s

theorem tickTimers_pc (s : State) : (tickTimers s).pc = s.pc := by
  by_cases hrun : s.lifecycle = .running
  · rw [tickTimers_running hrun]
    rfl
  · rw [tickTimers_other hrun]

theorem frame_tickTimes (n : Nat) (s : State) : Frame { dt := true, st := true } s (tickTimes n s) := by
  induction n generalizing s with
  | zero => exact Frame.refl _ s
  | succ n ih => exact (frame_tickTimers s).trans (ih (tickTimers s))

theorem tickTimes_pc (n : Nat) (s : State) : (tickTimes n s).pc = s.pc := by
  induction n generalizing s with
  | zero => rfl
  | succ n ih => exact (ih (tickTimers s)).trans (tickTimers_pc s)

/-- Settles O52: by counting the ticks. -/
theorem ticksCountTheTimersDown : Obligations.TicksCountTheTimersDown := by
  refine fun s => ⟨fun hrun n => ?_, tickTimers_other⟩
  obtain ⟨hdt, hst⟩ := tickTimes_timers_toNat hrun n
  exact ⟨hdt, hst, frame_tickTimes n s, tickTimes_pc n s⟩

/-- Settles O53: the sound follows `ST`, and nothing else is looked at. -/
theorem soundFollowsTheTimer : Obligations.SoundFollowsTheTimer := by
  refine fun s t => ⟨soundActive_iff_toNat_pos.trans Nat.pos_iff_ne_zero, fun h => ?_⟩
  rw [soundActive, soundActive, h]

/-! ### Keys and display (R215 to R217) -/

theorem setKey_keys_same (k : Key) (down : Bool) (s : State) : (setKey k down s).keys[k] = down :=
  Vector.getElem_set_self k.isLt

theorem setKey_keys_ne {j k : Key} (down : Bool) (s : State) (h : j ≠ k) : (setKey k down s).keys[j] = s.keys[j] :=
  Vector.getElem_set_ne k.isLt j.isLt fun e => h (Fin.ext e.symm)

theorem readDisplay_getElem (s : State) {col row : Nat} (hcol : col < 64) (hrow : row < 32) :
    (readDisplay s)[row * 64 + col] = pixelOn s.display col row := by
  rw [readDisplay, Vector.getElem_ofFn]
  exact displayCell_eq_pixelOn s.display hcol row

/-- Settles O54: one key written, the cells read by row and column, one flag cleared. -/
theorem keypadAndRendererOperations : Obligations.KeypadAndRendererOperations := fun s =>
  ⟨fun k down => ⟨setKey_keys_same k down s, fun _ h => setKey_keys_ne down s h, rfl⟩,
    fun _ _ hcol hrow => readDisplay_getElem s hcol hrow, rfl⟩

/-! ### Load and reset (R240 to R243) -/

/-- Settles O55: the values of the state right after a load; memory reads as the load image. -/
theorem loadGivesTheResetTable : Obligations.LoadGivesTheResetTable := by
  intro rom mode fill s hfits
  refine ⟨_, load_ok mode fill s hfits, State.loaded_getV _ _, rfl, rfl, rfl, fun k _ => displayCell_clearedDisplay k, rfl, rfl, rfl,
    ?keys, rfl, rfl, rfl, rfl, rfl, ?font, ?rom, ?fill⟩
  case keys => exact fun k => Vector.getElem_replicate k.isLt
  case font =>
    intro a ha
    rw [State.loaded_readByte, loadImage_font _ ha]
  case rom =>
    intro k hk
    exact (State.loaded_readByte _ _ _).trans (loadImage_rom { s.cfg with compatMode := mode, rom := rom, memFill := fill } hk)
  case fill =>
    intro a ha
    rw [State.loaded_readByte]
    refine loadImage_fill _ ?_ ?_
    · omega
    · exact ha.imp And.right id

/-- Settles O56: by the two failures. -/
theorem failedLoadChangesNothing : Obligations.FailedLoadChangesNothing := fun mode fill s =>
  ⟨fun _ hlarge => load_too_large mode fill s hlarge, rfl⟩

/-- Loading the retained ROM in the retained mode leaves the configuration as it is. -/
theorem load_retained {s : State} (h : s.cfg.rom.length ≤ romMax) :
    load (.bytes s.cfg.rom) s.cfg.compatMode s.cfg.memFill s = (.ok, State.loaded s.cfg s.draws) :=
  load_ok s.cfg.compatMode s.cfg.memFill s h

/-- Settles O57: an active reset is the load of the retained ROM, up to the memory that RESET_KEEPS_MEM keeps. -/
theorem resetReturnsToTheLoadedState : Obligations.ResetReturnsToTheLoadedState := by
  refine fun s => ⟨fun hact hfits => ⟨fun hkeep => ?_, fun hkeep => ⟨fun a => ?_, ?_⟩⟩, fun hinact => hostReset_inactive ?_⟩
  · rw [load_retained hfits, hostReset_active hact, hkeep]
    rfl
  · rw [hostReset_active hact, hkeep]
    rfl
  · rw [load_retained hfits, hostReset_active hact, hkeep]
    rfl
  · obtain h | h := hinact <;> rw [h] <;> decide

/-- A step from a state that is Running at 0x200 with no fault fetches at 0x200. -/
theorem step_of_entry {t : State} (hrun : t.lifecycle = .running) (ht : t.fault = none) (hpc : t.pc = 0x200) :
    step t = exec (decodeWord (BitVec.ofNat 16 ((t.readByte 0x200).toNat * 256 + (t.readByte 0x201).toNat))) (t.setPc 0x202) := by
  have hstep := stepRunsTheDecodedInstruction t _ hrun ht (by rw [hpc]; decide) rfl
  rw [hpc] at hstep
  exact hstep

/-- Settles O59: both operations leave a state at the entry point. -/
theorem firstStepFetchesAtTheEntryPoint : Obligations.FirstStepFetchesAtTheEntryPoint := by
  rintro s rom mode fill t (hload | ⟨hact, rfl⟩)
  · rcases Nat.lt_or_ge romMax rom.length with hlarge | hfits
    · rw [load_too_large mode fill s hlarge] at hload
      cases hload
    · rw [load_ok mode fill s hfits] at hload
      rw [← (Prod.mk.inj hload).2]
      exact step_of_entry rfl rfl rfl
  · rw [hostReset_active hact]
    exact step_of_entry rfl rfl rfl

/-- Settles O60: the values of a loaded state, for the configuration of reset. -/
theorem resetStateValues : Obligations.ResetStateValues :=
  ⟨State.loaded_getV resetConfig 0, rfl, rfl, rfl, fun k _ => displayCell_clearedDisplay k, rfl, rfl, rfl,
    fun k => Vector.getElem_replicate k.isLt, rfl, rfl, rfl, rfl⟩

/-! ### Lifecycle (R218 to R220) -/

theorem step_of_not_running {s : State} (h : s.lifecycle ≠ .running) : step s = .next s :=
  step_of_disabled (stepEnabled_eq_false_iff.mpr (.inl h))

theorem setLifecycle_lifecycle_self {s : State} {l l' : Lifecycle} (h : s.lifecycle = l) :
    (s.setLifecycle l').setLifecycle l = s := by
  subst h
  rfl

/-- Settles O58: the table is the three definitions; in Paused and Halted neither a step nor a tick acts. -/
theorem lifecycleTable : Obligations.LifecycleTable := by
  refine fun s => ⟨rfl, rfl, rfl, fun hrun => ?_⟩
  have hpause : pauseRun s = s.setLifecycle .paused := if_pos hrun
  have hquit : quitRun s = s.setLifecycle .halted := if_pos hrun
  have hresume : resumeRun (s.setLifecycle .paused) = (s.setLifecycle .paused).setLifecycle .running := if_pos rfl
  have hpaused : (s.setLifecycle .paused).lifecycle ≠ .running := nofun
  have hhalted : (s.setLifecycle .halted).lifecycle ≠ .running := nofun
  rw [hpause, hquit, hresume]
  exact ⟨step_of_not_running hpaused, tickTimers_other hpaused, setLifecycle_lifecycle_self hrun, step_of_not_running hhalted,
    tickTimers_other hhalted⟩

/-! ### The fault record (R208) -/

theorem ite_setLifecycle_fault (c : Prop) [Decidable c] (s : State) (l : Lifecycle) :
    (if c then s.setLifecycle l else s).fault = s.fault := by
  split <;> rfl

/-- Only load and reset touch the fault record. -/
theorem applyHostOp_fault {op : HostOp} (hload : ∀ src mode fill, op ≠ .load src mode fill) (hreset : op ≠ .reset) (s : State) :
    (applyHostOp op s).fault = s.fault := by
  cases op with
  | load src mode fill => exact absurd rfl (hload src mode fill)
  | reset => exact absurd rfl hreset
  | tickTimers => exact (frame_tickTimers s).fault rfl
  | setKey k down => rfl
  | clearDrawPending => rfl
  | pause => exact ite_setLifecycle_fault _ s _
  | resume => exact ite_setLifecycle_fault _ s _
  | quit => exact ite_setLifecycle_fault _ s _

/-- Settles O11: a recorded fault disables the step, and no other operation looks at the record. -/
theorem faultStaysUntilLoadOrReset : Obligations.FaultStaysUntilLoadOrReset := by
  intro s r hr
  have hfault : s.fault ≠ none := by rw [hr]; exact Option.some_ne_none r
  refine ⟨step_of_disabled (stepEnabled_eq_false_iff.mpr (.inr hfault)), fun op hload hreset => ?_⟩
  rw [applyHostOp_fault hload hreset, hr]

end Sys2Proof.Machine
end
